-- ==== Sys2Proof/Config.lean ====
section
/-! DEFINITION. What is fixed for the machine: the literals the spec fixes (00_scope.md R7, R8), the layout of a GIF
tag (30_encoding.md R101), the parameters it leaves OPEN (R7), and the values it leaves free, which are uninterpreted
constants. The literals come first, because the word types of Word.lean have their widths from here; the GIFPath record
types stand here because two parameters are functions over them. -/

namespace Sys2Proof

namespace Config

/-! ### The literals that R8 lists, each in one place -/

/-- `WORD_BITS`: the width of a ring slot and of a parser word (R7, R8). -/
abbrev wordBits : Nat := 128

@[simp] theorem wordBits_eq : wordBits = 128 := rfl

/-- The bytes of a word (R10). -/
abbrev wordBytes : Nat := wordBits / 8

@[simp] theorem wordBytes_eq : wordBytes = 16 := rfl

/-- `NPATHS`: the number of GIFPath records (R7, R8). -/
abbrev npaths : Nat := 3

/-- The auxiliary words of a packet header (R8, 30_encoding.md R91). -/
@[simp] abbrev auxWords : Nat := 3

/-- The register selectors of a tag (R8, R104). -/
@[simp] abbrev selectors : Nat := 16

/-- `AD_SEL`, the PACKED selector that means A+D (R7). -/
def adSel : BitVec 8 := 0xE

/-- The byte offset of the register index in an A+D unit (R8, R106). -/
@[simp] abbrev adIndexByte : Nat := 8

/-- The bits of a REGLIST unit: 8 bytes (R8, R107). -/
abbrev reglistUnitBits : Nat := 64

/-- The bytes of a REGLIST unit (R8, R107). -/
abbrev reglistUnitBytes : Nat := reglistUnitBits / 8

@[simp] theorem reglistUnitBits_eq : reglistUnitBits = 64 := rfl

@[simp] theorem reglistUnitBytes_eq : reglistUnitBytes = 8 := rfl

/-- The REGLIST units of a word (R8, R107). -/
@[simp] abbrev reglistUnitsPerWord : Nat := 2

/-- The bits of a PACKED unit: 16 bytes (R8, R106). -/
abbrev packedUnitBits : Nat := 128

/-- The bytes of a PACKED unit (R8, R106). -/
abbrev packedUnitBytes : Nat := packedUnitBits / 8

@[simp] theorem packedUnitBits_eq : packedUnitBits = 128 := rfl

@[simp] theorem packedUnitBytes_eq : packedUnitBytes = 16 := rfl

/-- The bits of an A+D unit above its register index, which the parser ignores (R106). -/
abbrev adIgnoredBits : Nat := packedUnitBits - 8 * (adIndexByte + 1)

@[simp] theorem adIgnoredBits_eq : adIgnoredBits = 56 := rfl

/-- `VSYNC_LIMIT` (R7, R8). -/
def vsyncLimit : BitVec 4 := 8

@[simp] theorem vsyncLimit_toNat : vsyncLimit.toNat = 8 := rfl

/-- One number for each of the four memory-write commands (R8, 20_memory.md R70). -/
structure MemWriteWidths where
  w8 : Nat
  w16 : Nat
  w32 : Nat
  w64 : Nat
  deriving DecidableEq, Repr

/-- The four memory-write widths, in bits (R8, 20_memory.md R70). -/
abbrev memWriteBits : MemWriteWidths := { w8 := 8, w16 := 16, w32 := 32, w64 := 64 }

/-- The same, in bytes (30_encoding.md R95, 43_consumer.md R253 to R256). -/
abbrev memWriteBytes : MemWriteWidths :=
  { w8 := memWriteBits.w8 / 8, w16 := memWriteBits.w16 / 8, w32 := memWriteBits.w32 / 8, w64 := memWriteBits.w64 / 8 }

/-- A header is its command and its auxiliary words, 32 bits each (R91). -/
theorem header_fills_word : 32 * (1 + auxWords) = wordBits := rfl

/-- A PACKED unit is one word, and the REGLIST units of a word fill it (R106, R107). -/
theorem units_fill_word : packedUnitBits = wordBits ∧ reglistUnitsPerWord * reglistUnitBits = wordBits := ⟨rfl, rfl⟩

end Config

/-- The tag part of a GIFPath record, with the widths of 10_state.md R24. -/
structure GifTag where
  nloop : BitVec 15
  eop : Bool
  flag : BitVec 2
  nreg : BitVec 4
  regs0 : BitVec 32
  regs1 : BitVec 32
  deriving DecidableEq, Repr

/-- One GIFPath record `G[p]` (R24): the current tag, the sixteen unpacked selectors, the index of the next one. -/
structure GifPath where
  tag : GifTag
  regs : Vector (BitVec 8) Config.selectors
  curreg : BitVec 8
  deriving DecidableEq, Repr

/-- The GIFPath records `G[0]` to `G[NPATHS - 1]` (R24). -/
abbrev GifPaths := Vector GifPath Config.npaths

/-- The all-zero tag and record, their value after reset (R37). -/
def GifTag.zero : GifTag := ⟨0, false, 0, 0, 0, 0⟩

@[inherit_doc GifTag.zero]
def GifPath.zero : GifPath := ⟨GifTag.zero, Vector.replicate Config.selectors 0, 0⟩

@[inherit_doc GifTag.zero]
def GifPaths.zero : GifPaths := Vector.replicate Config.npaths GifPath.zero

/-- Where each field of a GIF tag word begins (R101; held in one record as R101 asks). -/
structure GifTagLayout where
  nloopLo : Nat
  eopBit : Nat
  padLo : Nat
  flgLo : Nat
  nregLo : Nat
  regs0Lo : Nat
  regs1Lo : Nat
  deriving DecidableEq, Repr

/-- The parameters R7 leaves OPEN whose values are plain data. They are fixed before reset and never change (R330). -/
structure Params where
  /-- `RING_LOG2`: the ring has `2 ^ ringLog2` slots -/
  ringLog2 : Nat
  /-- `MIRROR_BYTES` -/
  mirrorBytes : Nat
  /-- `WAKE_WORDS` -/
  wakeWords : Nat
  /-- `WAKE_CMDS` -/
  wakeCmds : Nat
  /-- `STRICT` -/
  strict : Bool
  /-- `RL_SFL_BASE`: `none`, or 0 to 13 -/
  rlSflBase : Option (Fin 14)
  deriving DecidableEq, Repr

/-- The ranges R7 gives the parameters (RL_SFL_BASE has its range by type). -/
def Params.wf (c : Params) : Bool :=
  decide (1 ≤ c.ringLog2) && decide (c.mirrorBytes % 16 = 0) && decide (16 ≤ c.mirrorBytes) &&
    decide (1 ≤ c.wakeWords) && decide (1 ≤ c.wakeCmds)

namespace Config

/-- The layout of R101. -/
def tagLayout : GifTagLayout :=
  { nloopLo := 0, eopBit := 15, padLo := 16, flgLo := 58, nregLo := 60, regs0Lo := 64, regs1Lo := 96 }

/-- `AD_SFL_BASE`, the register index of SIGNAL in an A+D unit (R7, R109). -/
def adSflBase : Nat := 0x60

/-- The parameter values of a machine whose parameters nothing has chosen: the convention of 95_test_vectors.md, with
the thresholds of its program P1. DESIGN CHOICE (unsafe), log entry 1. -/
def conventional : Params :=
  { ringLog2 := 4, mirrorBytes := 0x40, wakeWords := 1000, wakeCmds := 100, strict := true, rlSflBase := none }

/-- `P3_PROGRESS`, OPEN (R7, R163): the path-3 progress flag from the tag just loaded and the old flag. Log entry 4. -/
opaque p3Progress : GifTag → Bool → Bool

/-- The backend's answer to its initialisation, drawn by OPEN (R201); `true` is ok. Log entry 3. -/
opaque drawInit : Nat → Bool

/-- What P reads of `busy` in the wake decision, a draw (20_memory.md R75). Log entry 3. -/
opaque drawBusy : Nat → Bool

/-- A schedule: which agent makes move number `n`, `true` being P. Nothing is assumed about the agents' relative speed, but
R3 gives the block weak fairness: each agent is chosen again and again. An agent that is chosen and has no step leaves the
state as it is, so that this is no more than R3 says. The default values show that there is a schedule; the uninterpreted
constant below has none. Log entry 2. -/
structure Schedule where
  producerMoves : Nat → Bool := fun n => n % 2 == 0
  fairToP : ∀ n, ∃ m, n ≤ m ∧ producerMoves m = true := by exact fun n => ⟨2 * n, by omega, by simp⟩
  fairToC : ∀ n, ∃ m, n ≤ m ∧ producerMoves m = false := by exact fun n => ⟨2 * n + 1, by omega, by simp⟩
  deriving Inhabited

/-- The schedule of this machine. Log entry 2. -/
opaque schedule : Schedule

/-- Which agent makes a move: `true` is P (R3). Log entry 2. -/
def drawProducerMoves (n : Nat) : Bool := schedule.producerMoves n

/-- Whether the call on the backend or the peripheral hook that C makes in move number `n` returns; one that does not
leaves C without a further step (93_implementation_defined.md U11). Log entry 20. -/
opaque drawCallReturns : Nat → Bool

/-- The selector read at an index of 16 or more, which only a record loaded from an image that SAVE did not produce
can make the parser do (93_implementation_defined.md U6; the spec gives no value). Log entry 6. -/
opaque selectorBeyond : GifPath → BitVec 8

end Config

end Sys2Proof
end

