-- ==== Sys2Proof/Word.lean ====
section
/-! DEFINITION. The word types of MTGS-FIFO: the 128-bit ring slot and parser word (00_scope.md R7 `WORD_BITS`,
R12 "Word"), the byte, and the 32-bit and 64-bit values its fields and operands have. -/

namespace Sys2Proof

/-- One ring slot, and one word of the parser's input (R7, R60). -/
abbrev Word := BitVec Config.wordBits

/-- One byte of the mirror region or of a savestate image (R63, R283). -/
abbrev Byte := BitVec 8

/-- A 32-bit word: a header field, an operand of a host operation, half of a unit's payload (R91, R112). -/
abbrev W32 := BitVec 32

/-- A 64-bit value: a pointer, the info of a fault (R7 `PTR_BITS`, R34). -/
abbrev W64 := BitVec 64

/-- One unit of a PACKED tag (30_encoding.md R106). -/
abbrev PackedUnit := BitVec Config.packedUnitBits

/-- One unit of a REGLIST tag (R107). -/
abbrev ReglistUnit := BitVec Config.reglistUnitBits

end Sys2Proof
end

