-- ==== Sys2Proof/Syntax.lean ====
section
/-! DEFINITION. The instructions of MTGS-FIFO: one constructor of `Instr` per row of spec/opcode_table.json, and the
operand types they carry. Three kinds share the type: ring commands (30_encoding.md R93, R95, R97), words of the GIF
data stream (R98 to R109) and operations on the producer port (R112). -/

namespace Sys2Proof

/-- A path, by its index below NPATHS (R94). -/
abbrev PathId := Fin Config.npaths

/-- PATH1, path index 0 (R94). -/
abbrev PathId.p0 : PathId := 0

/-- PATH2, path index 1 (R94). -/
abbrev PathId.p1 : PathId := 1

/-- PATH3, path index 2 (R94). -/
abbrev PathId.p2 : PathId := 2

/-- The three notifications SIGNAL, FINISH and LABEL (R110). -/
inductive Sfl where
  | signal | finish | label
  deriving DecidableEq, Repr

/-- The bits of a GIF tag word other than FLG, which the constructor fixes (R101). `pad` is the ignored field 57:16
(R102); `regs0` and `regs1` are the low and high half of REGS. -/
structure TagFields where
  nloop : BitVec 15
  eop : Bool
  pad : BitVec 42
  nreg : BitVec 4
  regs0 : W32
  regs1 : W32
  deriving DecidableEq, Repr

/-- What the REGLIST row stands for: the tag word that opens the format (R162), or one unit of the format whose selector
`sel` raises nothing (R167); units that raise a notification have rows of their own. -/
inductive ReglistItem where
  | tag (t : TagFields)
  | unit (sel : Byte) (u : ReglistUnit)
  deriving DecidableEq, Repr

/-- What an IMAGE row stands for: the tag word that opens the format (R162), or one raw word of its run (R169). -/
inductive ImageItem where
  | tag (t : TagFields)
  | data (w : Word)
  deriving DecidableEq, Repr

/-- The instructions, in the order of spec/opcode_table.json. Words that a rule says are ignored are no operands. -/
inductive Instr where
  -- ring commands, R93 and R95
  | p1 (size : W32)
  | p2 (size : W32)
  | p3 (size : W32)
  | vsync (fieldflag : W32)
  | softreset (pathMask : W32)
  | reset
  | writecsr (value : W32)
  | memwrite8 (offset : W32) (value : BitVec Config.memWriteBits.w8)
  | memwrite16 (offset : W32) (value : BitVec Config.memWriteBits.w16)
  | memwrite32 (offset : W32) (value : BitVec Config.memWriteBits.w32)
  | memwrite64 (offset : W32) (value : BitVec Config.memWriteBits.w64)
  | modechange (a b : W32)
  | freeze (mode : W32) (ptr : W64)
  | record
  | restart
  | quit
  | unrecognised (command : W32)
  -- GIF tags and the data their rows' rules consume, R101 to R108
  | giftagPacked (t : TagFields)
  | giftagReglist (x : ReglistItem)
  | giftagImage (x : ImageItem)
  | giftagImage3 (x : ImageItem)
  -- PACKED units by selector, A+D units by register index, REGLIST units by selector, R106, R107, R109
  | packedAd (u : PackedUnit)
  | packedOther (sel : Byte) (u : PackedUnit)
  | adSignal (w0 w1 : W32) (ignored : BitVec Config.adIgnoredBits)
  | adFinish (w0 w1 : W32) (ignored : BitVec Config.adIgnoredBits)
  | adLabel (w0 w1 : W32) (ignored : BitVec Config.adIgnoredBits)
  | reglistSignal (u : ReglistUnit)
  | reglistFinish (u : ReglistUnit)
  | reglistLabel (u : ReglistUnit)
  -- host operations, R112
  | hostOpen
  | hostClose
  | hostReset
  | hostPrepareData (path : W32) (data : List Word)
  | hostSendData
  | hostSendSimple (command d0 d1 d2 : W32)
  | hostSendPointer (command d0 : W32) (ptr : W64)
  | hostWaitDrain
  | hostPostVsync (fieldflag : W32)
  | hostSavestateSave
  | hostSavestateLoad (image : List Byte)
  | hostReserved11
  | hostReserved12
  | hostReserved13
  | hostReserved14
  | hostReserved15
  deriving DecidableEq, Repr

/-- One request on the producer port: the 4-bit operation number and one lane per argument that some operation takes
(R112). An operation reads only its own lanes. -/
structure HostRequest where
  op : BitVec 4
  path : W32 := 0
  data : List Word := []
  command : W32 := 0
  d0 : W32 := 0
  d1 : W32 := 0
  d2 : W32 := 0
  ptr : W64 := 0
  fieldflag : W32 := 0
  image : List Byte := []
  deriving DecidableEq, Repr

end Sys2Proof
end

