-- ==== Sys2Proof/WellFormed.lean ====
section
/-! DEFINITION. Which terms of `Instr` are instructions: the checks that the encodings of spec/30_encoding.md put on
operands and that the operand types do not. -/

namespace Sys2Proof

/-- Whether the code `c` lies in the SIGNAL, FINISH, LABEL range that begins at `base` (30_encoding.md R109). -/
def inSflRange (base c : Nat) : Bool := decide (base ≤ c) && decide (c ≤ base + 2)

/-- Whether a REGLIST selector raises a notification; with RL_SFL_BASE `none`, none does (R109). -/
def isReglistSfl (rl : Option (Fin 14)) (sel : Byte) : Bool :=
  match rl with
  | none => false
  | some b => inSflRange b.val sel.toNat

/-- The register index of an A+D unit: the byte at byte offset 8 (R106). -/
def adIndex (u : PackedUnit) : Byte := u.extractLsb' (8 * Config.adIndexByte) 8

/-- An instruction's operands are ones its encoding admits, for the value `rl` of RL_SFL_BASE.
UNRECOGNISED: the id is 16 or more (R97). PACKED.AD: the index is outside the range (the others have rows of their
own). PACKED.OTHER: the selector is not 0xE. A REGLIST unit without notification: its selector is outside the range.
REGLIST.SIGNAL, FINISH, LABEL: there is no such row when RL_SFL_BASE is `none` (R109). -/
def Instr.wf (rl : Option (Fin 14)) (i : Instr) : Bool :=
  match i with
  | .unrecognised command => decide (16 ≤ command.toNat)
  | .packedAd u => !inSflRange Config.adSflBase (adIndex u).toNat
  | .packedOther sel _ => decide (sel ≠ Config.adSel)
  | .giftagReglist (.unit sel _) => !isReglistSfl rl sel
  | .reglistSignal _ => rl.isSome
  | .reglistFinish _ => rl.isSome
  | .reglistLabel _ => rl.isSome
  | _ => true

end Sys2Proof
end

