-- ==== Sys2Proof/Decode.lean ====
section
/-! DEFINITION. Decoding and encoding, from the tables of spec/30_encoding.md. The block fetches from three places, so a
`Code` is what an agent has before it when it fetches: a ring header, a GIF word with what the parser's state says it is
(R98), or a request on the producer port. `decode` is total: every command id, every FLG code and every op code has a
row. Bytes are turned into a word by the block's byte order (20_memory.md R66) and rejected by name if they are not
sixteen. `encode` is written from the same tables. -/

namespace Sys2Proof

/-- The bits an agent fetches, with the context that says how to read them (R98: a GIF word is a tag exactly when the
path's `nloop` is 0; otherwise it is data in the running tag's format). -/
inductive Code where
  /-- a header word of the ring (R91) -/
  | header (w : Word)
  /-- a GIF word reached with `nloop = 0` (R101) -/
  | tag (w : Word)
  /-- a word of a PACKED tag under selector `sel` (R106) -/
  | packed (sel : Byte) (u : PackedUnit)
  /-- half a word of a REGLIST tag under selector `sel` (R107) -/
  | reglist (sel : Byte) (u : ReglistUnit)
  /-- a word of an IMAGE tag of FLG 2 (R108) -/
  | image (w : Word)
  /-- a word of an IMAGE tag of FLG 3 (R103, R108) -/
  | image3 (w : Word)
  /-- a request on the producer port (R112) -/
  | request (r : HostRequest)
  deriving DecidableEq, Repr

/-- Why bytes do not decode: the length is not that of one word. -/
inductive DecodeError where
  | notSixteenBytes (length : Nat)
  deriving DecidableEq, Repr

/-! ### Fields of a word -/

/-- A field's value at its place in a word: its least significant bit at bit `lo` (00_scope.md R9). -/
def place {k : Nat} (lo : Nat) (v : BitVec k) : Word := v.setWidth Config.wordBits <<< lo

/-- `hi ++ lo`, the 64-bit value whose upper half is `hi` (R9). -/
def pair64 (hi lo : W32) : W64 := (hi.setWidth 64 <<< 32) ||| lo.setWidth 64

/-- `command = w[31:0]` (R91). -/
def headerCommand (w : Word) : W32 := w.extractLsb' 0 32

/-- `data[k]`, the 32 bits after the command and the `k` auxiliary words before it (R91). -/
def headerData (k : Fin Config.auxWords) (w : Word) : W32 := w.extractLsb' (32 * (k.val + 1)) 32

/-- The header word `data[2] ++ data[1] ++ data[0] ++ command` (R91). -/
def headerWord (command d0 d1 d2 : W32) : Word := place 96 d2 ||| place 64 d1 ||| place 32 d0 ||| place 0 command

/-- The value of a memory write of `k` bits: the low bits of `data[2] ++ data[1]` (R95). -/
def memWriteValue (k : Nat) (d1 d2 : W32) : BitVec k := (pair64 d2 d1).setWidth k

/-- The header of a memory write: the value in `data[1]` and `data[2]`, its upper bits zero (R95). -/
def memWriteHeader {k : Nat} (command offset : W32) (value : BitVec k) : Word :=
  headerWord command offset ((value.setWidth 64).extractLsb' 0 32) ((value.setWidth 64).extractLsb' 32 32)

/-- The FLG field of a tag word (R101). -/
def tagFlg (w : Word) : BitVec 2 := w.extractLsb' Config.tagLayout.flgLo 2

/-- The other fields of a tag word (R101). -/
def tagFields (w : Word) : TagFields :=
  { nloop := w.extractLsb' Config.tagLayout.nloopLo 15
    eop := w.getLsbD Config.tagLayout.eopBit
    pad := w.extractLsb' Config.tagLayout.padLo 42
    nreg := w.extractLsb' Config.tagLayout.nregLo 4
    regs0 := w.extractLsb' Config.tagLayout.regs0Lo 32
    regs1 := w.extractLsb' Config.tagLayout.regs1Lo 32 }

/-- The tag word of these fields and this FLG (R101, high field first). -/
def tagWord (flg : BitVec 2) (t : TagFields) : Word :=
  place Config.tagLayout.regs1Lo t.regs1 ||| place Config.tagLayout.regs0Lo t.regs0 |||
    place Config.tagLayout.nregLo t.nreg ||| place Config.tagLayout.flgLo flg ||| place Config.tagLayout.padLo t.pad |||
    place Config.tagLayout.eopBit (BitVec.ofBool t.eop) ||| place Config.tagLayout.nloopLo t.nloop

/-- Payload word 0 of an A+D unit: bits 31:0 (R106). -/
def unitWord0 (u : PackedUnit) : W32 := u.extractLsb' 0 32

/-- Payload word 1 of an A+D unit: bits 63:32 (R106). -/
def unitWord1 (u : PackedUnit) : W32 := u.extractLsb' 32 32

/-- The register index of an A+D unit: bits 71:64, "byte offset 8" (R106, R166: only these 8 bits are compared). -/
def unitIndex (u : PackedUnit) : Byte := u.extractLsb' (8 * Config.adIndexByte) 8

/-- The ignored bits 127:72 of an A+D unit (R106). -/
def unitIgnored (u : PackedUnit) : BitVec Config.adIgnoredBits :=
  u.extractLsb' (8 * (Config.adIndexByte + 1)) Config.adIgnoredBits

/-- An A+D unit of these fields (R106). -/
def adUnit (index : Byte) (w0 w1 : W32) (ignored : BitVec Config.adIgnoredBits) : PackedUnit :=
  place (8 * (Config.adIndexByte + 1)) ignored ||| place (8 * Config.adIndexByte) index ||| place 32 w1 ||| place 0 w0

/-- The notification that a code selects, by its distance from the base of the range (R109, R110). -/
def sflOf (base c : Nat) : Option Sfl :=
  if base ≤ c ∧ c ≤ base + 2 then
    match c - base with
    | 0 => some .signal
    | 1 => some .finish
    | _ => some .label
  else none

/-- The distance of a notification's code from its base, its handler number (R110). -/
def Sfl.number : Sfl → Nat
  | .signal => 0
  | .finish => 1
  | .label => 2

/-- The notification of a REGLIST selector; none when RL_SFL_BASE is `none` (R109). -/
def reglistSfl (rl : Option (Fin 14)) (sel : Byte) : Option Sfl :=
  match rl with
  | none => none
  | some b => sflOf b.val sel.toNat

/-! ### What a placed field reads as -/

theorem getLsbD_place_within {k lo i : Nat} (v : BitVec k) (h : lo ≤ i) (h' : i < 128) :
    (place lo v).getLsbD i = v.getLsbD (i - lo) := by
  simp only [place, BitVec.getLsbD_shiftLeft, BitVec.getLsbD_setWidth]
  simp [h', Nat.not_lt.mpr h, show i - lo < 128 by omega]

theorem getLsbD_place_below {k lo i : Nat} (v : BitVec k) (h : i < lo) : (place lo v).getLsbD i = false := by
  simp [place, BitVec.getLsbD_shiftLeft, h]

theorem getLsbD_place_above {k lo i : Nat} (v : BitVec k) (h : lo + k ≤ i) : (place lo v).getLsbD i = false := by
  simp only [place, BitVec.getLsbD_shiftLeft, BitVec.getLsbD_setWidth]
  simp [BitVec.getLsbD_of_ge v (i - lo) (by omega)]

theorem tagFlg_tagWord (f : BitVec 2) (t : TagFields) : tagFlg (tagWord f t) = f := by
  apply BitVec.eq_of_getLsbD_eq
  intro i hi
  simp (disch := omega) only [tagFlg, tagWord, Config.tagLayout, BitVec.getLsbD_extractLsb', BitVec.getLsbD_or,
    getLsbD_place_below, getLsbD_place_above]
  simp (disch := omega) only [getLsbD_place_within]
  simp [hi]

theorem tagFields_tagWord (f : BitVec 2) (t : TagFields) : tagFields (tagWord f t) = t := by
  cases t
  simp only [tagFields, tagWord, Config.tagLayout, TagFields.mk.injEq]
  refine ⟨?_, ?_, ?_, ?_, ?_, ?_⟩
  case refine_2 =>
    simp (disch := omega) only [BitVec.getLsbD_or, getLsbD_place_below, getLsbD_place_above]
    simp (disch := omega) only [getLsbD_place_within]
    simp
  all_goals
    apply BitVec.eq_of_getLsbD_eq
    intro i hi
    simp (disch := omega) only [BitVec.getLsbD_extractLsb', BitVec.getLsbD_or, getLsbD_place_below,
      getLsbD_place_above]
    simp (disch := omega) only [getLsbD_place_within]
    simp [hi]

/-! ### Decode -/

/-- A ring header: all 32 bits of the command are compared with the ids 0 to 15 (R93, R97, R247); the auxiliary words
become operands by R95. -/
def decodeHeader (w : Word) : Instr :=
  let d0 := headerData 0 w
  let d1 := headerData 1 w
  let d2 := headerData 2 w
  match (headerCommand w).toNat with
  | 0 => .p1 d0
  | 1 => .p2 d0
  | 2 => .p3 d0
  | 3 => .vsync d0
  | 4 => .softreset d0
  | 5 => .reset
  | 6 => .writecsr d0
  | 7 => .memwrite8 d0 (memWriteValue _ d1 d2)
  | 8 => .memwrite16 d0 (memWriteValue _ d1 d2)
  | 9 => .memwrite32 d0 (memWriteValue _ d1 d2)
  | 10 => .memwrite64 d0 (memWriteValue _ d1 d2)
  | 11 => .modechange d0 d1
  | 12 => .freeze d0 (pair64 d2 d1)
  | 13 => .record
  | 14 => .restart
  | 15 => .quit
  | _ => .unrecognised (headerCommand w)

/-- A tag word, by its FLG code (R103). -/
def decodeTag (w : Word) : Instr :=
  match (tagFlg w).toNat with
  | 0 => .giftagPacked (tagFields w)
  | 1 => .giftagReglist (.tag (tagFields w))
  | 2 => .giftagImage (.tag (tagFields w))
  | _ => .giftagImage3 (.tag (tagFields w))

/-- A word of a PACKED tag: looked into only under selector 0xE (R106, R109). -/
def decodePacked (sel : Byte) (u : PackedUnit) : Instr :=
  if sel = Config.adSel then
    match sflOf Config.adSflBase (unitIndex u).toNat with
    | some .signal => .adSignal (unitWord0 u) (unitWord1 u) (unitIgnored u)
    | some .finish => .adFinish (unitWord0 u) (unitWord1 u) (unitIgnored u)
    | some .label => .adLabel (unitWord0 u) (unitWord1 u) (unitIgnored u)
    | none => .packedAd u
  else .packedOther sel u

/-- A unit of a REGLIST tag: its selector is the register code (R107, R109). -/
def decodeReglist (rl : Option (Fin 14)) (sel : Byte) (u : ReglistUnit) : Instr :=
  match reglistSfl rl sel with
  | some .signal => .reglistSignal u
  | some .finish => .reglistFinish u
  | some .label => .reglistLabel u
  | none => .giftagReglist (.unit sel u)

/-- A request on the producer port, by its op number (R112). -/
def decodeRequest (r : HostRequest) : Instr :=
  match r.op.toNat with
  | 0 => .hostOpen
  | 1 => .hostClose
  | 2 => .hostReset
  | 3 => .hostPrepareData r.path r.data
  | 4 => .hostSendData
  | 5 => .hostSendSimple r.command r.d0 r.d1 r.d2
  | 6 => .hostSendPointer r.command r.d0 r.ptr
  | 7 => .hostWaitDrain
  | 8 => .hostPostVsync r.fieldflag
  | 9 => .hostSavestateSave
  | 10 => .hostSavestateLoad r.image
  | 11 => .hostReserved11
  | 12 => .hostReserved12
  | 13 => .hostReserved13
  | 14 => .hostReserved14
  | _ => .hostReserved15

/-- The instruction of a code, for the value `rl` of RL_SFL_BASE. -/
def decode (rl : Option (Fin 14)) (c : Code) : Instr :=
  match c with
  | .header w => decodeHeader w
  | .tag w => decodeTag w
  | .packed sel u => decodePacked sel u
  | .reglist sel u => decodeReglist rl sel u
  | .image w => .giftagImage (.data w)
  | .image3 w => .giftagImage3 (.data w)
  | .request r => decodeRequest r

/-! ### Encode -/

/-- A REGLIST unit whose selector is the notification's code; RL_SFL_BASE must not be `none` (R109). -/
def reglistSflCode (rl : Option (Fin 14)) (k : Sfl) (u : ReglistUnit) : Code :=
  match rl with
  | none => .reglist 0 u
  | some b => .reglist (BitVec.ofNat 8 (b.val + k.number)) u

/-- The code of a notification's register index in an A+D unit (R109). -/
def adSflIndex (k : Sfl) : Byte := BitVec.ofNat 8 (Config.adSflBase + k.number)

/-- The code of an instruction. Ignored words of a header, and the lanes of the port that an operation does not take,
are written as zeros. -/
def encode (rl : Option (Fin 14)) (i : Instr) : Code :=
  match i with
  | .p1 size => .header (headerWord 0 size 0 0)
  | .p2 size => .header (headerWord 1 size 0 0)
  | .p3 size => .header (headerWord 2 size 0 0)
  | .vsync fieldflag => .header (headerWord 3 fieldflag 0 0)
  | .softreset pathMask => .header (headerWord 4 pathMask 0 0)
  | .reset => .header (headerWord 5 0 0 0)
  | .writecsr value => .header (headerWord 6 value 0 0)
  | .memwrite8 offset value => .header (memWriteHeader 7 offset value)
  | .memwrite16 offset value => .header (memWriteHeader 8 offset value)
  | .memwrite32 offset value => .header (memWriteHeader 9 offset value)
  | .memwrite64 offset value => .header (memWriteHeader 10 offset value)
  | .modechange a b => .header (headerWord 11 a b 0)
  | .freeze mode ptr => .header (headerWord 12 mode (ptr.extractLsb' 0 32) (ptr.extractLsb' 32 32))
  | .record => .header (headerWord 13 0 0 0)
  | .restart => .header (headerWord 14 0 0 0)
  | .quit => .header (headerWord 15 0 0 0)
  | .unrecognised command => .header (headerWord command 0 0 0)
  | .giftagPacked t => .tag (tagWord 0 t)
  | .giftagReglist (.tag t) => .tag (tagWord 1 t)
  | .giftagReglist (.unit sel u) => .reglist sel u
  | .giftagImage (.tag t) => .tag (tagWord 2 t)
  | .giftagImage (.data w) => .image w
  | .giftagImage3 (.tag t) => .tag (tagWord 3 t)
  | .giftagImage3 (.data w) => .image3 w
  | .packedAd u => .packed Config.adSel u
  | .packedOther sel u => .packed sel u
  | .adSignal w0 w1 ignored => .packed Config.adSel (adUnit (adSflIndex .signal) w0 w1 ignored)
  | .adFinish w0 w1 ignored => .packed Config.adSel (adUnit (adSflIndex .finish) w0 w1 ignored)
  | .adLabel w0 w1 ignored => .packed Config.adSel (adUnit (adSflIndex .label) w0 w1 ignored)
  | .reglistSignal u => reglistSflCode rl .signal u
  | .reglistFinish u => reglistSflCode rl .finish u
  | .reglistLabel u => reglistSflCode rl .label u
  | .hostOpen => .request { op := 0 }
  | .hostClose => .request { op := 1 }
  | .hostReset => .request { op := 2 }
  | .hostPrepareData path data => .request { op := 3, path := path, data := data }
  | .hostSendData => .request { op := 4 }
  | .hostSendSimple command d0 d1 d2 => .request { op := 5, command := command, d0 := d0, d1 := d1, d2 := d2 }
  | .hostSendPointer command d0 ptr => .request { op := 6, command := command, d0 := d0, ptr := ptr }
  | .hostWaitDrain => .request { op := 7 }
  | .hostPostVsync fieldflag => .request { op := 8, fieldflag := fieldflag }
  | .hostSavestateSave => .request { op := 9 }
  | .hostSavestateLoad image => .request { op := 10, image := image }
  | .hostReserved11 => .request { op := 11 }
  | .hostReserved12 => .request { op := 12 }
  | .hostReserved13 => .request { op := 13 }
  | .hostReserved14 => .request { op := 14 }
  | .hostReserved15 => .request { op := 15 }

/-! ### Bytes, and the numbers of spec/opcode_table.json -/

/-- The bytes of a word, byte `k` being `w[8k+7:8k]` (20_memory.md R66). -/
def bytesOfWord (w : Word) : List Byte := (List.range Config.wordBytes).map fun k => w.extractLsb' (8 * k) 8

/-- The number whose bytes, least significant first, are these (R66). -/
def natOfBytes : List Byte → Nat
  | [] => 0
  | b :: bs => b.toNat + 256 * natOfBytes bs

/-- The word of sixteen bytes, or a rejection by name. -/
def wordOfBytes (bs : List Byte) : Except DecodeError Word :=
  if bs.length = Config.wordBytes then .ok (BitVec.ofNat Config.wordBits (natOfBytes bs)) else .error (.notSixteenBytes bs.length)

/-- The ring header in sixteen bytes as memory holds them. -/
def decodeHeaderBytes (bs : List Byte) : Except DecodeError Instr := (wordOfBytes bs).map decodeHeader

/-- What a row of spec/opcode_table.json stands for when its bits are the number `w` and it has `nbits` of them. The
table numbers five kinds of row from 0, so the width tells them apart: up to 8 bits an op code of the port; up to 32 bits
a ring header, its upper bits zero; above that a GIF word: an A+D unit when its index byte is a notification's and its
payload is zero, a ring header when it is a bare command id 1 to 15, otherwise a tag. DESIGN CHOICE, log entry 14. -/
def tableCode (nbits w : Nat) : Option Code :=
  if nbits = 0 ∨ Config.wordBits < nbits then none
  else if nbits ≤ 8 then some (.request { op := BitVec.ofNat 4 w })
  else
    let word := BitVec.ofNat Config.wordBits w
    if nbits ≤ 32 then some (.header word)
    else if (sflOf Config.adSflBase (unitIndex word).toNat).isSome && decide (word.extractLsb' 0 64 = 0) then
      some (.packed Config.adSel word)
    else if 0 < w ∧ w < 16 then some (.header word)
    else some (.tag word)

/-- The instruction this decoder reads from a row's bits; a header goes through its bytes. -/
def decodeTableWord (nbits w : Nat) : Option Instr :=
  match tableCode nbits w with
  | none => none
  | some (.header word) =>
    match decodeHeaderBytes (bytesOfWord word) with
    | .ok i => some i
    | .error _ => none
  | some c => some (decode none c)

end Sys2Proof
end

