-- ==== Sys2Proof/Machine/State.lean ====
section
/-! DEFINITION. The state of MTGS-FIFO (10_state.md R20 to R37), as plain data, the two ways a step can stop, and the
state after hardware reset. -/

namespace Sys2Proof.Machine

/-! ### The two agents and their control states -/

/-- The producer side P and the consumer side C (00_scope.md R3). -/
inductive Agent where
  | p | c
  deriving DecidableEq, Repr

/-- `restart_lock` (R29). -/
inductive Lock where
  | free | heldP | heldC
  deriving DecidableEq, Repr

/-- `session` (R32). -/
inductive Session where
  | closed | opened
  deriving DecidableEq, Repr

/-- `cstate` (R33, 43_consumer.md R240). -/
inductive CState where
  | off | waiting | draining | halted
  deriving DecidableEq, Repr

/-- `resv` while a reservation is pending (R23). -/
structure Reservation where
  offset : Nat
  size : Nat
  deriving DecidableEq, Repr

/-- The fault codes that have a name (60_exceptions.md R290). -/
inductive ErrCode where
  | errInit | errOversize | errOvertake | errUnknownCmd | errApi | errMemwrite
  deriving DecidableEq, Repr

/-- `fault` while `fault.valid = 1` (R34, R291). -/
structure FaultRecord where
  code : ErrCode
  agent : Agent
  info : W64
  deriving DecidableEq, Repr

/-! ### Outputs -/

/-- One call on the backend, an entry of `backend_trace` (R35, 43_consumer.md R242; `init` is P's, R201). -/
inductive BackendCall where
  | init (ok : Bool)
  | transfer (path : PathId) (words : List Word) (count : W32)
  | vsync (fieldflag : W32)
  | reset
  | softReset (pathMask : W32)
  | writeControlRegister (value : W32)
  | modeChange (a b : W32)
  | freeze (mode : W32) (ptr : W64)
  | close
  deriving DecidableEq, Repr

/-- One SIGNAL, FINISH or LABEL notification, an entry of `sfl_trace` (R35, 41_gifpath.md R173). -/
structure Notification where
  kind : Sfl
  w0 : W32
  w1 : W32
  deriving DecidableEq, Repr

/-- The two peripheral-update hooks, entries of `periph_trace` (R35, R249). -/
inductive Periph where
  | a | b
  deriving DecidableEq, Repr

/-- The result a host operation returns (30_encoding.md R112, R113). -/
inductive Reply where
  /-- the operation has no result value -/
  | done
  /-- OPEN succeeded -/
  | ok
  /-- OPEN's backend initialisation failed: `ERR_INIT`, a result and no latched fault (R294) -/
  | errInit
  /-- PREPARE_DATA's `committed` (R204) -/
  | committed (n : Nat)
  /-- SAVESTATE_SAVE's image (R281) -/
  | image (bytes : List Byte)
  deriving DecidableEq, Repr

/-! ### What an agent is in the middle of -/

/-- Which unit of a REGLIST word the parser reads next (41_gifpath.md R167, `h`). -/
abbrev Half := Fin Config.reglistUnitsPerWord

/-- The lower half of a REGLIST word, its first unit (R167). -/
abbrev Half.lower : Half := 0

/-- The upper half of a REGLIST word, its second unit (R167). -/
abbrev Half.upper : Half := 1

/-- A parser run inside PREPARE_DATA (R160): the path, the words consumed so far in order, and those not yet read. -/
structure ParseRun where
  path : PathId
  taken : List Word
  rest : List Word
  half : Half
  deriving DecidableEq, Repr

/-- A parsed data packet that P is finding ring space for (42_producer.md R204). -/
structure Packet where
  path : PathId
  payload : List Word
  deriving DecidableEq, Repr

/-- What P goes on with after a commit (40_ring.md R137, R138). -/
inductive AfterCommit where
  /-- the operation ends -/
  | retire
  /-- SEND_DATA ends; its publish has cleared the reservation (R205) -/
  | sendData
  /-- CLOSE signals the wake event (R202) -/
  | close
  /-- the RESTART sequence stores 0 into `write_pos` (R136 step 4) -/
  | restart (pkt : Packet)
  deriving DecidableEq, Repr

/-- What P goes on with after a drain (R207, 44_savestate.md R281, R282). -/
inductive AfterDrain where
  | retire
  | save
  | load (image : List Byte)
  deriving DecidableEq, Repr

/-- Where P stands in the operation it runs: which of the atomic steps of 40_ring.md R142 is its next one. -/
inductive PPhase where
  /-- no operation; P may accept one (30_encoding.md R113) -/
  | idle
  /-- PREPARE_DATA: the parser's next item (R160) -/
  | parsing (run : ParseRun)
  /-- `reserve`: evaluate the guard of the case that applies (R141) -/
  | reserve (pkt : Packet)
  /-- RESTART sequence, step 1: acquire the lock (R136) -/
  | lockAcquire (pkt : Packet)
  /-- step 2: write the marker -/
  | marker (pkt : Packet)
  /-- step 4: store 0 into `write_pos` -/
  | originStore (pkt : Packet)
  /-- step 5: release the lock -/
  | lockRelease (pkt : Packet)
  /-- `enqueue_simple`: evaluate the one-slot guard for this header (R135, R140) -/
  | slot (header : Word) (after : AfterCommit)
  /-- `commit`, publish part (R137) -/
  | publish (offset size : Nat) (after : AfterCommit)
  /-- `commit`, wake part (R138) -/
  | wakeDecision (size : Nat) (after : AfterCommit)
  /-- POST_VSYNC: evaluate `vsync_queued < 8` (R209) -/
  | vsyncWait (fieldflag : W32)
  /-- POST_VSYNC: increment the counter -/
  | vsyncCount (fieldflag : W32)
  /-- CLOSE: its own `signal_wake()` (R202) -/
  | closeSignal
  /-- CLOSE: evaluate `cstate == Halted` -/
  | closeWait
  /-- WAIT_DRAIN: evaluate `read_pos == write_pos` (R207) -/
  | drain (after : AfterDrain)
  deriving DecidableEq, Repr

/-- Where C stands in its loop: which atomic step is its next one while `cstate = Draining` (43_consumer.md R241, R265). -/
inductive CPhase where
  /-- load `write_pos` and compare it with `read_pos` -/
  | top
  /-- the ring was empty: clear `busy` and wait -/
  | leaving
  /-- the ring was not empty: fetch the header at `read_pos` and dispatch it -/
  | dispatch
  /-- the advance of `read_pos` by `k` slots (R248) -/
  | advance (k : Nat)
  /-- VSYNC: decrement the counter (R249) -/
  | vsyncCount
  /-- VSYNC: peripheral hook A -/
  | vsyncHookA
  /-- VSYNC: peripheral hook B -/
  | vsyncHookB
  /-- RESTART, lock held: store 0 into `read_pos` (R246) -/
  | restartStore
  /-- RESTART: release the lock -/
  | restartRelease
  /-- QUIT: clear `busy` and halt (R261) -/
  | quitHalt
  deriving DecidableEq, Repr

/-! ### Memory -/

/-- A memory: its written cells, addresses strictly rising. An unlisted address has no value (R37: unspecified), so there
is no entry that equals what it reads as. Log entry 7. -/
abbrev Memory (α : Type) := List (Nat × α)

/-! ### The state -/

/-- The complete state: the items of 10_state.md R20 under their own names, the traces of R35, the port and the agents'
positions in their rules, and, last, the parameters and the model's own two fields. -/
structure State where
  /-- `write_pos` (R21) -/
  writePos : Nat
  /-- `read_pos`, the program counter (R22) -/
  readPos : Nat
  /-- `resv`; `none` is `resv.valid = 0` (R23) -/
  resv : Option Reservation
  /-- `G[0..2]` (R24) -/
  paths : GifPaths
  /-- `busy` (R26) -/
  busy : Bool
  /-- `wake_pending` (R27) -/
  wakePending : Bool
  /-- `vsync_queued` (R28) -/
  vsyncQueued : BitVec 4
  /-- `restart_lock` (R29) -/
  restartLock : Lock
  /-- `tally_words` (R30) -/
  tallyWords : Nat
  /-- `tally_cmds` (R30) -/
  tallyCmds : Nat
  /-- `p3_progress` (R31) -/
  p3Progress : Bool
  /-- `session` (R32) -/
  session : Session
  /-- `cstate` (R33) -/
  cstate : CState
  /-- `fault`; `none` is `fault.valid = 0` (R34) -/
  fault : Option FaultRecord
  /-- `unk_cmd_seen` (R34) -/
  unkCmdSeen : Bool
  /-- `ring[0..N-1]` (20_memory.md R60) -/
  ring : Memory Word
  /-- `mirror[0..MIRROR_BYTES-1]` (R63) -/
  mirror : List Host.Cell
  /-- `backend_trace`, oldest first (R35) -/
  backendTrace : List BackendCall
  /-- `sfl_trace`, oldest first (R35) -/
  sflTrace : List Notification
  /-- `periph_trace`, oldest first (R35) -/
  periphTrace : List Periph
  /-- the operations the host presents, the first one now (30_encoding.md R113) -/
  port : List HostRequest
  /-- P's next atomic step -/
  pphase : PPhase
  /-- P's last guard evaluation failed and its `signal_wake()` is due (40_ring.md R139) -/
  pSignal : Bool
  /-- C's next atomic step while it drains -/
  cphase : CPhase
  /-- the results returned to the host, oldest first (R113) -/
  replies : List Reply
  /-- the parameters of R7, which no step changes (R330); log entry 1 -/
  cfg : Params
  /-- C is inside a call on the backend or a peripheral hook that never returns (93_implementation_defined.md U11); log
  entry 20 -/
  endlessCall : Bool
  /-- the model's own: the agent that moves next; log entry 2 -/
  turn : Agent
  /-- the model's own: how many moves the schedule has given; log entry 2 -/
  moves : Nat
  /-- the model's own: how many free values have been drawn; log entry 3 -/
  draws : Nat
  deriving DecidableEq, Repr

/-- The capacity `N = 2^RING_LOG2` (R7). -/
def State.capacity (s : State) : Nat := 2 ^ s.cfg.ringLog2

/-! ### Stops -/

/-- Why the machine stops with a fault. A fault that the spec's `raise` latches is no stop: it is a next state. -/
inductive Fault where
  /-- Raised by every step once `fault.valid = 1`: "neither P nor C has any further step" (60_exceptions.md R292). Safe:
  the spec gives no step here. -/
  | deadBlock
  /-- Raised by C when it reads a ring slot that nothing has written since reset or OPEN (R37, R62: a slot is read only
  in the live region, which P has written). Safe: the spec says any value (U7), and a run of the block never does it. -/
  | unwrittenSlot (slot : Nat)
  deriving DecidableEq, Repr

/-- Why `exec` answers nothing. No step of the machine meets one of these: every instruction has its meaning, and the
others are answers of `exec` in states in which the agent that would run the instruction cannot have fetched it (log
entry 23). -/
inductive Refusal where
  /-- Answered by an arm of `exec` whose instruction has no meaning yet. Safe. -/
  | notModelled (mnemonic : String)
  /-- Answered by a ring command while `cstate` is not Draining: C has no dispatch step then (R240). Safe. -/
  | consumerNotDraining
  /-- Answered by a ring command while C stands at the top or the end of its loop: it has not fetched a header (R241).
  Safe. -/
  | consumerNotDispatching
  /-- Answered by a GIF word while no PREPARE_DATA is parsing (R160). Safe. -/
  | noParserRun
  /-- Answered by a data unit of a tag while `nloop = 0`: a word reached then is a tag (R161, R164). Safe. -/
  | noTagInProgress
  deriving DecidableEq, Repr

/-- The outcomes of a step of this machine. -/
abbrev Result := Host.Outcome State Fault Refusal

/-! ### Reset -/

/-- The state after hardware reset (R37, R330) of a machine with these parameters: nothing is pending, nothing runs, and
ring and mirror list nothing. -/
def State.resetWith (cfg : Params) : State :=
  { writePos := 0
    readPos := 0
    resv := none
    paths := GifPaths.zero
    busy := false
    wakePending := false
    vsyncQueued := 0
    restartLock := .free
    tallyWords := 0
    tallyCmds := 0
    p3Progress := false
    session := .closed
    cstate := .off
    fault := none
    unkCmdSeen := false
    ring := []
    mirror := []
    backendTrace := []
    sflTrace := []
    periphTrace := []
    port := []
    pphase := .idle
    pSignal := false
    cphase := .top
    replies := []
    cfg := cfg
    endlessCall := false
    turn := .p
    moves := 0
    draws := 0 }

/-- The state after hardware reset, with the parameters of `Config.conventional` (DESIGN CHOICE, log entry 1). -/
def State.reset : State := State.resetWith Config.conventional

end Sys2Proof.Machine
end

