-- ==== Sys2Proof/Machine/Ops.lean ====
section
/-! DEFINITION. The named operations: memory cells, ring slots, mirror bytes, the cursors, the traces, raising a fault,
and the wrappers that say when an agent has a step. Every rule of the block writes state through these. -/

namespace Sys2Proof.Machine

/-! ### Memory cells -/

/-- The value of a cell, `none` where nothing is listed. -/
def Memory.read {α : Type} (m : Memory α) (a : Nat) : Option α :=
  match m with
  | [] => none
  | (b, x) :: rest => if a = b then some x else Memory.read rest a

/-- The memory with one cell set, addresses kept rising. -/
def Memory.write {α : Type} (m : Memory α) (a : Nat) (v : α) : Memory α :=
  match m with
  | [] => [(a, v)]
  | (b, x) :: rest =>
    if a < b then (a, v) :: (b, x) :: rest
    else if a = b then (a, v) :: rest
    else (b, x) :: Memory.write rest a v

/-- Consecutive cells set from `a` on. -/
def Memory.writeSpan {α : Type} (m : Memory α) (a : Nat) (vs : List α) : Memory α :=
  match vs with
  | [] => m
  | v :: rest => Memory.writeSpan (Memory.write m a v) (a + 1) rest

/-- Consecutive cells from `a` on, `none` if one of them has no value. -/
def Memory.readSpan {α : Type} (m : Memory α) (a : Nat) (n : Nat) : Option (List α) :=
  match n with
  | 0 => some []
  | k + 1 =>
    match Memory.read m a with
    | none => none
    | some x => (Memory.readSpan m (a + 1) k).map (x :: ·)

/-- The first cell from `a` on, among `n`, that has no value; `a + n` if there is none. -/
def Memory.firstUnwritten {α : Type} (m : Memory α) (a : Nat) (n : Nat) : Nat :=
  match n with
  | 0 => a
  | k + 1 =>
    match Memory.read m a with
    | none => a
    | some _ => Memory.firstUnwritten m (a + 1) k

/-- The canonical form: addresses strictly rising. -/
def Memory.wf {α : Type} (m : Memory α) : Bool :=
  match m with
  | [] => true
  | [_] => true
  | (a, _) :: (b, x) :: rest => decide (a < b) && Memory.wf ((b, x) :: rest)

/-- Every listed address lies below a bound. -/
def Memory.below {α : Type} (m : Memory α) (bound : Nat) : Bool := m.all fun c => decide (c.1 < bound)

/-! ### The ring (20_memory.md R60 to R62) -/

/-- `ring[i] <- w`. -/
def ringWrite (i : Nat) (w : Word) (s : State) : State := { s with ring := Memory.write s.ring i w }

/-- `ring[i], ring[i + 1], ... <- ws`. -/
def ringWriteSpan (i : Nat) (ws : List Word) (s : State) : State := { s with ring := Memory.writeSpan s.ring i ws }

/-- `x & MASK`, which is `x mod N` (00_scope.md R9). -/
def State.wrap (s : State) (x : Nat) : Nat := x % s.capacity

/-! ### The mirror region (R63, R66) -/

/-- The low `n` bytes of a value, least significant first (R63, R66). -/
def leBytes (n : Nat) (v : W64) : List Byte := (List.range n).map fun k => v.extractLsb' (8 * k) 8

/-- The value whose bytes these are, least significant first. -/
def ofLeBytes : List Byte → W64
  | [] => 0
  | b :: bs => (ofLeBytes bs <<< 8) ||| b.setWidth 64

/-- `MemWrite(addr, n, v)` (00_scope.md R11, R63). -/
def memWrite (addr n : Nat) (v : W64) (s : State) : State :=
  { s with mirror := Memory.writeSpan s.mirror addr (leBytes n v) }

/-- `MemRead(addr, n)` (00_scope.md R11); `none` where a byte is unspecified. No rule of the block reads the mirror (R63). -/
def memRead (addr n : Nat) (s : State) : Option W64 := (Memory.readSpan s.mirror addr n).map ofLeBytes

/-! ### Traces (10_state.md R35) -/

/-- `emit backend <call>`. -/
def emitBackend (c : BackendCall) (s : State) : State := { s with backendTrace := s.backendTrace ++ [c] }

/-- `emit periph <hook>`. -/
def emitPeriph (h : Periph) (s : State) : State := { s with periphTrace := s.periphTrace ++ [h] }

/-- `notify(k, w0, w1)` (41_gifpath.md R173). -/
def notify (n : Notification) (s : State) : State := { s with sflTrace := s.sflTrace ++ [n] }

/-! ### Faults (60_exceptions.md R290 to R298)

Taking an exception is `raise`. There is no return from one: no operation clears a fault (R298, R331). -/

/-- The 4-bit code of a fault (R290). -/
def ErrCode.number : ErrCode → BitVec 4
  | .errInit => 1
  | .errOversize => 2
  | .errOvertake => 3
  | .errUnknownCmd => 4
  | .errApi => 5
  | .errMemwrite => 6

/-- `raise E(info)` by agent `a`, one atomic step: the first fault is recorded (R291), and a fault of C's own also sets
`cstate <- Halted` (R292). The rule that raised it does nothing more. -/
def raise (a : Agent) (code : ErrCode) (info : W64) (s : State) : Result :=
  .next
    { s with
      fault := s.fault.or (some { code := code, agent := a, info := info })
      cstate := match a with | .p => s.cstate | .c => .halted }

/-- The info of ERR_OVERSIZE: `S`, saturated at `2^64 - 1` (R290). -/
def saturate64 (n : Nat) : W64 := BitVec.ofNat 64 (min n (2 ^ 64 - 1))

/-- The info of ERR_API: the op code in bits 3:0 and, for a refused command or a bad path, that value in bits 63:32
(R290; log entry 17). -/
def apiInfo (op : BitVec 4) (value : W32) : W64 := pair64 value (op.setWidth 32)

/-- No step of a dead block (R292); otherwise the step. -/
def alive (s : State) (body : Result) : Result :=
  match s.fault with
  | some _ => .fault .deadBlock
  | none => body

/-! ### Cursors -/

/-- `store_release(write_pos, v)` (R21). -/
def storeWritePos (v : Nat) (s : State) : State := { s with writePos := v }

/-- `advance(k)`: `read_pos <- (read_pos + k) & MASK` (43_consumer.md R248). -/
def advance (k : Nat) (s : State) : State := { s with readPos := s.wrap (s.readPos + k) }

/-! ### Phases, replies and the choice of the next agent -/

/-- P's next atomic step. -/
def toPPhase (p : PPhase) (s : State) : State := { s with pphase := p }

/-- C's next atomic step. -/
def toCPhase (c : CPhase) (s : State) : State := { s with cphase := c }

/-- A failed guard evaluation: the next step of P is `signal_wake()` (40_ring.md R139). -/
def guardFailed (s : State) : State := { s with pSignal := true }

/-- The end of a host operation: its result is returned and the port is free for the next (30_encoding.md R113). -/
def retire (r : Reply) (s : State) : State :=
  { s with pphase := .idle, port := s.port.tail, replies := s.replies ++ [r] }

/-- The ring commands whose dispatch calls the backend (43_consumer.md R242). -/
def commandCalls (i : Instr) : Bool :=
  match i with
  | .p1 _ => true
  | .p2 _ => true
  | .p3 _ => true
  | .vsync _ => true
  | .softreset _ => true
  | .reset => true
  | .writecsr _ => true
  | .modechange _ _ => true
  | .freeze _ _ => true
  | .quit => true
  | _ => false

/-- C's last step was a call on the backend or a peripheral hook: its next step comes when that has returned (R242, R249,
R261; a command that calls nothing comes to its advance without one). -/
def State.afterCall (s : State) : Bool :=
  match s.cphase with
  | .vsyncCount => true
  | .vsyncHookB => true
  | .quitHalt => true
  | .advance _ => (Memory.read s.ring s.readPos).any fun h => commandCalls (decodeHeader h)
  | .top => false
  | .leaving => false
  | .dispatch => false
  | .vsyncHookA => false
  | .restartStore => false
  | .restartRelease => false

/-- C has just made a call, and it is one that never returns: a draw (93_implementation_defined.md U11; log entry 20). -/
def State.callHangs (s : State) : Bool :=
  decide (s.turn = .c) && s.afterCall && !Config.drawCallReturns s.moves

/-- The end of a move: whether C is left inside a call for ever, and which agent moves next, by the schedule, asked anew
after every step (00_scope.md R3; log entries 2 and 20). -/
def reschedule (s : State) : State :=
  { s with
    endlessCall := s.endlessCall || s.callHangs
    turn := if Config.drawProducerMoves s.moves then .p else .c
    moves := s.moves + 1 }

/-- An outcome whose next state is changed by `f`; faults and refusals stand. -/
def onNext (f : State → State) (r : Result) : Result :=
  match r with
  | .next s => .next (f s)
  | .fault e => .fault e
  | .refused e => .refused e

end Sys2Proof.Machine
end

