-- ==== Sys2Proof/Machine/Flags.lean ====
section
/-! DEFINITION. The flags, the counters and the lock (10_state.md R26 to R30): every rule that sets one is here. The block
has no arithmetic flags. -/

namespace Sys2Proof.Machine

/-- `signal_wake()` (40_ring.md R139): the event is set and both tallies are cleared. -/
def signalWake (s : State) : State := { s with wakePending := true, tallyWords := 0, tallyCmds := 0 }

/-- The tallies after a commit of `size` slots (R138). -/
def tally (size : Nat) (s : State) : State :=
  { s with tallyCmds := s.tallyCmds + 1, tallyWords := s.tallyWords + size }

/-- A threshold of the wake decision is reached (R138: counted in words and commits, compared with `>=`). -/
def thresholdReached (s : State) : Bool :=
  decide (s.cfg.wakeWords ≤ s.tallyWords) || decide (s.cfg.wakeCmds ≤ s.tallyCmds)

/-- The wake part of a commit when P reads `b` as `busy` (R138): signal only if the consumer is read idle and a threshold
is reached. -/
def wakeWith (b : Bool) (size : Nat) (s : State) : State :=
  if b = false ∧ thresholdReached (tally size s) = true then signalWake (tally size s) else tally size s

/-- The wake part of a commit. P's read of `busy` is a free draw (20_memory.md R75; log entry 3). -/
def wakeDecide (size : Nat) (s : State) : State :=
  { wakeWith (Config.drawBusy s.draws) size s with draws := s.draws + 1 }

/-- C takes the wake event: one atomic step that clears it, sets `busy` and begins a drain (43_consumer.md R240, R241). -/
def takeWake (s : State) : State :=
  { s with wakePending := false, busy := true, cstate := .draining, cphase := .top }

/-- The end of a drain: `busy <- 0` and back to the wait (R240, R241). -/
def endDrain (s : State) : State := { s with busy := false, cstate := .waiting, cphase := .top }

/-- C halts on QUIT (R261). -/
def quitHalt (s : State) : State := { s with busy := false, cstate := .halted, cphase := .top }

/-- `vsync_queued <- vsync_queued + 1` (42_producer.md R209). -/
def vsyncIncrement (s : State) : State := { s with vsyncQueued := s.vsyncQueued + 1 }

/-- `vsync_queued <- vsync_queued - 1` (43_consumer.md R249), in the counter's 4 bits. -/
def vsyncDecrement (s : State) : State := { s with vsyncQueued := s.vsyncQueued - 1 }

/-- `restart_lock <- l` (R29). An acquire calls this only when the lock is Free. -/
def setLock (l : Lock) (s : State) : State := { s with restartLock := l }

end Sys2Proof.Machine
end

