-- ==== Sys2Proof/Machine/Operands.lean ====
section
/-! DEFINITION. Operand forms: the GIFPath record a path names, the register count and selectors of a tag
(30_encoding.md R104, R105), the unit of a REGLIST word a half names (R107), the path a host operation names, and the
code that an agent has before it when it fetches. -/

namespace Sys2Proof.Machine

/-- `G[p]` (10_state.md R24). -/
def GifPaths.get (g : GifPaths) (p : PathId) : GifPath := g[p.val]

/-- `G[p] <- r`. -/
def GifPaths.set (g : GifPaths) (p : PathId) (r : GifPath) : GifPaths := Vector.set g p.val r

/-- `G[p]` of the state. -/
def State.path (s : State) (p : PathId) : GifPath := GifPaths.get s.paths p

/-- `G[p] <- r` in the state. -/
def setPath (p : PathId) (r : GifPath) (s : State) : State := { s with paths := GifPaths.set s.paths p r }

/-- A path's index (30_encoding.md R94). -/
def pathIndex (p : PathId) : Nat := p.val

/-- The path a `path` argument names; none from NPATHS on (42_producer.md R204). -/
def pathOfArg (a : W32) : Option PathId := if h : a.toNat < Config.npaths then some ⟨a.toNat, h⟩ else none

/-- `numregs(tag)`: 16 when `nreg = 0` (R104). -/
def numregs (t : GifTag) : Nat := if t.nreg = 0 then Config.selectors else t.nreg.toNat

/-- The tag a tag word of FLG `flg` loads (41_gifpath.md R162). -/
def loadedTag (flg : BitVec 2) (t : TagFields) : GifTag :=
  { nloop := t.nloop, eop := t.eop, flag := flg, nreg := t.nreg, regs0 := t.regs0, regs1 := t.regs1 }

/-- Selector `j` of a tag, zero-extended to 8 bits: the nibble at bit `4j` of REGS (R105). -/
def tagSelector (t : GifTag) (j : Nat) : Byte := ((pair64 t.regs1 t.regs0).extractLsb' (4 * j) 4).setWidth 8

/-- `G[p].regs[G[p].curreg]`, the selector of the next unit; a free value at an index of 16 or more (log entry 6). -/
def currentSelector (g : GifPath) : Byte :=
  if h : g.curreg.toNat < Config.selectors then g.regs[g.curreg.toNat] else Config.selectorBeyond g

/-- The unit of a REGLIST word: the lower half first (R107). -/
def reglistUnit (h : Half) (w : Word) : ReglistUnit :=
  w.extractLsb' (Config.reglistUnitBits * h.val) Config.reglistUnitBits

/-- The unit of a PACKED word (R106). -/
def packedUnit (w : Word) : PackedUnit := w.extractLsb' 0 Config.packedUnitBits

/-- A PACKED unit is the whole word. -/
@[simp] theorem packedUnit_eq (w : Word) : packedUnit w = w := by
  simp [packedUnit]

/-- What the parser has before it at the word `w`: a tag exactly when `nloop = 0`, otherwise data in the running tag's
format (30_encoding.md R98, R103; 41_gifpath.md R160). -/
def gifCode (g : GifPath) (h : Half) (w : Word) : Code :=
  if g.tag.nloop = 0 then .tag w
  else
    match g.tag.flag.toNat with
    | 0 => .packed (currentSelector g) (packedUnit w)
    | 1 => .reglist (currentSelector g) (reglistUnit h w)
    | 2 => .image w
    | _ => .image3 w

/-- The header of a data packet: the path's command and the payload size (42_producer.md R204). -/
def dataHeader (p : PathId) (committed : Nat) : Word :=
  headerWord (BitVec.ofNat 32 (pathIndex p)) (BitVec.ofNat 32 committed) 0 0

/-- The RESTART marker (40_ring.md R136). -/
def restartHeader : Word := headerWord 14 0 0 0

end Sys2Proof.Machine
end

