-- ==== Sys2Proof/Machine/Consumer.lean ====
section
/-! DEFINITION. The consumer C: the meanings of the ring commands (43_consumer.md R243 to R264) as C's atomic steps (R265),
and the steps of its loop that are no command (R240, R241). `exec` of a command is C's dispatch step while C stands at a
fetched header, and C's next step in the command it is in the middle of after that. -/

namespace Sys2Proof.Machine

/-- C's next atomic step in the middle of a command: the advance that ends it (R248), the rest of VSYNC (R249), of
RESTART under its lock (R246), of QUIT (R261). -/
def consumerContinue (s : State) : Result :=
  match s.cphase with
  | .advance k => .next (toCPhase .top (advance k s))
  | .vsyncCount => .next (toCPhase .vsyncHookA (vsyncDecrement s))
  | .vsyncHookA => .next (toCPhase .vsyncHookB (emitPeriph .a s))
  | .vsyncHookB => .next (toCPhase (.advance 1) (emitPeriph .b s))
  | .restartStore => .next (toCPhase .restartRelease { s with readPos := 0 })
  | .restartRelease => .next (toCPhase .top (setLock .free s))
  | .quitHalt => .next (quitHalt s)
  | .top => .refused .consumerNotDispatching
  | .leaving => .refused .consumerNotDispatching
  | .dispatch => .refused .consumerNotDispatching

/-- A ring command: C has a step for it only while it drains (R240); `body` is its dispatch. -/
def ringCommand (s : State) (body : Result) : Result :=
  alive s <|
    match s.cstate with
    | .draining =>
      match s.cphase with
      | .dispatch => body
      | _ => consumerContinue s
    | _ => .refused .consumerNotDraining

/-- The dispatch of a command that makes one backend call and is one slot long (R242, R248). -/
def forward (c : BackendCall) (s : State) : Result := .next (toCPhase (.advance 1) (emitBackend c s))

/-- `check_span(size)`: the packet does not run past the top of the ring (R262); the sum is of naturals. -/
def spanFits (size : Nat) (s : State) : Bool := decide (s.readPos + 1 + size ≤ s.capacity)

/-- The dispatch of a path transfer (R243 to R245): check, read the payload, hand it to the backend, then advance by
`1 + size`. -/
def transfer (p : PathId) (size : W32) (s : State) : Result :=
  if spanFits size.toNat s then
    match Memory.readSpan s.ring (s.readPos + 1) size.toNat with
    | some words => .next (toCPhase (.advance (1 + size.toNat)) (emitBackend (.transfer p words size) s))
    | none => .fault (.unwrittenSlot (Memory.firstUnwritten s.ring (s.readPos + 1) size.toNat))
  else raise .c .errOvertake (BitVec.ofNat 64 s.readPos) s

/-- `check_mem(off, n)` passes: aligned and in range (R257); the sum is of naturals. -/
def memFits (off n : Nat) (s : State) : Bool := decide (off % n = 0) && decide (off + n ≤ s.cfg.mirrorBytes)

/-- The dispatch of a memory write of `n` bytes (R253 to R257). -/
def memoryWrite (off : W32) (n : Nat) (v : W64) (s : State) : Result :=
  if memFits off.toNat n s then .next (toCPhase (.advance 1) (memWrite off.toNat n v s))
  else raise .c .errMemwrite (off.setWidth 64) s

/-- P1 (R243). -/
def execP1 (size : W32) (s : State) : Result := ringCommand s (transfer .p0 size s)

/-- P2 (R244). -/
def execP2 (size : W32) (s : State) : Result := ringCommand s (transfer .p1 size s)

/-- P3 (R245). -/
def execP3 (size : W32) (s : State) : Result := ringCommand s (transfer .p2 size s)

/-- VSYNC (R249): the backend call; the decrement, the two hooks and the advance follow. -/
def execVsync (fieldflag : W32) (s : State) : Result :=
  ringCommand s (.next (toCPhase .vsyncCount (emitBackend (.vsync fieldflag) s)))

/-- SOFTRESET (R250). C does not touch the GIFPath records. -/
def execSoftreset (pathMask : W32) (s : State) : Result := ringCommand s (forward (.softReset pathMask) s)

/-- RESET (R251). -/
def execReset (s : State) : Result := ringCommand s (forward .reset s)

/-- WRITECSR (R252). -/
def execWritecsr (value : W32) (s : State) : Result := ringCommand s (forward (.writeControlRegister value) s)

/-- MEMWRITE8 (R253). -/
def execMemwrite8 (offset : W32) (value : BitVec Config.memWriteBits.w8) (s : State) : Result :=
  ringCommand s (memoryWrite offset Config.memWriteBytes.w8 (value.setWidth 64) s)

/-- MEMWRITE16 (R254). -/
def execMemwrite16 (offset : W32) (value : BitVec Config.memWriteBits.w16) (s : State) : Result :=
  ringCommand s (memoryWrite offset Config.memWriteBytes.w16 (value.setWidth 64) s)

/-- MEMWRITE32 (R255). -/
def execMemwrite32 (offset : W32) (value : BitVec Config.memWriteBits.w32) (s : State) : Result :=
  ringCommand s (memoryWrite offset Config.memWriteBytes.w32 (value.setWidth 64) s)

/-- MEMWRITE64 (R256). -/
def execMemwrite64 (offset : W32) (value : BitVec Config.memWriteBits.w64) (s : State) : Result :=
  ringCommand s (memoryWrite offset Config.memWriteBytes.w64 (value.setWidth 64) s)

/-- MODECHANGE (R259): forwarded, no state of the block changes. -/
def execModechange (a b : W32) (s : State) : Result := ringCommand s (forward (.modeChange a b) s)

/-- FREEZE (R258): the pointer is opaque. -/
def execFreeze (mode : W32) (ptr : W64) (s : State) : Result := ringCommand s (forward (.freeze mode ptr) s)

/-- RECORD (R260): recognised, no effect, skipped. -/
def execRecord (s : State) : Result := ringCommand s (.next (toCPhase (.advance 1) s))

/-- RESTART (R246): acquire the lock, with a step only when it is Free; the store and the release follow. -/
def execRestart (s : State) : Result :=
  ringCommand s <|
    match s.restartLock with
    | .free => .next (toCPhase .restartStore (setLock .heldC s))
    | _ => .next s

/-- QUIT (R261): the backend's close(); the halt follows; `read_pos` stays. -/
def execQuit (s : State) : Result := ringCommand s (.next (toCPhase .quitHalt (emitBackend .close s)))

/-- UNRECOGNISED (R264): fatal when STRICT, otherwise logged and skipped. -/
def execUnrecognised (command : W32) (s : State) : Result :=
  ringCommand s <|
    if s.cfg.strict then raise .c .errUnknownCmd (command.setWidth 64) s
    else .next (toCPhase (.advance 1) { s with unkCmdSeen := true })

/-! ### The loop around the commands -/

/-- C's step while it waits: only when the wake event is set (R240, R241, R309). -/
def consumerWait (s : State) : Result := if s.wakePending then .next (takeWake s) else .next s

/-- The test at the top of the inner loop: one acquire load of `write_pos` (R241). -/
def consumerTest (s : State) : Result :=
  if s.readPos = s.writePos then .next (toCPhase .leaving s) else .next (toCPhase .dispatch s)

/-- The instruction at `read_pos` (R247); `none` where nothing has written the slot. -/
def consumerFetch (s : State) : Option Instr := (Memory.read s.ring s.readPos).map decodeHeader

end Sys2Proof.Machine
end

