-- ==== Sys2Proof/Machine/Codec.lean ====
section
/-! DEFINITION. The savestate image (44_savestate.md R280 to R284). The format is the OPEN parameter `SNAPSHOT_CODEC`,
of which the spec fixes the round trip alone; it is an uninterpreted constant here, so that a claim holds for every
format. The spec's 108-byte default is defined too: it shows that a codec exists, and its bytes can be checked. -/

namespace Sys2Proof.Machine

/-! ### The default format of R283: the records of 36 bytes each, path 0 first -/

/-- Bytes 0 to 15 of a record: the tag as a tag word with bits 57:16 zero. -/
def recordTagWord (t : GifTag) : Word :=
  tagWord t.flag { nloop := t.nloop, eop := t.eop, pad := 0, nreg := t.nreg, regs0 := t.regs0, regs1 := t.regs1 }

/-- The 36 bytes of one record. -/
def recordBytes (g : GifPath) : List Byte :=
  bytesOfWord (recordTagWord g.tag) ++ g.regs.toList ++ [g.curreg] ++ [0, 0, 0]

/-- One record of 36 bytes; bits 57:16 of the tag word and bytes 33 to 35 are ignored, and a missing byte reads as
zero. -/
def recordOfBytes (bs : List Byte) : GifPath :=
  let w : Word := BitVec.ofNat Config.wordBits (natOfBytes (bs.take Config.wordBytes))
  { tag := loadedTag (tagFlg w) (tagFields w)
    regs := Vector.ofFn fun j : Fin Config.selectors => bs.getD (Config.wordBytes + j.val) 0
    curreg := bs.getD (Config.wordBytes + Config.selectors) 0 }

/-- The 108-byte image (R283). -/
def defaultEncode (g : GifPaths) : List Byte := g.toList.flatMap recordBytes

/-- The records of a 108-byte image (R283). -/
def defaultDecode (bs : List Byte) : GifPaths :=
  Vector.ofFn fun p : PathId => recordOfBytes ((bs.drop (36 * p.val)).take 36)

/-! ### The round trip of the default format -/

theorem natOfBytes_range' (w : Word) (n a : Nat) :
    natOfBytes ((List.range' a n).map fun k => w.extractLsb' (8 * k) 8) = w.toNat / 2 ^ (8 * a) % 2 ^ (8 * n) := by
  induction n generalizing a with
  | zero => simp [natOfBytes, Nat.mod_one]
  | succ n ih =>
    simp only [List.range'_succ, List.map_cons, natOfBytes, ih, BitVec.extractLsb'_toNat, Nat.shiftRight_eq_div_pow]
    rw [show 8 * (n + 1) = 8 + 8 * n by ring, Nat.pow_add 2 8, Nat.mod_mul, Nat.div_div_eq_div_mul, ← Nat.pow_add,
      show 8 * (a + 1) = 8 * a + 8 by ring]

theorem natOfBytes_bytesOfWord (w : Word) : natOfBytes (bytesOfWord w) = w.toNat := by
  rw [bytesOfWord, List.range_eq_range', natOfBytes_range', Nat.mul_zero, Nat.pow_zero, Nat.div_one]
  exact Nat.mod_eq_of_lt w.isLt

theorem recordBytes_length (g : GifPath) : (recordBytes g).length = 36 := by
  simp [recordBytes, bytesOfWord]

theorem recordOfBytes_recordBytes (g : GifPath) : recordOfBytes (recordBytes g) = g := by
  obtain ⟨⟨nloop, eop, flag, nreg, regs0, regs1⟩, regs, curreg⟩ := g
  have htake : (recordBytes ⟨⟨nloop, eop, flag, nreg, regs0, regs1⟩, regs, curreg⟩).take Config.wordBytes =
      bytesOfWord (recordTagWord ⟨nloop, eop, flag, nreg, regs0, regs1⟩) := by
    simp [recordBytes, bytesOfWord]
  have hlen (w : Word) : (bytesOfWord w).length = 16 := by simp [bytesOfWord]
  rw [recordOfBytes, htake, natOfBytes_bytesOfWord]
  simp only [BitVec.ofNat_toNat, BitVec.setWidth_eq, recordTagWord, tagFlg_tagWord, tagFields_tagWord, loadedTag]
  congr 1
  · ext j hj
    simp [recordBytes, hlen, List.getElem?_append]
  · simp [recordBytes, hlen]

/-- The record at index `k` of a list of records laid out one after the other. -/
theorem take_drop_flatMap_recordBytes (l : List GifPath) (k : Nat) (h : k < l.length) :
    ((l.flatMap recordBytes).drop (36 * k)).take 36 = recordBytes l[k] := by
  induction l generalizing k with
  | nil => simp at h
  | cons g l ih =>
    have hg := recordBytes_length g
    cases k with
    | zero => simp [hg]
    | succ k =>
      rw [List.flatMap_cons, show 36 * (k + 1) = 36 + 36 * k by ring, ← List.drop_drop, ← hg, List.drop_left, hg]
      exact ih k (by simpa using h)

theorem defaultDecode_defaultEncode (g : GifPaths) : defaultDecode (defaultEncode g) = g := by
  ext1 p hp
  simp only [defaultDecode, defaultEncode, Vector.getElem_ofFn]
  rw [take_drop_flatMap_recordBytes g.toList p (by simpa using hp), Vector.getElem_toList, recordOfBytes_recordBytes]

/-! ### The codec -/

/-- `SNAPSHOT_CODEC` (R7, R283): any `encode`, `decode` with the round trip. The default values are the spec's default
format; the uninterpreted constant below has none. -/
structure SnapshotCodec where
  encode : GifPaths → List Byte := defaultEncode
  decode : List Byte → GifPaths := defaultDecode
  roundTrip : ∀ g : GifPaths, decode (encode g) = g := by exact defaultDecode_defaultEncode
  deriving Inhabited

end Sys2Proof.Machine

namespace Sys2Proof.Config

/-- The codec of this machine, OPEN (R7). Log entry 5. -/
opaque snapshotCodec : Sys2Proof.Machine.SnapshotCodec

end Sys2Proof.Config
end

