-- ==== Sys2Proof/Machine/Parser.lean ====
section
/-! DEFINITION. The GIFPath parser: the rules of 41_gifpath.md on one record (R162 to R164, R171), the steps that the
parser takes inside PREPARE_DATA, one item at a time, and `parse`, the loop of R160 as one function. The instructions of
Machine/Gif.lean are built from the steps; `parse` is what a whole run of them comes to. -/

namespace Sys2Proof.Machine

/-! ### One record -/

/-- `fetch_tag(p, w)` on the record: the tag is loaded, `curreg` is 0, the first `numregs` selectors are unpacked and
the others keep their values (R162). -/
def fetchTag (flg : BitVec 2) (t : TagFields) (g : GifPath) : GifPath :=
  { tag := loadedTag flg t
    regs := Vector.ofFn fun j : Fin Config.selectors =>
      if j.val < numregs (loadedTag flg t) then tagSelector (loadedTag flg t) j.val else g.regs[j]
    curreg := 0 }

/-- The path-3 progress flag after a tag fetch: recomputed for path index 2 only (R163). -/
def progressAfter (p : PathId) (t : GifTag) (old : Bool) : Bool :=
  if p = .p2 then Config.p3Progress t old else old

/-- The result of `step_reg`: the record and `more` (R164). -/
structure RegStep where
  path : GifPath
  more : Bool
  deriving DecidableEq, Repr

/-- `step_reg(p)` (R164), in the 8 bits of `curreg` and the 15 of `nloop`. -/
def stepReg (g : GifPath) : RegStep :=
  if (g.curreg + 1).toNat = numregs g.tag then
    { path := { g with curreg := 0, tag := { g.tag with nloop := g.tag.nloop - 1 } }
      more := decide (g.tag.nloop - 1 ≠ 0) }
  else
    { path := { g with curreg := g.curreg + 1 }
      more := true }

/-- The size a tag declares, in units (R171). -/
def declaredUnits (t : GifTag) : Nat := t.nloop.toNat * numregs t

/-- The units that `rem` words hold: two a word in REGLIST (R171). -/
def availableUnits (t : GifTag) (rem : Nat) : Nat := if t.flag = 1 then rem * Config.reglistUnitsPerWord else rem

/-- The path-0 clipping test after a tag fetch with `rem` words left in the call (R171, held in one function as U14
asks). -/
def clips (p : PathId) (t : GifTag) (rem : Nat) : Bool :=
  decide (p = .p0) && decide (availableUnits t rem < declaredUnits t)

/-- The tag of a clipped record: only `nloop` is reset (R171). -/
def abortTag (g : GifPath) : GifPath := { g with tag := { g.tag with nloop := 0 } }

/-- The stop test after an item: end of packet (R170). -/
def endOfPacket (g : GifPath) : Bool := decide (g.tag.nloop = 0) && g.tag.eop

/-! ### The run inside PREPARE_DATA -/

/-- The run with its next word consumed. -/
def ParseRun.take (run : ParseRun) : ParseRun :=
  match run.rest with
  | [] => { run with half := .lower }
  | w :: ws => { run with taken := run.taken ++ [w], rest := ws, half := .lower }

/-- The parser stops: what it consumed is the payload that PREPARE_DATA reserves space for (R172, R204). -/
def endParse (run : ParseRun) (s : State) : State := toPPhase (.reserve { path := run.path, payload := run.taken }) s

/-- The parser goes on with this run, unless the input is exhausted or the packet has ended (R160, R170). -/
def continueParse (run : ParseRun) (s : State) : State :=
  if run.rest.isEmpty || endOfPacket (s.path run.path) then endParse run s else toPPhase (.parsing run) s

/-- An item of the parser: it has a step only while PREPARE_DATA is parsing. -/
def parserItem (s : State) (body : ParseRun → Result) : Result :=
  alive s <|
    match s.pphase with
    | .parsing run => body run
    | _ => .refused .noParserRun

/-- A data item: it belongs to the tag in progress (R161, R164). -/
def dataItem (s : State) (body : ParseRun → Result) : Result :=
  parserItem s fun run =>
    if (s.path run.path).tag.nloop = 0 then .refused .noTagInProgress else body run

/-- A tag word of FLG `flg`: R162, R163, then the clipping test (R171), which on a clip ends the call with the tag word
itself unconsumed. -/
def tagItem (flg : BitVec 2) (t : TagFields) (s : State) : Result :=
  parserItem s fun run =>
    let g := fetchTag flg t (s.path run.path)
    let s1 := { s with p3Progress := progressAfter run.path g.tag s.p3Progress }
    if clips run.path g.tag (run.rest.length - 1) then .next (endParse run (setPath run.path (abortTag g) s1))
    else .next (continueParse run.take (setPath run.path g s1))

/-- What a unit raises, if anything (R166, R167, R173). -/
def raiseIf (k : Option Sfl) (w0 w1 : W32) (s : State) : State :=
  match k with
  | none => s
  | some k => notify { kind := k, w0 := w0, w1 := w1 } s

/-- A PACKED unit: one word, one register step (R165). -/
def packedItem (k : Option Sfl) (w0 w1 : W32) (s : State) : Result :=
  dataItem s fun run =>
    .next (continueParse run.take (setPath run.path (stepReg (s.path run.path)).path (raiseIf k w0 w1 s)))

/-- The run after a REGLIST unit: the upper half follows the lower one in the same word; a tag that ends on a lower half
takes the upper half with it as padding (R167, R168). -/
def ParseRun.afterUnit (run : ParseRun) (more : Bool) : ParseRun :=
  if h : run.half.val + 1 < Config.reglistUnitsPerWord ∧ more = true then { run with half := ⟨run.half.val + 1, h.1⟩ }
  else run.take

/-- A REGLIST unit: half a word, one register step (R167). -/
def reglistItem (k : Option Sfl) (u : ReglistUnit) (s : State) : Result :=
  dataItem s fun run =>
    .next (continueParse (run.afterUnit (stepReg (s.path run.path)).more)
      (setPath run.path (stepReg (s.path run.path)).path (raiseIf k (u.extractLsb' 0 32) (u.extractLsb' 32 32) s)))

/-- The record after `k` words of an IMAGE run (R169). -/
def imageWords (k : Nat) (g : GifPath) : GifPath :=
  { g with tag := { g.tag with nloop := g.tag.nloop - BitVec.ofNat 15 k } }

/-- One word of an IMAGE run: no register interpretation (R169). -/
def imageItem (s : State) : Result :=
  dataItem s fun run => .next (continueParse run.take (setPath run.path (imageWords 1 (s.path run.path)) s))

/-- The start of the parser's run in PREPARE_DATA: with no words it returns at once (R176). -/
def startParse (p : PathId) (data : List Word) (s : State) : State :=
  if data.isEmpty then endParse { path := p, taken := [], rest := [], half := .lower } s
  else toPPhase (.parsing { path := p, taken := [], rest := data, half := .lower }) s

/-! ### `parse`, the loop of R160 as one function -/

/-- What the parser reads and writes: the record, the progress flag and the notifications, and, as result, the words it
leaves (R160, R172). -/
structure ParseState where
  path : GifPath
  p3 : Bool
  sfl : List Notification
  left : List Word
  deriving DecidableEq, Repr

/-- The notification of a PACKED word: only under selector 0xE and only for an index in the range (R165, R166). -/
def packedNotes (g : GifPath) (u : PackedUnit) : List Notification :=
  if currentSelector g = Config.adSel then
    match sflOf Config.adSflBase (unitIndex u).toNat with
    | some k => [{ kind := k, w0 := unitWord0 u, w1 := unitWord1 u }]
    | none => []
  else []

/-- The notification of a REGLIST unit (R167). -/
def reglistNotes (rl : Option (Fin 14)) (g : GifPath) (u : ReglistUnit) : List Notification :=
  match reglistSfl rl (currentSelector g) with
  | some k => [{ kind := k, w0 := u.extractLsb' 0 32, w1 := u.extractLsb' 32 32 }]
  | none => []

/-- The units of a word, the lower half first (R107). -/
def halves : List Half := List.finRange Config.reglistUnitsPerWord

/-- The units `hs` of one REGLIST word, until the tag ends: the last register step and the notifications (R167). -/
def reglistWord (rl : Option (Fin 14)) (w : Word) : List Half → RegStep → List Notification → RegStep × List Notification
  | [], r, sfl => (r, sfl)
  | h :: hs, r, sfl =>
    if r.more then reglistWord rl w hs (stepReg r.path) (sfl ++ reglistNotes rl r.path (reglistUnit h w))
    else (r, sfl)

/-- `reglist_run` (R167, R168): units in halves, lower first, until the tag ends or the words do. -/
def reglistRun (rl : Option (Fin 14)) (g : GifPath) (p3 : Bool) (sfl : List Notification) : List Word → ParseState
  | [] => { path := g, p3 := p3, sfl := sfl, left := [] }
  | w :: ws =>
    let (r, sfl1) := reglistWord rl w halves { path := g, more := true } sfl
    if r.more then reglistRun rl r.path p3 sfl1 ws
    else { path := r.path, p3 := p3, sfl := sfl1, left := ws }

/-- `image_run` (R169): `min(remaining_words, nloop)` words. -/
def imageRun (g : GifPath) (p3 : Bool) (sfl : List Notification) (ws : List Word) : ParseState :=
  let len := min ws.length g.tag.nloop.toNat
  { path := imageWords len g, p3 := p3, sfl := sfl, left := ws.drop len }

/-- One iteration of the loop of R160 on a non-empty input `w :: ws`: the state after it, and whether the clip of R171
ended the call. -/
def parseIteration (rl : Option (Fin 14)) (p : PathId) (x : ParseState) (w : Word) (ws : List Word) : ParseState × Bool :=
  if x.path.tag.nloop = 0 then
    let g := fetchTag (tagFlg w) (tagFields w) x.path
    let p3 := progressAfter p g.tag x.p3
    if clips p g.tag ws.length then ({ path := abortTag g, p3 := p3, sfl := x.sfl, left := w :: ws }, true)
    else ({ path := g, p3 := p3, sfl := x.sfl, left := ws }, false)
  else
    match x.path.tag.flag.toNat with
    | 0 => ({ path := (stepReg x.path).path, p3 := x.p3, sfl := x.sfl ++ packedNotes x.path (packedUnit w), left := ws }, false)
    | 1 => (reglistRun rl x.path x.p3 x.sfl (w :: ws), false)
    | _ => (imageRun x.path x.p3 x.sfl (w :: ws), false)

/-- The loop of R160 with the stop rule of R170; every iteration but a clip consumes a word, so as many rounds as there
are words suffice. -/
def parseLoop (rl : Option (Fin 14)) (p : PathId) : Nat → ParseState → ParseState
  | 0, x => x
  | n + 1, x =>
    match x.left with
    | [] => x
    | w :: ws =>
      match parseIteration rl p x w ws with
      | (y, true) => y
      | (y, false) => if endOfPacket y.path then y else parseLoop rl p n y

/-- `parse(p, data)` (R160): `left.length` is its result, the number of words not consumed (R172). -/
def parse (rl : Option (Fin 14)) (p : PathId) (g : GifPath) (p3 : Bool) (data : List Word) : ParseState :=
  parseLoop rl p data.length { path := g, p3 := p3, sfl := [], left := data }

end Sys2Proof.Machine
end

