-- ==== Sys2Proof/Machine/Gif.lean ====
section
/-! DEFINITION. The meanings of the GIF words: tags, PACKED units, A+D units and REGLIST units (41_gifpath.md R160 to
R173). Each is one item of the parser's run inside PREPARE_DATA. -/

namespace Sys2Proof.Machine

/-- GIFTAG.PACKED: the tag load of a tag with FLG 0 (R162, R171). -/
def execGiftagPacked (t : TagFields) (s : State) : Result := tagItem 0 t s

/-- GIFTAG.REGLIST: the tag load of a tag with FLG 1 (R162, R171), or one unit of its run that raises nothing (R167). -/
def execGiftagReglist (x : ReglistItem) (s : State) : Result :=
  match x with
  | .tag t => tagItem 1 t s
  | .unit _ u => reglistItem none u s

/-- GIFTAG.IMAGE: the tag load of a tag with FLG 2 (R162, R171), or one word of its run (R169). -/
def execGiftagImage (x : ImageItem) (s : State) : Result :=
  match x with
  | .tag t => tagItem 2 t s
  | .data _ => imageItem s

/-- GIFTAG.IMAGE3: the same for the second IMAGE code, FLG 3 (R103). -/
def execGiftagImage3 (x : ImageItem) (s : State) : Result :=
  match x with
  | .tag t => tagItem 3 t s
  | .data _ => imageItem s

/-- PACKED.AD: an A+D unit whose index is outside the range raises nothing (R166). -/
def execPackedAd (_u : PackedUnit) (s : State) : Result := packedItem none 0 0 s

/-- PACKED.OTHER: the unit is opaque to the block (R106, R165). -/
def execPackedOther (_sel : Byte) (_u : PackedUnit) (s : State) : Result := packedItem none 0 0 s

/-- AD.SIGNAL: an A+D unit of index AD_SFL_BASE (R166). -/
def execAdSignal (w0 w1 : W32) (_ignored : BitVec Config.adIgnoredBits) (s : State) : Result := packedItem (some .signal) w0 w1 s

/-- AD.FINISH: an A+D unit of index AD_SFL_BASE + 1 (R166). -/
def execAdFinish (w0 w1 : W32) (_ignored : BitVec Config.adIgnoredBits) (s : State) : Result := packedItem (some .finish) w0 w1 s

/-- AD.LABEL: an A+D unit of index AD_SFL_BASE + 2 (R166). -/
def execAdLabel (w0 w1 : W32) (_ignored : BitVec Config.adIgnoredBits) (s : State) : Result := packedItem (some .label) w0 w1 s

/-- REGLIST.SIGNAL: a REGLIST unit whose selector is RL_SFL_BASE (R167). -/
def execReglistSignal (u : ReglistUnit) (s : State) : Result := reglistItem (some .signal) u s

/-- REGLIST.FINISH: a REGLIST unit whose selector is RL_SFL_BASE + 1 (R167). -/
def execReglistFinish (u : ReglistUnit) (s : State) : Result := reglistItem (some .finish) u s

/-- REGLIST.LABEL: a REGLIST unit whose selector is RL_SFL_BASE + 2 (R167). -/
def execReglistLabel (u : ReglistUnit) (s : State) : Result := reglistItem (some .label) u s

/-- The instruction the parser has before it: none once the input is exhausted. -/
def parserFetch (run : ParseRun) (s : State) : Option Instr :=
  match run.rest with
  | [] => none
  | w :: _ => some (decode s.cfg.rlSflBase (gifCode (s.path run.path) run.half w))

/-- The meaning of a GIF word; no other instruction is one. -/
def gifMeaning (i : Instr) (s : State) : Result :=
  match i with
  | .giftagPacked t => execGiftagPacked t s
  | .giftagReglist x => execGiftagReglist x s
  | .giftagImage x => execGiftagImage x s
  | .giftagImage3 x => execGiftagImage3 x s
  | .packedAd u => execPackedAd u s
  | .packedOther sel u => execPackedOther sel u s
  | .adSignal w0 w1 ignored => execAdSignal w0 w1 ignored s
  | .adFinish w0 w1 ignored => execAdFinish w0 w1 ignored s
  | .adLabel w0 w1 ignored => execAdLabel w0 w1 ignored s
  | .reglistSignal u => execReglistSignal u s
  | .reglistFinish u => execReglistFinish u s
  | .reglistLabel u => execReglistLabel u s
  | _ => .refused .noParserRun

/-- One step of the parser's run: the next item, or the end of the run once the input is exhausted (R160). -/
def parserStep (run : ParseRun) (s : State) : Result :=
  match parserFetch run s with
  | some i => gifMeaning i s
  | none => .next (endParse run s)

end Sys2Proof.Machine
end

