-- ==== Sys2Proof/Machine/Producer.lean ====
section
/-! DEFINITION. The ring primitives of 40_ring.md as P's atomic steps (R142): `reserve` with its three cases, the RESTART
sequence, `commit`, `enqueue_simple`, and what follows them in each host operation. `producerContinue` is P's next
atomic step in whatever it is in the middle of. -/

namespace Sys2Proof.Machine

/-! ### Guards (R132 to R135); `W` is `write_pos`, `R` is `read_pos` -/

/-- Case 1, contiguous fit: `(W >= R) or (W + S < R)` (R132). -/
def fitGuard (w r size : Nat) : Bool := decide (r ≤ w) || decide (w + size < r)

/-- Cases 2 and 3, wrap and exact fit: `(R == W) or (0 < R and R < W)` (R133, R134). -/
def wrapGuard (w r : Nat) : Bool := decide (r = w) || (decide (0 < r) && decide (r < w))

/-- The one-slot guard: `((W + 1) & MASK) != R` (R135). -/
def slotGuard (s : State) : Bool := decide (s.wrap (s.writePos + 1) ≠ s.readPos)

/-- What `reserve(S)` finds when it evaluates its guard (R131, R141). -/
inductive ReserveCase where
  /-- `S > N - 1`: ERR_OVERSIZE (R131) -/
  | oversize
  /-- the guard of the case that applies does not hold: wait -/
  | wait
  /-- the packet fits at `write_pos` (R132, R134) -/
  | place
  /-- the packet does not fit before the top: RESTART (R133) -/
  | restart
  deriving DecidableEq, Repr

/-- One evaluation of `reserve(S)`'s guard (R131 to R134, R141). `W + S` and `N` are naturals: nothing wraps (R144). -/
def reserveCase (capacity w r size : Nat) : ReserveCase :=
  if capacity - 1 < size then .oversize
  else if capacity < w + size then
    if wrapGuard w r then .restart else .wait
  else if w + size < capacity then
    if fitGuard w r size then .place else .wait
  else
    if wrapGuard w r then .place else .wait

/-! ### The steps -/

/-- PREPARE_DATA once its slots are reserved: header and payload are written, the reservation is pending, and the
committed size is the result (42_producer.md R204). -/
def fillPacket (pkt : Packet) (s : State) : State :=
  retire (.committed pkt.payload.length)
    { ringWriteSpan s.writePos (dataHeader pkt.path pkt.payload.length :: pkt.payload) s with
      resv := some { offset := s.writePos, size := pkt.payload.length + 1 } }

/-- One evaluation of the guard of `reserve(committed + 1)` for a parsed packet (R141, R204). -/
def reserveStep (pkt : Packet) (s : State) : Result :=
  match reserveCase s.capacity s.writePos s.readPos (pkt.payload.length + 1) with
  | .oversize => raise .p .errOversize (saturate64 (pkt.payload.length + 1)) s
  | .wait => .next (guardFailed s)
  | .place => .next (fillPacket pkt s)
  | .restart => .next (toPPhase (.lockAcquire pkt) s)

/-- RESTART sequence, step 1: enabled only when the lock is Free; otherwise P has no step (R136, R29). -/
def lockAcquireStep (pkt : Packet) (s : State) : Result :=
  match s.restartLock with
  | .free => .next (toPPhase (.marker pkt) (setLock .heldP s))
  | _ => .next s

/-- Step 2: the marker, then step 3, its commit (R136). -/
def markerStep (pkt : Packet) (s : State) : Result :=
  .next (toPPhase (.publish s.writePos 1 (.restart pkt)) (ringWrite s.writePos restartHeader s))

/-- Step 4 (R136). -/
def originStoreStep (pkt : Packet) (s : State) : Result := .next (toPPhase (.lockRelease pkt) (storeWritePos 0 s))

/-- Step 5, then the placement is retried (R133, R136). -/
def lockReleaseStep (pkt : Packet) (s : State) : Result := .next (toPPhase (.reserve pkt) (setLock .free s))

/-- One evaluation of the guard of `enqueue_simple`, and, when it holds, its slot write (R140). -/
def slotStep (header : Word) (after : AfterCommit) (s : State) : Result :=
  if s.capacity - 1 < 1 then raise .p .errOversize (saturate64 1) s
  else if slotGuard s then .next (toPPhase (.publish s.writePos 1 after) (ringWrite s.writePos header s))
  else .next (guardFailed s)

/-- The reservation after a publish: SEND_DATA's is consumed with it, so that a pending reservation always stands at
`write_pos` (10_state.md R39; 42_producer.md R205; log entry 33). -/
def resvAfterPublish (after : AfterCommit) (r : Option Reservation) : Option Reservation :=
  match after with
  | .sendData => none
  | .retire => r
  | .close => r
  | .restart _ => r

/-- `commit`, publish part: `store_release(write_pos, (offset + S) & MASK)` (R137). -/
def publishStep (offset size : Nat) (after : AfterCommit) (s : State) : Result :=
  .next (toPPhase (.wakeDecision size after)
    { storeWritePos (s.wrap (offset + size)) s with resv := resvAfterPublish after s.resv })

/-- What P does after a commit: the operation ends, or goes on. -/
def afterCommit (after : AfterCommit) (s : State) : State :=
  match after with
  | .retire => retire .done s
  | .sendData => retire .done s
  | .close => toPPhase .closeSignal s
  | .restart pkt => toPPhase (.originStore pkt) s

/-- `commit`, wake part (R138). -/
def wakeDecisionStep (size : Nat) (after : AfterCommit) (s : State) : Result := .next (afterCommit after (wakeDecide size s))

/-- POST_VSYNC, first line: one evaluation of `vsync_queued < VSYNC_LIMIT` (42_producer.md R209). -/
def vsyncWaitStep (fieldflag : W32) (s : State) : Result :=
  if s.vsyncQueued < Config.vsyncLimit then .next (toPPhase (.vsyncCount fieldflag) s) else .next (guardFailed s)

/-- POST_VSYNC, second line: the increment, before the enqueue (R209). -/
def vsyncCountStep (fieldflag : W32) (s : State) : Result :=
  .next (toPPhase (.slot (headerWord 3 fieldflag 0 0) .retire) (vsyncIncrement s))

/-- CLOSE: its `signal_wake()` (R202). -/
def closeSignalStep (s : State) : Result := .next (toPPhase .closeWait (signalWake s))

/-- CLOSE: one evaluation of `cstate == Halted`, and, when it holds, the end of the session (R202). -/
def closeWaitStep (s : State) : Result :=
  if s.cstate = .halted then .next (retire .done { s with session := .closed, cstate := .off })
  else .next (guardFailed s)

/-- What follows a drain: nothing, the image of the three records, or their replacement (R207, R281, R282). -/
def afterDrain (after : AfterDrain) (s : State) : State :=
  match after with
  | .retire => retire .done s
  | .save => retire (.image (Config.snapshotCodec.encode s.paths)) s
  | .load image => retire .done { s with paths := Config.snapshotCodec.decode image }

/-- One evaluation of `read_pos == write_pos` (R207). -/
def drainStep (after : AfterDrain) (s : State) : Result :=
  if s.readPos = s.writePos then .next (afterDrain after s) else .next (guardFailed s)

/-- P's next atomic step in the operation it runs. After a failed evaluation it is `signal_wake()`, and then the guard is
evaluated anew (R139). An idle P has none. -/
def producerContinue (s : State) : Result :=
  if s.pSignal then .next { signalWake s with pSignal := false }
  else
    match s.pphase with
    | .idle => .next s
    | .parsing run => parserStep run s
    | .reserve pkt => reserveStep pkt s
    | .lockAcquire pkt => lockAcquireStep pkt s
    | .marker pkt => markerStep pkt s
    | .originStore pkt => originStoreStep pkt s
    | .lockRelease pkt => lockReleaseStep pkt s
    | .slot header after => slotStep header after s
    | .publish offset size after => publishStep offset size after s
    | .wakeDecision size after => wakeDecisionStep size after s
    | .vsyncWait fieldflag => vsyncWaitStep fieldflag s
    | .vsyncCount fieldflag => vsyncCountStep fieldflag s
    | .closeSignal => closeSignalStep s
    | .closeWait => closeWaitStep s
    | .drain after => drainStep after s

end Sys2Proof.Machine
end

