-- ==== Sys2Proof/Machine/HostOps.lean ====
section
/-! DEFINITION. The meanings of the host operations (42_producer.md R200 to R210, 44_savestate.md R281, R282). An operation
is accepted when P is idle and runs to its end (30_encoding.md R113), one atomic step a time: `exec` of it is P's next
step, which is its acceptance while P is idle and `producerContinue` after. -/

namespace Sys2Proof.Machine

/-- The checks of R200 (2) to (5), in their order, for the operation of number `op`; check (1) is `alive`. True
when all pass. -/
def apiCheck (op : BitVec 4) (s : State) : Bool :=
  if 11 ≤ op.toNat then false
  else if op.toNat = 0 then decide (s.session = .closed) && s.resv.isNone
  else if op.toNat = 9 ∨ op.toNat = 10 then s.resv.isNone
  else if op.toNat = 4 then decide (s.session = .opened) && s.resv.isSome
  else if op.toNat = 7 then decide (s.session = .opened)
  else decide (s.session = .opened) && s.resv.isNone

/-- A host operation: nothing in a dead block (R200 check 1); `ERR_API` if a check fails; `accept` when P is idle;
otherwise P goes on with the operation it runs (R113). -/
def hostOp (op : BitVec 4) (s : State) (accept : Result) : Result :=
  alive s <|
    match s.pphase with
    | .idle => if apiCheck op s then accept else raise .p .errApi (apiInfo op 0) s
    | _ => producerContinue s

/-- The state after OPEN succeeds: every item of R37 at its reset value, then `session <- Open`, `cstate <- Waiting`
(R201). The ring's and the mirror's bytes are unspecified again, so nothing is listed. The port, the replies and the
model's own fields are no items of R37. -/
def openSession (s : State) : State :=
  { State.resetWith s.cfg with
    session := .opened
    cstate := .waiting
    port := s.port
    replies := s.replies
    turn := s.turn
    moves := s.moves
    draws := s.draws }

/-- OPEN when the backend answers `ok` to its initialisation (R201, R294). The call on the backend is the first entry of
the new session's trace (95_test_vectors.md; log entry 8). -/
def openWith (ok : Bool) (s : State) : State :=
  if ok then retire .ok (emitBackend (.init true) (openSession s)) else retire .errInit (emitBackend (.init false) s)

/-- HOST.OPEN (R201): the answer is a draw (log entry 3). -/
def execHostOpen (s : State) : Result :=
  hostOp 0 s (.next { openWith (Config.drawInit s.draws) s with draws := s.draws + 1 })

/-- HOST.CLOSE (R202): enqueue QUIT, signal, wait for the consumer to halt, close. -/
def execHostClose (s : State) : Result :=
  hostOp 1 s (.next (toPPhase (.slot (headerWord 15 0 0 0) .close) s))

/-- `zero_paths_for(command, d0)` (R208): RESET zeroes the three records, SOFTRESET those whose bit of `d0` is set. -/
def zeroPathsFor (command d0 : W32) (s : State) : State :=
  if command = 5 then { s with paths := GifPaths.zero }
  else if command = 4 then
    { s with paths := Vector.ofFn fun p : PathId => if d0.getLsbD p.val then GifPath.zero else GifPaths.get s.paths p }
  else s

/-- The commands that only the block's own logic enqueues: P1, P2, P3, VSYNC, RESTART (R206). -/
def reservedCommand (command : W32) : Bool :=
  decide (command.toNat < 4) || decide (command.toNat = 14)

/-- SEND_SIMPLE after the common checks (R206), for the operation number `op` that a refusal records. -/
def sendSimple (op : BitVec 4) (command d0 d1 d2 : W32) (s : State) : Result :=
  if reservedCommand command then raise .p .errApi (apiInfo op command) s
  else .next (toPPhase (.slot (headerWord command d0 d1 d2) .retire) (zeroPathsFor command d0 s))

/-- HOST.RESET (R203): exactly SEND_SIMPLE(RESET, 0, 0, 0). -/
def execHostReset (s : State) : Result := hostOp 2 s (sendSimple 2 5 0 0 0 s)

/-- HOST.PREPARE_DATA (R204): the parser runs first. -/
def execHostPrepareData (path : W32) (data : List Word) (s : State) : Result :=
  hostOp 3 s <|
    match pathOfArg path with
    | none => raise .p .errApi (apiInfo 3 path) s
    | some p => .next (startParse p data s)

/-- HOST.SEND_DATA (R205): commit the pending reservation. -/
def execHostSendData (s : State) : Result :=
  hostOp 4 s <|
    match s.resv with
    | none => raise .p .errApi (apiInfo 4 0) s
    | some r => .next (toPPhase (.publish r.offset r.size .sendData) s)

/-- HOST.SEND_SIMPLE (R206). -/
def execHostSendSimple (command d0 d1 d2 : W32) (s : State) : Result := hostOp 5 s (sendSimple 5 command d0 d1 d2 s)

/-- HOST.SEND_POINTER (R210): SEND_SIMPLE with the pointer in `data[1]` (low) and `data[2]` (high). -/
def execHostSendPointer (command d0 : W32) (ptr : W64) (s : State) : Result :=
  hostOp 6 s (sendSimple 6 command d0 (ptr.extractLsb' 0 32) (ptr.extractLsb' 32 32) s)

/-- HOST.WAIT_DRAIN (R207). -/
def execHostWaitDrain (s : State) : Result := hostOp 7 s (.next (toPPhase (.drain .retire) s))

/-- HOST.POST_VSYNC (R209). -/
def execHostPostVsync (fieldflag : W32) (s : State) : Result := hostOp 8 s (.next (toPPhase (.vsyncWait fieldflag) s))

/-- HOST.SAVESTATE_SAVE (R281): drain and encode; with no session, three zero records. -/
def execHostSavestateSave (s : State) : Result :=
  hostOp 9 s <|
    match s.session with
    | .opened => .next (toPPhase (.drain .save) s)
    | .closed => .next (retire (.image (Config.snapshotCodec.encode GifPaths.zero)) s)

/-- HOST.SAVESTATE_LOAD (R282): drain and decode; with no session the image is discarded and the records are zeroed. -/
def execHostSavestateLoad (image : List Byte) (s : State) : Result :=
  hostOp 10 s <|
    match s.session with
    | .opened => .next (toPPhase (.drain (.load image)) s)
    | .closed => .next (retire .done { s with paths := GifPaths.zero })

/-- HOST.RESERVED11: the op code raises ERR_API (R200 check 2). -/
def execHostReserved11 (s : State) : Result := hostOp 11 s (raise .p .errApi (apiInfo 11 0) s)

/-- HOST.RESERVED12 (R200 check 2). -/
def execHostReserved12 (s : State) : Result := hostOp 12 s (raise .p .errApi (apiInfo 12 0) s)

/-- HOST.RESERVED13 (R200 check 2). -/
def execHostReserved13 (s : State) : Result := hostOp 13 s (raise .p .errApi (apiInfo 13 0) s)

/-- HOST.RESERVED14 (R200 check 2). -/
def execHostReserved14 (s : State) : Result := hostOp 14 s (raise .p .errApi (apiInfo 14 0) s)

/-- HOST.RESERVED15 (R200 check 2). -/
def execHostReserved15 (s : State) : Result := hostOp 15 s (raise .p .errApi (apiInfo 15 0) s)

end Sys2Proof.Machine
end

