-- ==== Sys2Proof/Machine/Dispatch.lean ====
section
/-! DEFINITION. The dispatch: one arm per constructor of Instr, each one call of that instruction's meaning. -/

namespace Sys2Proof.Machine

def exec (i : Instr) (s : State) : Host.Outcome State Fault Refusal :=
  match i with
  | .p1 size => Sys2Proof.Machine.execP1 size s
  | .p2 size => Sys2Proof.Machine.execP2 size s
  | .p3 size => Sys2Proof.Machine.execP3 size s
  | .vsync fieldflag => Sys2Proof.Machine.execVsync fieldflag s
  | .softreset pathMask => Sys2Proof.Machine.execSoftreset pathMask s
  | .reset => Sys2Proof.Machine.execReset s
  | .writecsr value => Sys2Proof.Machine.execWritecsr value s
  | .memwrite8 offset value => Sys2Proof.Machine.execMemwrite8 offset value s
  | .memwrite16 offset value => Sys2Proof.Machine.execMemwrite16 offset value s
  | .memwrite32 offset value => Sys2Proof.Machine.execMemwrite32 offset value s
  | .memwrite64 offset value => Sys2Proof.Machine.execMemwrite64 offset value s
  | .modechange a b => Sys2Proof.Machine.execModechange a b s
  | .freeze mode ptr => Sys2Proof.Machine.execFreeze mode ptr s
  | .record => Sys2Proof.Machine.execRecord s
  | .restart => Sys2Proof.Machine.execRestart s
  | .quit => Sys2Proof.Machine.execQuit s
  | .unrecognised command => Sys2Proof.Machine.execUnrecognised command s
  | .giftagPacked t => Sys2Proof.Machine.execGiftagPacked t s
  | .giftagReglist x => Sys2Proof.Machine.execGiftagReglist x s
  | .giftagImage x => Sys2Proof.Machine.execGiftagImage x s
  | .giftagImage3 x => Sys2Proof.Machine.execGiftagImage3 x s
  | .packedAd u => Sys2Proof.Machine.execPackedAd u s
  | .packedOther sel u => Sys2Proof.Machine.execPackedOther sel u s
  | .adSignal w0 w1 ignored => Sys2Proof.Machine.execAdSignal w0 w1 ignored s
  | .adFinish w0 w1 ignored => Sys2Proof.Machine.execAdFinish w0 w1 ignored s
  | .adLabel w0 w1 ignored => Sys2Proof.Machine.execAdLabel w0 w1 ignored s
  | .reglistSignal u => Sys2Proof.Machine.execReglistSignal u s
  | .reglistFinish u => Sys2Proof.Machine.execReglistFinish u s
  | .reglistLabel u => Sys2Proof.Machine.execReglistLabel u s
  | .hostOpen => Sys2Proof.Machine.execHostOpen s
  | .hostClose => Sys2Proof.Machine.execHostClose s
  | .hostReset => Sys2Proof.Machine.execHostReset s
  | .hostPrepareData path data => Sys2Proof.Machine.execHostPrepareData path data s
  | .hostSendData => Sys2Proof.Machine.execHostSendData s
  | .hostSendSimple command d0 d1 d2 => Sys2Proof.Machine.execHostSendSimple command d0 d1 d2 s
  | .hostSendPointer command d0 ptr => Sys2Proof.Machine.execHostSendPointer command d0 ptr s
  | .hostWaitDrain => Sys2Proof.Machine.execHostWaitDrain s
  | .hostPostVsync fieldflag => Sys2Proof.Machine.execHostPostVsync fieldflag s
  | .hostSavestateSave => Sys2Proof.Machine.execHostSavestateSave s
  | .hostSavestateLoad image => Sys2Proof.Machine.execHostSavestateLoad image s
  | .hostReserved11 => Sys2Proof.Machine.execHostReserved11 s
  | .hostReserved12 => Sys2Proof.Machine.execHostReserved12 s
  | .hostReserved13 => Sys2Proof.Machine.execHostReserved13 s
  | .hostReserved14 => Sys2Proof.Machine.execHostReserved14 s
  | .hostReserved15 => Sys2Proof.Machine.execHostReserved15 s

end Sys2Proof.Machine
end

