-- ==== Sys2Proof/Machine/Fetch.lean ====
section
/-! DEFINITION. One step of each agent: where it fetches its next instruction, or which step of its own loop it takes; and
how an instruction's bits are placed where an agent fetches. -/

namespace Sys2Proof.Machine

/-- One step of P: the rest of what it is in the middle of, the parser's next word, or the operation the host presents
(30_encoding.md R113). An idle P with nothing presented has no step: the state stays. -/
def stepP (s : State) : Result :=
  if s.pSignal then producerContinue s
  else
    match s.pphase with
    | .idle =>
      match s.port with
      | [] => .next s
      | r :: _ => exec (decodeRequest r) s
    | .parsing run =>
      match parserFetch run s with
      | some i => exec i s
      | none => .next (endParse run s)
    | _ => producerContinue s

/-- One step of C (43_consumer.md R240, R241): none in Off and Halted (the state stays), the wake in Waiting; while it
drains, the emptiness test, the end of the drain, the fetched command, or the rest of one, but none inside a call that
never returns (93_implementation_defined.md U11: the state stays). -/
def stepC (s : State) : Result :=
  match s.cstate with
  | .off => .next s
  | .halted => .next s
  | .waiting => consumerWait s
  | .draining =>
    match s.cphase with
    | .top => consumerTest s
    | .leaving => .next (endDrain s)
    | .dispatch =>
      match consumerFetch s with
      | some i => exec i s
      | none => .fault (.unwrittenSlot s.readPos)
    | _ => if s.endlessCall then .next s else consumerContinue s

/-- One step of the agent that `turn` names. -/
def agentStep (s : State) : Result :=
  match s.turn with
  | .p => stepP s
  | .c => stepC s

/-- A ring header where C's next step dispatches it: at `read_pos`, in the live region, of a session in which C is
draining (R240, R247). -/
def placeHeader (w : Word) (s : State) : State :=
  { s with
    fault := none
    ring := Memory.write s.ring s.readPos w
    writePos := if s.writePos = s.readPos then s.wrap (s.readPos + 1) else s.writePos
    session := .opened
    cstate := .draining
    busy := true
    cphase := .dispatch
    turn := .c }

/-- A request where P's next step accepts it: presented at the port of an idle P (R113). -/
def placeRequest (r : HostRequest) (s : State) : State :=
  { s with fault := none, port := r :: s.port.tail, pphase := .idle, pSignal := false, turn := .p }

/-- A word where the parser's next step reads it: the only word of a PREPARE_DATA on path index 1, whose record is `g`. -/
def placeGif (g : GifPath) (w : Word) (s : State) : State :=
  { setPath .p1 g s with
    fault := none
    session := .opened
    port := { op := 3, path := 1, data := [w] } :: s.port.tail
    pphase := .parsing { path := .p1, taken := [], rest := [w], half := .lower }
    pSignal := false
    turn := .p }

/-- A record between two tags. -/
def betweenTags (g : GifPath) : GifPath := { g with tag := { g.tag with nloop := 0 } }

/-- A record in the last unit of a PACKED tag whose one selector is `sel`. -/
def underSelector (sel : Byte) (g : GifPath) : GifPath :=
  { g with tag := { g.tag with nloop := 1, flag := 0, nreg := 1 }, regs := g.regs.set 0 sel, curreg := 0 }

/-- A code where the agent that fetches it finds it next. Only the kinds that `tableCode` answers are placed. -/
def placeCode (c : Code) (s : State) : State :=
  match c with
  | .header w => placeHeader w s
  | .request r => placeRequest r s
  | .tag w => placeGif (betweenTags (s.path .p1)) w s
  | .packed sel u => placeGif (underSelector sel (s.path .p1)) u s
  | .reglist _ _ => s
  | .image _ => s
  | .image3 _ => s

/-- The bits of a row of spec/opcode_table.json, placed for the next step. -/
def placeTableWord (nbits w : Nat) (s : State) : State :=
  match tableCode nbits w with
  | none => s
  | some c => placeCode c s

end Sys2Proof.Machine
end

