-- ==== Sys2Proof/Machine/Step.lean ====
section
/-! DEFINITION. One step of the machine, and the placing of an instruction for the next step. -/

namespace Sys2Proof.Machine

/-- One atomic step of one agent, then the choice of the agent that moves next (00_scope.md R3). A dead block has no step
(60_exceptions.md R292). -/
def step (s : State) : Host.Outcome State Fault Refusal := alive s (onNext reschedule (agentStep s))

/-- The state whose next step runs the instruction with these bits of spec/opcode_table.json. -/
def State.withFetchWord (s : State) (nbits w : Nat) : State := placeTableWord nbits w s

end Sys2Proof.Machine
end

