-- ==== Sys2Proof/Safety.lean ====
section
/-! DEFINITION. The terms that claims are stated in: where an agent must stand for an instruction to run, an instruction
run to its end with no other agent between, weak fairness (00_scope.md R3), what an agent owns (10_state.md R20), the
invariants of R38 and R39, and the live region of the ring as a list of packets. -/

namespace Sys2Proof.Machine

/-! ### Running an instruction -/

/-- `n` successive atomic steps of one instruction, no other agent's step between them. -/
def execTimes (n : Nat) (i : Instr) (s : State) : Result :=
  match n with
  | 0 => .next s
  | k + 1 =>
    match exec i s with
    | .next t => execTimes k i t
    | .fault e => .fault e
    | .refused e => .refused e

/-- `n` successive steps of P, no step of C between them. -/
def producerTimes (n : Nat) (s : State) : Result :=
  match n with
  | 0 => .next s
  | k + 1 =>
    match stepP s with
    | .next t => producerTimes k t
    | .fault e => .fault e
    | .refused e => .refused e

/-- The transfer command of a path (30_encoding.md R93, R94). -/
def transferInstr (p : PathId) (size : W32) : Instr :=
  match p.val with
  | 0 => .p1 size
  | 1 => .p2 size
  | _ => .p3 size

/-- C has fetched a header and dispatches it next, in a live block (43_consumer.md R240, R241). -/
abbrev State.atDispatch (s : State) : Prop := s.fault = none ∧ s.cstate = .draining ∧ s.cphase = .dispatch

/-- P is idle in a live block, and may accept an operation (30_encoding.md R113). -/
abbrev State.producerIdle (s : State) : Prop := s.fault = none ∧ s.pphase = .idle ∧ s.pSignal = false

/-- The checks of 42_producer.md R200 that an operation other than OPEN, SEND_DATA and WAIT_DRAIN needs of an open block. -/
abbrev State.acceptsOps (s : State) : Prop := s.producerIdle ∧ s.session = .opened ∧ s.resv = none

/-- P's parser is at the word `w` of a run on path `p`, in a live block (41_gifpath.md R160). -/
abbrev State.parserAt (s : State) (run : ParseRun) (w : Word) (ws : List Word) : Prop :=
  s.fault = none ∧ s.pphase = .parsing run ∧ run.rest = w :: ws

/-- The parser stops after this word: nothing is left, or the packet has ended (41_gifpath.md R160, R170). -/
abbrev parserStops (g : GifPath) (ws : List Word) : Prop := ws = [] ∨ (g.tag.nloop = 0 ∧ g.tag.eop = true)

/-- Where P stands once the word `w` of a run is consumed whole and `g` is the record after it. -/
def afterWord (run : ParseRun) (w : Word) (ws : List Word) (g : GifPath) : PPhase :=
  if parserStops g ws then .reserve { path := run.path, payload := run.taken ++ [w] }
  else .parsing { path := run.path, taken := run.taken ++ [w], rest := ws, half := .lower }

/-! ### Commits and waits -/

/-- Whether a commit of `size` slots signals, when P reads `b` as `busy` (40_ring.md R138). -/
def commitSignals (b : Bool) (size : Nat) (s : State) : Bool :=
  !b && (decide (s.cfg.wakeWords ≤ s.tallyWords + size) || decide (s.cfg.wakeCmds ≤ s.tallyCmds + 1))

/-- The wake event and the tallies after such a commit (R138, R139). -/
def afterWake (b : Bool) (size : Nat) (s : State) : State :=
  { s with
    wakePending := s.wakePending || commitSignals b size s
    tallyWords := if commitSignals b size s then 0 else s.tallyWords + size
    tallyCmds := if commitSignals b size s then 0 else s.tallyCmds + 1 }

/-- The ring, the write cursor, the wake event and the tallies after `enqueue_simple` of a header (R140), when P reads
`b` as `busy`. -/
def enqueued (b : Bool) (header : Word) (s : State) : State :=
  { afterWake b 1 s with
    ring := Memory.write s.ring s.writePos header
    writePos := (s.writePos + 1) % s.capacity }

/-- P stands at one of its awaits (R139) and the condition does not hold. -/
def State.waits (s : State) : Prop :=
  match s.pphase with
  | .reserve pkt => reserveCase s.capacity s.writePos s.readPos (pkt.payload.length + 1) = .wait
  | .slot _ _ => 2 ≤ s.capacity ∧ (s.writePos + 1) % s.capacity = s.readPos
  | .vsyncWait _ => Config.vsyncLimit.toNat ≤ s.vsyncQueued.toNat
  | .closeWait => s.cstate ≠ .halted
  | .drain _ => s.readPos ≠ s.writePos
  | _ => False

/-! ### Runs and fairness (00_scope.md R3) -/

/-- The agent has a step of its own: P unless it is idle with nothing presented or waits for the restart lock (R29,
30_encoding.md R113); C while it drains unless it waits for that lock or is inside a call that never returns, and in
Waiting when the wake event is set (43_consumer.md R240, R246; 93_implementation_defined.md U11). -/
def State.hasStep (s : State) (a : Agent) : Prop :=
  s.fault = none ∧
    match a with
    | .p =>
      s.pSignal = true ∨
        match s.pphase with
        | .idle => s.port ≠ []
        | .lockAcquire _ => s.restartLock = .free
        | _ => True
    | .c =>
      match s.cstate with
      | .off => False
      | .halted => False
      | .waiting => s.wakePending = true
      | .draining =>
        match s.cphase with
        | .top => True
        | .leaving => True
        | .dispatch => consumerFetch s = some .restart → s.restartLock = .free
        | _ => s.endlessCall = false

/-- A run that goes on for ever: every state steps to the next one. -/
abbrev IsRun (run : Nat → State) : Prop := ∀ n, step (run n) = .next (run (n + 1))

/-- Weak fairness to an agent: if from some moment on it always has a step, it eventually takes one (R3). -/
abbrev WeaklyFair (run : Nat → State) (a : Agent) : Prop :=
  ∀ n, (∀ m, n ≤ m → (run m).hasStep a) → ∃ m, n ≤ m ∧ (run m).hasStep a ∧ (run m).turn = a

/-! ### What an agent's step leaves alone (R20) -/

/-- What only P writes: `write_pos`, `resv`, the GIFPath records, the tallies, `p3_progress`, `session`, the ring,
`sfl_trace`, and P's own place, port and replies. -/
abbrev sameProducerSide (s t : State) : Prop :=
  t.writePos = s.writePos ∧ t.resv = s.resv ∧ t.paths = s.paths ∧ t.tallyWords = s.tallyWords ∧
    t.tallyCmds = s.tallyCmds ∧ t.p3Progress = s.p3Progress ∧ t.session = s.session ∧ t.ring = s.ring ∧
    t.sflTrace = s.sflTrace ∧ t.port = s.port ∧ t.pphase = s.pphase ∧ t.pSignal = s.pSignal ∧ t.replies = s.replies

/-- What only C writes in an open session: `read_pos`, `busy`, `unk_cmd_seen`, the mirror, the backend and peripheral
traces, and C's own place. -/
abbrev sameConsumerSide (s t : State) : Prop :=
  t.readPos = s.readPos ∧ t.busy = s.busy ∧ t.unkCmdSeen = s.unkCmdSeen ∧ t.mirror = s.mirror ∧
    t.backendTrace = s.backendTrace ∧ t.periphTrace = s.periphTrace ∧ t.cphase = s.cphase

/-! ### Range and agreement invariants (R37, R39) -/

/-- The commit is that of the RESTART marker. -/
def AfterCommit.isRestart (a : AfterCommit) : Bool :=
  match a with
  | .restart _ => true
  | .retire => false
  | .sendData => false
  | .close => false

/-- P stands between the acquire and the release of the RESTART sequence (40_ring.md R136 steps 2 to 5). -/
def PPhase.holdsLock (p : PPhase) : Bool :=
  match p with
  | .marker _ => true
  | .slot _ after => after.isRestart
  | .publish _ _ after => after.isRestart
  | .wakeDecision _ after => after.isRestart
  | .originStore _ => true
  | .lockRelease _ => true
  | _ => false

/-- C stands between the acquire and the release of a RESTART (43_consumer.md R246). -/
def CPhase.holdsLock (c : CPhase) : Bool :=
  match c with
  | .restartStore => true
  | .restartRelease => true
  | _ => false

/-- The cursors are slot indices, the memories are in canonical form and inside their address spaces, the lock is held by
the agent that stands in a bracketed sequence and by no other (R29, R39), the session, `cstate` and P's activity agree
(R32, R33), and C is in the middle of a command only while it drains, unless a fault has stopped it there (R240, R292). -/
abbrev State.Inv (s : State) : Prop :=
  s.cfg.wf = true ∧ s.readPos < s.capacity ∧ s.writePos < s.capacity ∧
    Memory.wf s.ring = true ∧ Memory.below s.ring s.capacity = true ∧
    Memory.wf s.mirror = true ∧ Memory.below s.mirror s.cfg.mirrorBytes = true ∧
    (s.restartLock = .heldP ↔ s.pphase.holdsLock = true) ∧ (s.restartLock = .heldC ↔ s.cphase.holdsLock = true) ∧
    (s.session = .closed ↔ s.cstate = .off) ∧ (s.pphase = .idle ∨ s.session = .opened) ∧
    (s.cstate = .draining ∨ s.cphase = .top ∨ s.fault ≠ none)

/-- The ranges of R39 on a GIFPath record: every selector is at most 15, and inside a tag `curreg` is below the register
count. An image that SAVE did not produce can break them (93_implementation_defined.md U6). -/
abbrev GifPath.InRange (g : GifPath) : Prop :=
  (∀ j : Fin Config.selectors, g.regs[j].toNat ≤ 15) ∧ g.curreg.toNat ≤ 15 ∧ (g.tag.nloop ≠ 0 → g.curreg.toNat < numregs g.tag)

/-! ### The live region as a list of packets (R38, R40, 30_encoding.md R92) -/

/-- The slots a packet occupies, from its header alone (R92). -/
def packetLength (header : Word) : Nat :=
  match decodeHeader header with
  | .p1 size => 1 + size.toNat
  | .p2 size => 1 + size.toNat
  | .p3 size => 1 + size.toNat
  | _ => 1

/-- The header is a RESTART marker. -/
def isRestart (header : Word) : Bool := decide (decodeHeader header = .restart)

/-- The header is a VSYNC. -/
def isVsync (header : Word) : Bool := decide (headerCommand header = 3)

/-- Slot `i` lies in the live region `[read_pos, liveEnd)` modulo the ring size. -/
abbrev inRegion (r e i : Nat) : Prop := if r ≤ e then r ≤ i ∧ i < e else r ≤ i ∨ i < e

/-- The header is that of a data packet, P1, P2 or P3. -/
def isData (header : Word) : Bool := decide ((headerCommand header).toNat < Config.npaths)

/-- The headers of the packets that exactly fill the slots from `a` up to `b`, none of them a RESTART marker and every
slot of them written; `none` if they do not. -/
def segmentHeaders (ring : Memory Word) (fuel a b : Nat) : Option (List Word) :=
  if a = b then some []
  else
    match fuel with
    | 0 => none
    | n + 1 =>
      match Memory.read ring a with
      | none => none
      | some h =>
        if isRestart h = false ∧ a + packetLength h ≤ b ∧
            (Memory.readSpan ring (a + 1) (packetLength h - 1)).isSome = true then
          (segmentHeaders ring n (a + packetLength h) b).map (h :: ·)
        else none

/-- The headers from `a` to the top of the ring: up to and with a RESTART marker, or filling it exactly. -/
def topHeaders (ring : Memory Word) (fuel a top : Nat) : Option (List Word) :=
  if a = top then some []
  else
    match fuel with
    | 0 => none
    | n + 1 =>
      match Memory.read ring a with
      | none => none
      | some h =>
        if isRestart h then some [h]
        else if a + packetLength h ≤ top ∧ (Memory.readSpan ring (a + 1) (packetLength h - 1)).isSome = true then
          (topHeaders ring n (a + packetLength h) top).map (h :: ·)
        else none

/-- P has published its RESTART marker and not yet stored 0 into `write_pos` (R136, between steps 3 and 4). -/
def PPhase.markerPublished (p : PPhase) : Bool :=
  match p with
  | .wakeDecision _ after => after.isRestart
  | .originStore _ => true
  | _ => false

/-- Where the live region ends: `write_pos`, or 0 while a published marker waits for the store of 0. -/
def State.liveEnd (s : State) : Nat := if s.pphase.markerPublished then 0 else s.writePos

/-- The headers of the packets enqueued and not yet consumed, in ring order, RESTART markers among them. -/
def State.liveHeaders (s : State) : Option (List Word) :=
  if s.readPos ≤ s.liveEnd then segmentHeaders s.ring s.capacity s.readPos s.liveEnd
  else
    match topHeaders s.ring s.capacity s.readPos s.capacity, segmentHeaders s.ring s.capacity 0 s.liveEnd with
    | some xs, some ys => some (xs ++ ys)
    | _, _ => none

/-- A packet of `size` slots stands written at `off`, which is `write_pos`, and its publish neither meets nor equals the
consumer's remaining path (40_ring.md R143). -/
abbrev State.readyToPublish (s : State) (off size : Nat) : Prop :=
  off = s.writePos ∧ 1 ≤ size ∧ size ≤ s.capacity - 1 ∧ off + size ≤ s.capacity ∧
    (Memory.readSpan s.ring off size).isSome = true ∧
    (Memory.read s.ring off).all (fun h => decide (packetLength h = size)) = true ∧
    (if s.readPos ≤ off then off + size < s.capacity ∨ 0 < s.readPos else off + size < s.readPos)

/-- The header P has written at `off` and not published has this property. -/
abbrev State.pendingHeader (s : State) (off : Nat) (p : Word → Bool) : Prop :=
  (Memory.read s.ring off).all p = true

/-- The reservation, if one is pending, is a data packet ready to publish (R23). -/
def State.reservationReady (s : State) : Prop :=
  match s.resv with
  | none => True
  | some r => s.readyToPublish r.offset r.size ∧ s.pendingHeader r.offset isData

/-- P is between the guard of the wrap case and the store of the marker's publish (R133, R136): the guard still holds. -/
abbrev State.wrapGuardHolds (s : State) : Prop := s.resv = none ∧ 0 < s.readPos ∧ s.readPos ≤ s.writePos

/-- The published marker is the last packet of the live region, and C has not reached slot 0 (R136). -/
abbrev State.markerIsLast (s : State) : Prop :=
  s.resv = none ∧ 0 < s.readPos ∧ (s.liveHeaders.bind List.getLast?).all isRestart = true

/-- What P has promised itself at its place: the guard it has passed still holds (R143 c), the packet it will publish is
written, and nothing but SEND_DATA and WAIT_DRAIN runs while a reservation is pending (R23, R200). -/
def State.producerPromise (s : State) : Prop :=
  match s.pphase with
  | .idle => s.reservationReady
  | .parsing _ => s.resv = none
  | .reserve _ => s.resv = none
  | .lockAcquire _ => s.wrapGuardHolds
  | .marker _ => s.wrapGuardHolds
  | .originStore _ => s.markerIsLast
  | .lockRelease _ => s.resv = none
  | .slot header after =>
    (after = .retire ∨ after = .close) ∧ s.resv = none ∧ isRestart header = false ∧ packetLength header = 1
  | .publish off size after =>
    s.readyToPublish off size ∧
      match after with
      | .retire => s.resv = none ∧ s.pendingHeader off (fun h => !isRestart h)
      | .close => s.resv = none ∧ s.pendingHeader off (fun h => !isRestart h)
      | .sendData => s.resv = some { offset := off, size := size } ∧ s.pendingHeader off isData
      | .restart _ => s.wrapGuardHolds ∧ s.pendingHeader off isRestart
  | .wakeDecision _ after =>
    match after with
    | .retire => s.resv = none
    | .close => s.resv = none
    | .sendData => s.resv = none
    | .restart _ => s.markerIsLast
  | .vsyncWait _ => s.resv = none
  | .vsyncCount _ => s.resv = none ∧ s.vsyncQueued.toNat < Config.vsyncLimit.toNat
  | .closeSignal => s.resv = none
  | .closeWait => s.resv = none
  | .drain after =>
    match after with
    | .retire => s.reservationReady
    | .save => s.resv = none
    | .load _ => s.resv = none

/-- The command at the head of the live region is the one C is in the middle of. -/
def State.consumerPromise (s : State) (headers : List Word) : Prop :=
  match s.cphase with
  | .top => True
  | .leaving => True
  | .restartRelease => True
  | .dispatch => headers ≠ []
  | .advance k =>
    headers.head?.any (fun h => decide (packetLength h = k) && !isRestart h) = true
  | .restartStore => headers.head?.any isRestart = true
  | .quitHalt => headers ≠ []
  | _ => headers.head?.any isVsync = true

/-- VSYNC packets that P has counted and not yet published. -/
def State.vsyncInFlight (s : State) : Nat :=
  match s.pphase with
  | .slot header _ => if isVsync header then 1 else 0
  | .publish off _ _ => if (Memory.read s.ring off).any isVsync then 1 else 0
  | _ => 0

/-- C has decremented the counter for the VSYNC at the head and not yet advanced past it. -/
def State.vsyncHeadCounted (s : State) (headers : List Word) : Nat :=
  match s.cphase with
  | .vsyncHookA => 1
  | .vsyncHookB => 1
  | .advance _ => if headers.head?.any isVsync then 1 else 0
  | _ => 0

/-- The central invariant (R38) and what it needs to be kept: the live region is a list of whole packets from `read_pos`
to `write_pos`; a pending reservation stands at `write_pos` (R39); P and C stand where their promises say; and
`vsync_queued` counts the VSYNC packets enqueued and not yet processed, at most VSYNC_LIMIT (R28, R39). RING_LOG2 is at most 32: a header
holds the payload size in 32 bits (42_producer.md R204), and with a larger ring a payload of 2^32 words would not fit it. -/
def State.LiveInv (s : State) : Prop :=
  s.Inv ∧ s.cfg.ringLog2 ≤ 32 ∧ s.resv.all (fun r => decide (r.offset = s.writePos)) = true ∧
    match s.liveHeaders with
    | none => False
    | some headers =>
      s.producerPromise ∧ (s.cstate = .draining → s.consumerPromise headers) ∧
        s.vsyncQueued.toNat + s.vsyncHeadCounted headers = headers.countP isVsync + s.vsyncInFlight ∧
        s.vsyncQueued.toNat ≤ Config.vsyncLimit.toNat

end Sys2Proof.Machine
end

