-- ==== Sys2Proof/Certificates/Slice0/Obligations.lean ====
section
/-! DEFINITION. The statements about MTGS-FIFO. `exec i s` is one atomic step of the instruction `i`, and `execTimes n i s`
is `n` of them with no other agent's step between; the state a statement gives is written as `s` with the fields that
change, so that every other field is said to stay. Values that the spec leaves free (P's read of `busy`, the backend's
answer) stand in the statements as the uninterpreted constants they are. -/

open Sys2Proof Sys2Proof.Machine

/-! ### Encodings -/

/-- Decode and encode agree for every well-formed instruction, whatever RL_SFL_BASE is: no operand bit is dropped. -/
def Obligations.DecodeEncodeRoundTrip : Prop :=
  ∀ (rl : Option (Fin 14)) (i : Instr), i.wf rl = true → decode rl (encode rl i) = i

/-- The other direction for GIF words, which have one meaning each: all their bits come back, the ignored ones too. -/
def Obligations.EncodeDecodeGifWords : Prop :=
  ∀ (rl : Option (Fin 14)) (w : Word) (sel : Byte) (u : W64),
    encode rl (decode rl (.tag w)) = .tag w ∧
    encode rl (decode rl (.packed sel w)) = .packed sel w ∧
    encode rl (decode rl (.reglist sel u)) = .reglist sel u ∧
    encode rl (decode rl (.image w)) = .image w ∧
    encode rl (decode rl (.image3 w)) = .image3 w

/-- Words written out in the spec's tables decode to the instructions they stand for: a header of each operand shape, a
tag, an A+D unit, a bare op code. -/
def Obligations.DecodeSpecWords : Prop :=
  decodeHeader 0x00000000000000000000000200000000#128 = .p1 2 ∧
  decodeHeader 0x00000000000000000000000100000003#128 = .vsync 1 ∧
  decodeHeader 0x00000000000001FF0000000300000007#128 = .memwrite8 3 0xFF ∧
  decodeHeader 0x1122334455667788000000180000000A#128 = .memwrite64 0x18 0x1122334455667788 ∧
  decodeHeader 0x0123456789ABCDEF000000010000000C#128 = .freeze 1 0x0123456789ABCDEF ∧
  decodeHeader 0x00000000000000000000000000000010#128 = .unrecognised 16 ∧
  decodeTag 0x00000000000005D23400000000008001#128 =
    .giftagReglist (.tag { nloop := 1, eop := true, pad := 0, nreg := 3, regs0 := 0x5D2, regs1 := 0 }) ∧
  decodePacked 0xE 0x000000000000006111111111DEADBEEF#128 = .adFinish 0xDEADBEEF 0x11111111 0 ∧
  decodeRequest { op := 7 } = .hostWaitDrain

/-- A header selects its command by all 32 bits of its first word, and its operands are the auxiliary words of the table
(30_encoding.md R93, R95, R97). -/
def Obligations.HeaderSelectsCommand : Prop :=
  ∀ w : Word,
    let cmd : W32 := w.extractLsb' 0 32
    let d0 : W32 := w.extractLsb' 32 32
    let d1 : W32 := w.extractLsb' 64 32
    let d2 : W32 := w.extractLsb' 96 32
    (cmd = 0 → decodeHeader w = .p1 d0) ∧ (cmd = 1 → decodeHeader w = .p2 d0) ∧
    (cmd = 2 → decodeHeader w = .p3 d0) ∧ (cmd = 3 → decodeHeader w = .vsync d0) ∧
    (cmd = 4 → decodeHeader w = .softreset d0) ∧ (cmd = 5 → decodeHeader w = .reset) ∧
    (cmd = 6 → decodeHeader w = .writecsr d0) ∧
    (cmd = 7 → decodeHeader w = .memwrite8 d0 (d1.extractLsb' 0 8)) ∧
    (cmd = 8 → decodeHeader w = .memwrite16 d0 (d1.extractLsb' 0 16)) ∧
    (cmd = 9 → decodeHeader w = .memwrite32 d0 d1) ∧
    (cmd = 10 → decodeHeader w = .memwrite64 d0 (d2 ++ d1)) ∧
    (cmd = 11 → decodeHeader w = .modechange d0 d1) ∧
    (cmd = 12 → decodeHeader w = .freeze d0 (d2 ++ d1)) ∧
    (cmd = 13 → decodeHeader w = .record) ∧ (cmd = 14 → decodeHeader w = .restart) ∧
    (cmd = 15 → decodeHeader w = .quit) ∧ (16 ≤ cmd.toNat → decodeHeader w = .unrecognised cmd)

/-- The header word P builds is `data[2] ++ data[1] ++ data[0] ++ command` (30_encoding.md R91). -/
def Obligations.HeaderWordLayout : Prop :=
  ∀ command d0 d1 d2 : W32, headerWord command d0 d1 d2 = d2 ++ d1 ++ d0 ++ command

/-- The bytes of a word in memory, least significant first, give the word back; sixteen bytes give one word, whose bytes
they are; and any other number of bytes is rejected by name (20_memory.md R66). -/
def Obligations.BytesOfWordsRoundTrip : Prop :=
  (∀ w : Word, wordOfBytes (bytesOfWord w) = .ok w ∧ decodeHeaderBytes (bytesOfWord w) = .ok (decodeHeader w)) ∧
  (∀ (bs : List Byte) (w : Word), wordOfBytes bs = .ok w →
    bytesOfWord w = bs ∧ ∀ k, k < 16 → bs[k]? = some (w.extractLsb' (8 * k) 8)) ∧
  (∀ bs : List Byte, bs.length ≠ 16 → wordOfBytes bs = .error (.notSixteenBytes bs.length))

/-! ### A step runs the decoded instruction -/

/-- In a live block the step of the agent in turn is `exec` of what it fetches, and then the choice of the next turn: C
at a fetched header, P idle at the first request of the port, P's parser at its next word. -/
def Obligations.StepRunsDecoded : Prop :=
  ∀ (s : State) (i : Instr), s.fault = none → i.wf s.cfg.rlSflBase = true →
    (∀ w, s.turn = .c → s.cstate = .draining → s.cphase = .dispatch → Memory.read s.ring s.readPos = some w →
      decode s.cfg.rlSflBase (.header w) = i → step s = onNext reschedule (exec i s)) ∧
    (∀ r rest, s.turn = .p → s.producerIdle → s.port = r :: rest →
      decode s.cfg.rlSflBase (.request r) = i → step s = onNext reschedule (exec i s)) ∧
    (∀ run w ws, s.turn = .p → s.pSignal = false → s.parserAt run w ws →
      decode s.cfg.rlSflBase (gifCode (s.path run.path) run.half w) = i → step s = onNext reschedule (exec i s))

/-! ### The ring commands -/

/-- P1, P2, P3: a transfer whose payload ends at or before the top of the ring hands its words to the backend and
advances past them; one that would run past the top raises ERR_OVERTAKE and writes nothing (43_consumer.md R243 to
R245, R262). -/
def Obligations.PathTransfers : Prop :=
  ∀ (s : State) (p : PathId) (size : W32), s.atDispatch →
    (∀ words, s.readPos + 1 + size.toNat ≤ s.capacity →
      Memory.readSpan s.ring (s.readPos + 1) size.toNat = some words →
      exec (transferInstr p size) s = .next { s with
        backendTrace := s.backendTrace ++ [.transfer p words size]
        cphase := .advance (1 + size.toNat) } ∧
      execTimes 2 (transferInstr p size) s = .next { s with
        backendTrace := s.backendTrace ++ [.transfer p words size]
        readPos := (s.readPos + (1 + size.toNat)) % s.capacity
        cphase := .top }) ∧
    (s.capacity < s.readPos + 1 + size.toNat →
      exec (transferInstr p size) s = .next { s with
        fault := some { code := .errOvertake, agent := .c, info := BitVec.ofNat 64 s.readPos }
        cstate := .halted })

/-- VSYNC: the backend call, the decrement, the two hooks, the advance (the effects and the order of 43_consumer.md R249).
That they are five atomic steps is the model's choice (log entry 18), and so is the wrap of a decrement at
`vsync_queued = 0`, which no run reaches (log entry 28). -/
def Obligations.VsyncCompletes : Prop :=
  ∀ (s : State) (fieldflag : W32), s.atDispatch →
    exec (.vsync fieldflag) s = .next { s with
      backendTrace := s.backendTrace ++ [.vsync fieldflag], cphase := .vsyncCount } ∧
    execTimes 5 (.vsync fieldflag) s = .next { s with
      backendTrace := s.backendTrace ++ [.vsync fieldflag]
      vsyncQueued := s.vsyncQueued - 1
      periphTrace := s.periphTrace ++ [.a, .b]
      readPos := (s.readPos + 1) % s.capacity
      cphase := .top }

/-- SOFTRESET, RESET, WRITECSR, MODECHANGE, FREEZE make the backend call with the header's words, RECORD makes none, and
all advance by one slot; nothing else changes, the GIFPath records included (43_consumer.md R250, R251, R252, R258,
R259, R260). -/
def Obligations.ControlCommandsForward : Prop :=
  ∀ (s : State) (i : Instr) (calls : List BackendCall), s.atDispatch →
    ((∃ mask, i = .softreset mask ∧ calls = [.softReset mask]) ∨
      (i = .reset ∧ calls = [.reset]) ∨
      (∃ value, i = .writecsr value ∧ calls = [.writeControlRegister value]) ∨
      (∃ a b, i = .modechange a b ∧ calls = [.modeChange a b]) ∨
      (∃ mode ptr, i = .freeze mode ptr ∧ calls = [.freeze mode ptr]) ∨
      (i = .record ∧ calls = [])) →
    exec i s = .next { s with backendTrace := s.backendTrace ++ calls, cphase := .advance 1 } ∧
    execTimes 2 i s = .next { s with
      backendTrace := s.backendTrace ++ calls, readPos := (s.readPos + 1) % s.capacity, cphase := .top }

/-- MEMWRITE8, 16, 32, 64: an aligned write in range sets exactly its bytes of the mirror, least significant first, and
advances by one slot; any other raises ERR_MEMWRITE with the offset and writes nothing (43_consumer.md R253 to R257). -/
def Obligations.MemoryWrites : Prop :=
  ∀ (s : State) (i : Instr) (off : W32) (n : Nat) (v : W64), s.atDispatch →
    ((∃ x : BitVec 8, i = .memwrite8 off x ∧ n = 1 ∧ v = x.setWidth 64) ∨
      (∃ x : BitVec 16, i = .memwrite16 off x ∧ n = 2 ∧ v = x.setWidth 64) ∨
      (∃ x : BitVec 32, i = .memwrite32 off x ∧ n = 4 ∧ v = x.setWidth 64) ∨
      (i = .memwrite64 off v ∧ n = 8)) →
    (off.toNat % n = 0 ∧ off.toNat + n ≤ s.cfg.mirrorBytes →
      ∃ m : List Host.Cell,
        exec i s = .next { s with mirror := m, cphase := .advance 1 } ∧
        execTimes 2 i s = .next { s with
          mirror := m, readPos := (s.readPos + 1) % s.capacity, cphase := .top } ∧
        ∀ a, Memory.read m a =
          if off.toNat ≤ a ∧ a < off.toNat + n then some (v.extractLsb' (8 * (a - off.toNat)) 8)
          else Memory.read s.mirror a) ∧
    (¬ (off.toNat % n = 0 ∧ off.toNat + n ≤ s.cfg.mirrorBytes) →
      exec i s = .next { s with
        fault := some { code := .errMemwrite, agent := .c, info := off.setWidth 64 }, cstate := .halted })

/-- RESTART: with the lock Free it is taken, `read_pos` becomes 0, the lock is released, and there is no advance; with the
lock not Free C has no step (43_consumer.md R246). -/
def Obligations.RestartCommand : Prop :=
  ∀ s : State, s.atDispatch →
    (s.restartLock = .free →
      exec .restart s = .next { s with restartLock := .heldC, cphase := .restartStore } ∧
      execTimes 2 .restart s = .next { s with restartLock := .heldC, readPos := 0, cphase := .restartRelease } ∧
      execTimes 3 .restart s = .next { s with restartLock := .free, readPos := 0, cphase := .top }) ∧
    (s.restartLock ≠ .free → exec .restart s = .next s)

/-- QUIT: the backend's close, `busy` cleared, C halted, `read_pos` on the QUIT header (43_consumer.md R261). -/
def Obligations.QuitHalts : Prop :=
  ∀ s : State, s.atDispatch →
    exec .quit s = .next { s with backendTrace := s.backendTrace ++ [.close], cphase := .quitHalt } ∧
    execTimes 2 .quit s = .next { s with
      backendTrace := s.backendTrace ++ [.close], busy := false, cstate := .halted, cphase := .top }

/-- An id of 16 or more: ERR_UNKNOWN_CMD with the id when STRICT, otherwise logged and skipped by one slot
(43_consumer.md R264). -/
def Obligations.UnrecognisedCommand : Prop :=
  ∀ (s : State) (command : W32), s.atDispatch → 16 ≤ command.toNat →
    (s.cfg.strict = true →
      exec (.unrecognised command) s = .next { s with
        fault := some { code := .errUnknownCmd, agent := .c, info := command.setWidth 64 }, cstate := .halted }) ∧
    (s.cfg.strict = false →
      exec (.unrecognised command) s = .next { s with unkCmdSeen := true, cphase := .advance 1 } ∧
      execTimes 2 (.unrecognised command) s = .next { s with
        unkCmdSeen := true, readPos := (s.readPos + 1) % s.capacity, cphase := .top })

/-- C's loop around the commands (43_consumer.md R241): the wake, the emptiness test before every packet, the end of the
drain; the further steps of a command, which are those of the fetched command; and no step in Off, in Halted, in Waiting
without a signal (R240), and inside a backend call or hook that never returns (93_implementation_defined.md U11; log
entry 20). That the test which finds the ring empty and the clearing of `busy` are two steps is the model's reading,
against R240's one transition (log entry 19). -/
def Obligations.ConsumerLoop : Prop :=
  ∀ s : State,
    (s.cstate = .waiting → s.wakePending = true →
      stepC s = .next { s with wakePending := false, busy := true, cstate := .draining, cphase := .top }) ∧
    (s.cstate = .waiting → s.wakePending = false → stepC s = .next s) ∧
    (s.cstate = .off ∨ s.cstate = .halted → stepC s = .next s) ∧
    (s.cstate = .draining → s.cphase = .top → s.readPos ≠ s.writePos →
      stepC s = .next { s with cphase := .dispatch }) ∧
    (s.cstate = .draining → s.cphase = .top → s.readPos = s.writePos →
      stepC s = .next { s with cphase := .leaving } ∧
      stepC { s with cphase := .leaving } = .next { s with busy := false, cstate := .waiting, cphase := .top }) ∧
    (∀ h, s.cstate = .draining → s.cphase = .dispatch → Memory.read s.ring s.readPos = some h →
      stepC s = exec (decodeHeader h) s) ∧
    (∀ h, s.fault = none → s.cstate = .draining → s.cphase ≠ .top → s.cphase ≠ .leaving → s.cphase ≠ .dispatch →
      Memory.read s.ring s.readPos = some h →
      stepC s = if s.endlessCall then .next s else exec (decodeHeader h) s)

/-! ### The GIF words -/

/-- `fetch_tag`: every field of the record after a tag word, by the word's bits (41_gifpath.md R162). -/
def Obligations.FetchTagLoadsRecord : Prop :=
  ∀ (w : Word) (g : GifPath),
    let g' := fetchTag (tagFlg w) (tagFields w) g
    g'.tag.nloop = w.extractLsb' 0 15 ∧ g'.tag.eop = w.getLsbD 15 ∧ g'.tag.flag = w.extractLsb' 58 2 ∧
    g'.tag.nreg = w.extractLsb' 60 4 ∧ g'.tag.regs0 = w.extractLsb' 64 32 ∧ g'.tag.regs1 = w.extractLsb' 96 32 ∧
    g'.curreg = 0 ∧
    ∀ j : Fin 16, g'.regs[j] =
      if j.val < (if w.extractLsb' 60 4 = 0 then 16 else (w.extractLsb' 60 4).toNat)
      then (w.extractLsb' (64 + 4 * j.val) 4).setWidth 8 else g.regs[j]

/-- A tag item, all four FLG codes: the record is loaded; on path index 2 the progress flag is recomputed, and otherwise
kept; on path index 0 a tag that declares more than the call still holds is aborted, with `nloop` 0 and the tag word
itself left unconsumed; every other tag word is consumed (41_gifpath.md R163, R171). -/
def Obligations.TagItems : Prop :=
  ∀ (s : State) (flg : BitVec 2) (t : TagFields) (i : Instr) (run : ParseRun) (w : Word) (ws : List Word),
    s.parserAt run w ws →
    ((i = .giftagPacked t ∧ flg = 0) ∨ (i = .giftagReglist (.tag t) ∧ flg = 1) ∨
      (i = .giftagImage (.tag t) ∧ flg = 2) ∨ (i = .giftagImage3 (.tag t) ∧ flg = 3)) →
    let g := fetchTag flg t (s.path run.path)
    let declared := t.nloop.toNat * (if t.nreg = 0 then 16 else t.nreg.toNat)
    let available := if flg = 1 then ws.length * 2 else ws.length
    (run.path = .p0 ∧ available < declared →
      exec i s = .next { s with
        paths := GifPaths.set s.paths run.path { g with tag := { g.tag with nloop := 0 } }
        pphase := .reserve { path := run.path, payload := run.taken } }) ∧
    (¬ (run.path = .p0 ∧ available < declared) →
      exec i s = .next { s with
        paths := GifPaths.set s.paths run.path g
        p3Progress := if run.path = .p2 then Config.p3Progress g.tag s.p3Progress else s.p3Progress
        pphase := afterWord run w ws g })

/-- PACKED units, the five rows: the notification the row names, one register step, one word consumed; nothing else
changes. -/
def Obligations.PackedUnits : Prop :=
  ∀ (s : State) (i : Instr) (notes : List Notification) (run : ParseRun) (w : Word) (ws : List Word),
    s.parserAt run w ws → (s.path run.path).tag.nloop ≠ 0 →
    ((∃ u, i = .packedAd u ∧ notes = []) ∨ (∃ sel u, i = .packedOther sel u ∧ notes = []) ∨
      (∃ w0 w1 x, i = .adSignal w0 w1 x ∧ notes = [{ kind := .signal, w0 := w0, w1 := w1 }]) ∨
      (∃ w0 w1 x, i = .adFinish w0 w1 x ∧ notes = [{ kind := .finish, w0 := w0, w1 := w1 }]) ∨
      (∃ w0 w1 x, i = .adLabel w0 w1 x ∧ notes = [{ kind := .label, w0 := w0, w1 := w1 }])) →
    let g := (stepReg (s.path run.path)).path
    exec i s = .next { s with
      sflTrace := s.sflTrace ++ notes
      paths := GifPaths.set s.paths run.path g
      pphase := afterWord run w ws g }

/-- P's step at a word of a PACKED tag: under selector 0xE and only there, bits 71:64 in the range 0x60 to 0x62 raise one
notification with the word's first two 32-bit words; then one register step (41_gifpath.md R165, R166). -/
def Obligations.PackedStepByBits : Prop :=
  ∀ (s : State) (run : ParseRun) (u : Word) (ws : List Word),
    s.parserAt run u ws → s.pSignal = false → (s.path run.path).tag.nloop ≠ 0 → (s.path run.path).tag.flag = 0 →
    let g := s.path run.path
    let a := (u.extractLsb' 64 8).toNat
    let notes : List Notification :=
      if currentSelector g = 0xE ∧ 0x60 ≤ a ∧ a ≤ 0x62 then
        [{ kind := if a = 0x60 then .signal else if a = 0x61 then .finish else .label
           w0 := u.extractLsb' 0 32, w1 := u.extractLsb' 32 32 }]
      else []
    stepP s = .next { s with
      sflTrace := s.sflTrace ++ notes
      paths := GifPaths.set s.paths run.path (stepReg g).path
      pphase := afterWord run u ws (stepReg g).path }

/-- REGLIST units, the four rows: the notification the row names, one register step, half a word consumed; the upper half
follows the lower one, and a tag that ends on a lower half takes the upper half with it (41_gifpath.md R167, R168). -/
def Obligations.ReglistUnits : Prop :=
  ∀ (s : State) (i : Instr) (u : W64) (kind : Option Sfl) (run : ParseRun) (w : Word) (ws : List Word),
    s.parserAt run w ws → (s.path run.path).tag.nloop ≠ 0 →
    ((∃ sel, i = .giftagReglist (.unit sel u) ∧ kind = none) ∨ (i = .reglistSignal u ∧ kind = some .signal) ∨
      (i = .reglistFinish u ∧ kind = some .finish) ∨ (i = .reglistLabel u ∧ kind = some .label)) →
    let r := stepReg (s.path run.path)
    let notes : List Notification :=
      match kind with
      | none => []
      | some k => [{ kind := k, w0 := u.extractLsb' 0 32, w1 := u.extractLsb' 32 32 }]
    exec i s = .next { s with
      sflTrace := s.sflTrace ++ notes
      paths := GifPaths.set s.paths run.path r.path
      pphase := if run.half = .lower ∧ r.more = true then .parsing { run with half := .upper }
        else afterWord run w ws r.path }

/-- P's step at half a word of a REGLIST tag: with RL_SFL_BASE `b` a selector `b`, `b + 1`, `b + 2` raises one
notification with the half's two 32-bit words; every other selector, and every one with `none`, raises nothing
(41_gifpath.md R167). -/
def Obligations.ReglistStepByBits : Prop :=
  ∀ (s : State) (run : ParseRun) (w : Word) (ws : List Word),
    s.parserAt run w ws → s.pSignal = false → (s.path run.path).tag.nloop ≠ 0 → (s.path run.path).tag.flag = 1 →
    let g := s.path run.path
    let u : W64 := if run.half = .lower then w.extractLsb' 0 64 else w.extractLsb' 64 64
    let sel := (currentSelector g).toNat
    let notes : List Notification :=
      match s.cfg.rlSflBase with
      | none => []
      | some b =>
        if b.val ≤ sel ∧ sel ≤ b.val + 2 then
          [{ kind := if sel = b.val then .signal else if sel = b.val + 1 then .finish else .label
             w0 := u.extractLsb' 0 32, w1 := u.extractLsb' 32 32 }]
        else []
    stepP s = .next { s with
      sflTrace := s.sflTrace ++ notes
      paths := GifPaths.set s.paths run.path (stepReg g).path
      pphase := if run.half = .lower ∧ (stepReg g).more = true then .parsing { run with half := .upper }
        else afterWord run w ws (stepReg g).path }

/-- A word of an IMAGE run, both codes: `nloop` goes down by one, no register is interpreted, one word is consumed. -/
def Obligations.ImageWords : Prop :=
  ∀ (s : State) (i : Instr) (x : Word) (run : ParseRun) (w : Word) (ws : List Word),
    s.parserAt run w ws → (s.path run.path).tag.nloop ≠ 0 →
    (i = .giftagImage (.data x) ∨ i = .giftagImage3 (.data x)) →
    let g := s.path run.path
    let g' : GifPath := { g with tag := { g.tag with nloop := g.tag.nloop - 1 } }
    exec i s = .next { s with paths := GifPaths.set s.paths run.path g', pphase := afterWord run w ws g' }

/-- A tag governs exactly `nloop * numregs` units: after `k` register steps from a fresh tag the index is `k mod numregs`
and `nloop` is down by `k div numregs`, and `more` is false at the last unit and there only (41_gifpath.md R164). -/
def Obligations.TagGovernsUnits : Prop :=
  ∀ (g : GifPath) (k : Nat), g.curreg = 0 → k < g.tag.nloop.toNat * numregs g.tag →
    let after : Nat → GifPath := fun n => (fun x => (stepReg x).path)^[n] g
    (after k).curreg.toNat = k % numregs g.tag ∧
    (after k).tag.nloop.toNat = g.tag.nloop.toNat - k / numregs g.tag ∧
    (after k).tag.nloop ≠ 0 ∧
    ((stepReg (after k)).more = true ↔ k + 1 < g.tag.nloop.toNat * numregs g.tag) ∧
    (k + 1 = g.tag.nloop.toNat * numregs g.tag → (after (k + 1)).tag.nloop = 0 ∧ (after (k + 1)).curreg = 0)

/-- The three records are independent: a GIF word parsed for one path leaves the other two as they were. -/
def Obligations.PathsAreIndependent : Prop :=
  ∀ (s t : State) (run : ParseRun) (q : PathId), s.pphase = .parsing run → stepP s = .next t → q ≠ run.path →
    t.path q = s.path q

/-! ### The parser's call -/

/-- What the parser leaves is a suffix of its input, so that what it consumed is a prefix; and it leaves something only
after an end of packet in what it consumed, or, on path index 0, after a clip: then the first word left is a tag that
declares more units than the words after it hold, and it is the record's tag but for `nloop`, which is 0
(41_gifpath.md R171, R172). -/
def Obligations.ParseConsumesPrefix : Prop :=
  ∀ (rl : Option (Fin 14)) (p : PathId) (g : GifPath) (p3 : Bool) (data : List Word),
    let out := parse rl p g p3 data
    ∃ taken, data = taken ++ out.left ∧
      (out.left ≠ [] → out.path.tag.nloop = 0 ∧
        ((taken ≠ [] ∧ out.path.tag.eop = true) ∨
          (p = .p0 ∧ ∃ w rest, out.left = w :: rest ∧
            (let t := loadedTag (tagFlg w) (tagFields w)
            (if t.flag = 1 then rest.length * 2 else rest.length) < t.nloop.toNat * numregs t ∧
              out.path.tag = { t with nloop := 0 }))))

/-- The clipping round trip on path index 0, for a PACKED tag `w` followed by `ws`: if it declares more units than `ws`
holds, `nloop` ends at 0 and all of `w :: ws` is unconsumed; an exact fit consumes everything; empty input does
nothing (41_gifpath.md R178). -/
def Obligations.ClippingRoundTrip : Prop :=
  ∀ (rl : Option (Fin 14)) (g : GifPath) (p3 : Bool) (w : Word) (ws : List Word),
    g.tag.nloop = 0 → tagFlg w = 0 →
    let t := (fetchTag 0 (tagFields w) g).tag
    let out := parse rl .p0 g p3 (w :: ws)
    (ws.length < t.nloop.toNat * numregs t → out.path.tag.nloop = 0 ∧ out.left = w :: ws ∧ out.sfl = []) ∧
    (t.nloop.toNat * numregs t = ws.length → out.path.tag.nloop = 0 ∧ out.left = []) ∧
    (parse rl .p0 g p3 []).path = g ∧ (parse rl .p0 g p3 []).left = []

/-- Splitting a stream into two calls at a word boundary changes neither the notifications nor the final state, on path
indices 1 and 2, if the first call consumes all of its words and does not end a packet. -/
def Obligations.StreamsSplitAtWords : Prop :=
  ∀ (rl : Option (Fin 14)) (p : PathId) (g : GifPath) (p3 : Bool) (xs ys : List Word), p ≠ .p0 →
    let a := parse rl p g p3 xs
    a.left = [] → endOfPacket a.path = false →
    let b := parse rl p a.path a.p3 ys
    parse rl p g p3 (xs ++ ys) = { path := b.path, p3 := b.p3, sfl := a.sfl ++ b.sfl, left := b.left }

/-! ### The host operations -/

/-- Misuse of the port: for every request that R200 refuses, the operation raises ERR_API with its op code and nothing
else happens; and in a dead block every operation stops (42_producer.md R200). -/
def Obligations.PortChecks : Prop :=
  ∀ (s : State) (r : HostRequest),
    (s.fault ≠ none → exec (decodeRequest r) s = .fault .deadBlock) ∧
    (s.producerIdle →
      (11 ≤ r.op.toNat ∨
        (r.op.toNat = 0 ∧ s.session = .opened) ∨
        (r.op.toNat ≠ 0 ∧ r.op.toNat ≠ 9 ∧ r.op.toNat ≠ 10 ∧ s.session = .closed) ∨
        (r.op.toNat ≠ 4 ∧ r.op.toNat ≠ 7 ∧ s.resv ≠ none) ∨
        (r.op.toNat = 4 ∧ s.resv = none)) →
      exec (decodeRequest r) s = .next { s with
        fault := some { code := .errApi, agent := .p, info := r.op.setWidth 64 } })

/-- The five op codes without an operation raise ERR_API with the op code (42_producer.md R200, check 2). -/
def Obligations.ReservedOpsRaise : Prop :=
  ∀ (s : State) (i : Instr) (op : W64), s.producerIdle →
    ((i = .hostReserved11 ∧ op = 11) ∨ (i = .hostReserved12 ∧ op = 12) ∨ (i = .hostReserved13 ∧ op = 13) ∨
      (i = .hostReserved14 ∧ op = 14) ∨ (i = .hostReserved15 ∧ op = 15)) →
    exec i s = .next { s with fault := some { code := .errApi, agent := .p, info := op } }

/-- OPEN: with the backend's answer `ok` every item has its reset value, the session is open and C waits; with `fail` the
call is in the trace, ERR_INIT is the result and nothing else changes. That the call of a successful OPEN is the first
entry of the emptied trace is the model's reading (log entry 8). -/
def Obligations.OpenCompletes : Prop :=
  ∀ s : State, s.producerIdle → s.session = .closed → s.resv = none →
    exec .hostOpen s = .next
      (if Config.drawInit s.draws = true then
        { State.resetWith s.cfg with
          session := .opened
          cstate := .waiting
          backendTrace := [.init true]
          port := s.port.tail
          replies := s.replies ++ [.ok]
          turn := s.turn
          moves := s.moves
          draws := s.draws + 1 }
      else
        { s with
          backendTrace := s.backendTrace ++ [.init false]
          port := s.port.tail
          replies := s.replies ++ [.errInit]
          draws := s.draws + 1 })

/-- CLOSE: with the slot free QUIT is enqueued and the wake event is signalled, in five steps; then P waits for C to halt,
and with C halted the session is closed and C is Off (42_producer.md R202). -/
def Obligations.CloseCompletes : Prop :=
  ∀ s : State,
    (s.acceptsOps → 2 ≤ s.capacity → (s.writePos + 1) % s.capacity ≠ s.readPos →
      exec .hostClose s = .next { s with pphase := .slot (headerWord 15 0 0 0) .close } ∧
      execTimes 5 .hostClose s = .next { s with
        ring := Memory.write s.ring s.writePos (headerWord 15 0 0 0)
        writePos := (s.writePos + 1) % s.capacity
        wakePending := true
        tallyWords := 0
        tallyCmds := 0
        draws := s.draws + 1
        pphase := .closeWait }) ∧
    (s.fault = none → s.pphase = .closeWait → s.pSignal = false →
      (s.cstate = .halted →
        exec .hostClose s = .next { s with
          session := .closed, cstate := .off, pphase := .idle, port := s.port.tail, replies := s.replies ++ [.done] }) ∧
      (s.cstate ≠ .halted →
        execTimes 2 .hostClose s = .next { s with wakePending := true, tallyWords := 0, tallyCmds := 0 }))

/-- RESET, SEND_SIMPLE and SEND_POINTER with the slot free: RESET zeroes the three records and SOFTRESET those whose bit
of `d0` is set, the header is enqueued, and the operation ends; four steps (42_producer.md R203, R208, R210). -/
def Obligations.SimplePackets : Prop :=
  ∀ (s : State) (i : Instr) (command d0 d1 d2 : W32), s.acceptsOps → 2 ≤ s.capacity →
    (s.writePos + 1) % s.capacity ≠ s.readPos → 4 ≤ command.toNat → command.toNat ≠ 14 →
    ((i = .hostReset ∧ command = 5 ∧ d0 = 0 ∧ d1 = 0 ∧ d2 = 0) ∨
      i = .hostSendSimple command d0 d1 d2 ∨
      (∃ ptr : W64, i = .hostSendPointer command d0 ptr ∧ d1 = ptr.extractLsb' 0 32 ∧ d2 = ptr.extractLsb' 32 32)) →
    let zeroed : GifPaths :=
      if command = 5 then GifPaths.zero
      else if command = 4 then
        Vector.ofFn fun p : PathId => if d0.getLsbD p.val = true then GifPath.zero else s.path p
      else s.paths
    exec i s = .next { s with paths := zeroed, pphase := .slot (headerWord command d0 d1 d2) .retire } ∧
    execTimes 4 i s = .next { enqueued (Config.drawBusy s.draws) (headerWord command d0 d1 d2) s with
      paths := zeroed
      pphase := .idle
      port := s.port.tail
      replies := s.replies ++ [.done]
      draws := s.draws + 1 }

/-- SEND_SIMPLE refuses P1, P2, P3, VSYNC and RESTART with ERR_API, which records the op code and the command, and
accepts every other command (42_producer.md R206); SEND_POINTER refuses the same, with its own op code (log entry 17). -/
def Obligations.ReservedCommandsRefused : Prop :=
  ∀ (s : State) (command d0 d1 d2 : W32) (ptr : W64), s.acceptsOps →
    (command.toNat ≤ 3 ∨ command.toNat = 14 →
      exec (.hostSendSimple command d0 d1 d2) s = .next { s with
        fault := some { code := .errApi, agent := .p, info := command ++ (5 : W32) } } ∧
      exec (.hostSendPointer command d0 ptr) s = .next { s with
        fault := some { code := .errApi, agent := .p, info := command ++ (6 : W32) } }) ∧
    (4 ≤ command.toNat ∧ command.toNat ≠ 14 →
      ∃ t u, exec (.hostSendSimple command d0 d1 d2) s = .next t ∧ t.fault = none ∧
        exec (.hostSendPointer command d0 ptr) s = .next u ∧ u.fault = none)

/-- PREPARE_DATA, run to its end where a case of `reserve` places the packet at once: the parser's whole effect, header and
consumed prefix written at `write_pos`, the reservation pending, `committed` returned, `write_pos` where it was
(42_producer.md R204). A path above 2 raises ERR_API. -/
def Obligations.PrepareDataCompletes : Prop :=
  ∀ (s : State) (path : W32) (data : List Word), s.acceptsOps →
    (∀ p, pathOfArg path = some p →
      let out := parse s.cfg.rlSflBase p (s.path p) s.p3Progress data
      let committed := data.length - out.left.length
      (∃ u, exec (.hostPrepareData path data) s = .next u ∧ u.fault = none) ∧
      (committed + 1 ≤ s.capacity - 1 →
        (s.writePos + (committed + 1) < s.capacity ∧
            (s.readPos ≤ s.writePos ∨ s.writePos + (committed + 1) < s.readPos)) ∨
          (s.writePos + (committed + 1) = s.capacity ∧
            (s.readPos = s.writePos ∨ (0 < s.readPos ∧ s.readPos < s.writePos))) →
        ∃ n, execTimes n (.hostPrepareData path data) s = .next { s with
          paths := GifPaths.set s.paths p out.path
          p3Progress := out.p3
          sflTrace := s.sflTrace ++ out.sfl
          ring := Memory.writeSpan s.ring s.writePos
            (headerWord path (BitVec.ofNat 32 committed) 0 0 :: data.take committed)
          resv := some { offset := s.writePos, size := committed + 1 }
          pphase := .idle
          port := s.port.tail
          replies := s.replies ++ [.committed committed] })) ∧
    (3 ≤ path.toNat →
      exec (.hostPrepareData path data) s = .next { s with
        fault := some { code := .errApi, agent := .p, info := path ++ (3 : W32) } })

/-- PREPARE_DATA of a packet larger than the ring allows: the parser has run, ERR_OVERSIZE records the slots wanted, and
the ring and `write_pos` are untouched. -/
def Obligations.OversizeAfterParsing : Prop :=
  ∀ (s : State) (path : W32) (p : PathId) (data : List Word), s.acceptsOps → pathOfArg path = some p →
    let out := parse s.cfg.rlSflBase p (s.path p) s.p3Progress data
    let committed := data.length - out.left.length
    s.capacity - 1 < committed + 1 → committed + 1 < 2 ^ 64 →
    ∃ n, execTimes n (.hostPrepareData path data) s = .next { s with
      paths := GifPaths.set s.paths p out.path
      p3Progress := out.p3
      sflTrace := s.sflTrace ++ out.sfl
      pphase := .reserve { path := p, payload := data.take committed }
      fault := some { code := .errOversize, agent := .p, info := BitVec.ofNat 64 (committed + 1) } }

/-- SEND_DATA: the pending reservation is committed and is pending no more; three steps (42_producer.md R205). -/
def Obligations.SendDataCompletes : Prop :=
  ∀ (s : State) (r : Reservation), s.producerIdle → s.session = .opened → s.resv = some r →
    exec .hostSendData s = .next { s with pphase := .publish r.offset r.size .sendData } ∧
    execTimes 3 .hostSendData s = .next { afterWake (Config.drawBusy s.draws) r.size s with
      writePos := (r.offset + r.size) % s.capacity
      resv := none
      pphase := .idle
      port := s.port.tail
      replies := s.replies ++ [.done]
      draws := s.draws + 1 }

/-- WAIT_DRAIN: with the cursors equal it returns and touches nothing, not even the wake event, and no packet is left in
the live region; otherwise every evaluation signals the wake event and clears the tallies, and it waits on; a pending
reservation is no obstacle (42_producer.md R207). -/
def Obligations.WaitDrain : Prop :=
  ∀ s : State, s.producerIdle → s.session = .opened →
    exec .hostWaitDrain s = .next { s with pphase := .drain .retire } ∧
    (s.readPos = s.writePos →
      s.liveHeaders = some [] ∧
      execTimes 2 .hostWaitDrain s = .next { s with port := s.port.tail, replies := s.replies ++ [.done] }) ∧
    (s.readPos ≠ s.writePos →
      execTimes 3 .hostWaitDrain s = .next { s with
        pphase := .drain .retire, wakePending := true, tallyWords := 0, tallyCmds := 0 })

/-- POST_VSYNC: below the limit, with the slot free, the counter goes up and then a VSYNC header is enqueued, six steps;
at the limit the operation waits, signalling the wake event (42_producer.md R209). -/
def Obligations.PostVsync : Prop :=
  ∀ (s : State) (fieldflag : W32), s.acceptsOps →
    exec (.hostPostVsync fieldflag) s = .next { s with pphase := .vsyncWait fieldflag } ∧
    (s.vsyncQueued.toNat < 8 → 2 ≤ s.capacity → (s.writePos + 1) % s.capacity ≠ s.readPos →
      execTimes 6 (.hostPostVsync fieldflag) s = .next
        { enqueued (Config.drawBusy s.draws) (headerWord 3 fieldflag 0 0) s with
          vsyncQueued := s.vsyncQueued + 1
          port := s.port.tail
          replies := s.replies ++ [.done]
          draws := s.draws + 1 }) ∧
    (8 ≤ s.vsyncQueued.toNat →
      execTimes 3 (.hostPostVsync fieldflag) s = .next { s with
        pphase := .vsyncWait fieldflag, wakePending := true, tallyWords := 0, tallyCmds := 0 })

/-- SAVESTATE_SAVE: with a session it drains, and the image of the three records is the result; with none the image of
three zero records is, and the records are not read (44_savestate.md R281). -/
def Obligations.SavestateSave : Prop :=
  ∀ s : State, s.producerIdle → s.resv = none →
    (s.session = .opened → s.readPos = s.writePos →
      exec .hostSavestateSave s = .next { s with pphase := .drain .save } ∧
      execTimes 2 .hostSavestateSave s = .next { s with
        port := s.port.tail, replies := s.replies ++ [.image (Config.snapshotCodec.encode s.paths)] }) ∧
    (s.session = .opened → s.readPos ≠ s.writePos →
      execTimes 3 .hostSavestateSave s = .next { s with
        pphase := .drain .save, wakePending := true, tallyWords := 0, tallyCmds := 0 }) ∧
    (s.session = .closed →
      exec .hostSavestateSave s = .next { s with
        port := s.port.tail, replies := s.replies ++ [.image (Config.snapshotCodec.encode GifPaths.zero)] })

/-- SAVESTATE_LOAD: with a session it drains, and the three records are replaced by the decoded ones, as they are; with
none the image is discarded and the records are zeroed (44_savestate.md R282). -/
def Obligations.SavestateLoad : Prop :=
  ∀ (s : State) (image : List Byte), s.producerIdle → s.resv = none →
    (s.session = .opened → s.readPos = s.writePos →
      exec (.hostSavestateLoad image) s = .next { s with pphase := .drain (.load image) } ∧
      execTimes 2 (.hostSavestateLoad image) s = .next { s with
        paths := Config.snapshotCodec.decode image, port := s.port.tail, replies := s.replies ++ [.done] }) ∧
    (s.session = .opened → s.readPos ≠ s.writePos →
      execTimes 3 (.hostSavestateLoad image) s = .next { s with
        pphase := .drain (.load image), wakePending := true, tallyWords := 0, tallyCmds := 0 }) ∧
    (s.session = .closed →
      exec (.hostSavestateLoad image) s = .next { s with
        paths := GifPaths.zero, port := s.port.tail, replies := s.replies ++ [.done] })

/-- With a session open, nothing pending and the ring drained, saving and then loading the image leaves every field of the
three records, and every later parse, as without it (44_savestate.md R284). -/
def Obligations.SavestateRoundTrip : Prop :=
  ∀ s : State, s.acceptsOps → s.readPos = s.writePos →
    ∃ image t u, execTimes 2 .hostSavestateSave s = .next t ∧ t.replies = s.replies ++ [.image image] ∧
      execTimes 2 (.hostSavestateLoad image) t = .next u ∧ u.paths = s.paths ∧ u.p3Progress = s.p3Progress ∧
      ∀ p data, parse u.cfg.rlSflBase p (u.path p) u.p3Progress data =
        parse s.cfg.rlSflBase p (s.path p) s.p3Progress data

/-! ### Reservation, the RESTART sequence, commits and waits -/

/-- One evaluation of `reserve`'s guard for a parsed packet of `S` slots: too large raises ERR_OVERSIZE, and the three
cases place the packet, go on to the RESTART sequence, or wait (40_ring.md R131, R132, R134). -/
def Obligations.ReserveGuards : Prop :=
  ∀ (s : State) (pkt : Packet), s.pSignal = false → s.pphase = .reserve pkt →
    let size := pkt.payload.length + 1
    (s.capacity - 1 < size →
      stepP s = .next { s with fault := s.fault.or (some
        { code := .errOversize, agent := .p, info := BitVec.ofNat 64 (min size (2 ^ 64 - 1)) }) }) ∧
    (size ≤ s.capacity - 1 → s.writePos + size < s.capacity →
      (s.readPos ≤ s.writePos ∨ s.writePos + size < s.readPos → stepP s = .next (fillPacket pkt s)) ∧
      (¬ (s.readPos ≤ s.writePos ∨ s.writePos + size < s.readPos) → stepP s = .next { s with pSignal := true })) ∧
    (size ≤ s.capacity - 1 → s.capacity < s.writePos + size →
      (s.readPos = s.writePos ∨ (0 < s.readPos ∧ s.readPos < s.writePos) →
        stepP s = .next { s with pphase := .lockAcquire pkt }) ∧
      (¬ (s.readPos = s.writePos ∨ (0 < s.readPos ∧ s.readPos < s.writePos)) →
        stepP s = .next { s with pSignal := true })) ∧
    (size ≤ s.capacity - 1 → s.writePos + size = s.capacity →
      (s.readPos = s.writePos ∨ (0 < s.readPos ∧ s.readPos < s.writePos) → stepP s = .next (fillPacket pkt s)) ∧
      (¬ (s.readPos = s.writePos ∨ (0 < s.readPos ∧ s.readPos < s.writePos)) →
        stepP s = .next { s with pSignal := true }))

/-- The one-slot guard is the condition that the three cases give for one slot, and the wrap case never arises for one
slot (40_ring.md R135). -/
def Obligations.OneSlotGuardAgrees : Prop :=
  ∀ n w r : Nat, 2 ≤ n → w < n → r < n →
    ((w + 1) % n ≠ r ↔ reserveCase n w r 1 = .place) ∧ ((w + 1) % n = r ↔ reserveCase n w r 1 = .wait)

/-- The RESTART sequence: with the lock Free, six steps of P write the marker at `write_pos`, publish it, store 0 into
`write_pos` and release the lock, which is held all between; then the placement is retried. With the lock not Free P
has no step (40_ring.md R136). -/
def Obligations.RestartSequence : Prop :=
  ∀ (s : State) (pkt : Packet), s.pSignal = false → s.pphase = .lockAcquire pkt →
    (s.restartLock = .free →
      producerTimes 6 s = .next { afterWake (Config.drawBusy s.draws) 1 s with
        ring := Memory.write s.ring s.writePos (headerWord 14 0 0 0)
        writePos := 0
        restartLock := .free
        pphase := .reserve pkt
        draws := s.draws + 1 } ∧
      (∀ k, 1 ≤ k → k ≤ 5 → ∃ u, producerTimes k s = .next u ∧ u.restartLock = .heldP ∧
        u.writePos = (if k ≤ 2 then s.writePos else if k ≤ 4 then (s.writePos + 1) % s.capacity else 0))) ∧
    (s.restartLock ≠ .free → stepP s = .next s)

/-- A commit: one store of `(offset + S) mod N` into `write_pos`, and right after it the wake decision, which adds to the
tallies and signals exactly if `busy` is read 0 and a threshold is reached (40_ring.md R138). SEND_DATA's reservation
goes with the store (log entry 33). -/
def Obligations.CommitAndWake : Prop :=
  ∀ (s : State) (offset size : Nat) (after : AfterCommit), s.pSignal = false → s.pphase = .publish offset size after →
    let u : State := { s with
      writePos := (offset + size) % s.capacity
      resv := if after = .sendData then none else s.resv
      pphase := .wakeDecision size after }
    stepP s = .next u ∧
    stepP u = .next (afterCommit after { afterWake (Config.drawBusy u.draws) size u with draws := u.draws + 1 })

/-- A producer wait: every failed evaluation is followed by `signal_wake()`, and then the guard is evaluated anew; nothing
else changes (40_ring.md R139). -/
def Obligations.WaitsSignal : Prop :=
  ∀ s : State, s.pSignal = false → s.waits →
    stepP s = .next { s with pSignal := true } ∧
    stepP { s with pSignal := true } = .next { s with wakePending := true, tallyWords := 0, tallyCmds := 0 }

/-- Once C has halted with packets left in the ring, a drain wait never ends: no step of either agent ends it. -/
def Obligations.HaltedConsumerHoldsDrain : Prop :=
  ∀ (s t : State) (after : AfterDrain), s.cstate = .halted → s.readPos ≠ s.writePos → s.pphase = .drain after →
    step s = .next t →
    t.cstate = .halted ∧ t.readPos = s.readPos ∧ t.writePos = s.writePos ∧ t.pphase = .drain after

/-! ### Faults -/

/-- The step that raises a fault does nothing else: the record names the agent in turn, `cstate` becomes Halted if that is
C and stays if it is P, and, the schedule's own fields apart, no other item of the state changes (60_exceptions.md R291,
R292). -/
def Obligations.RaisingStepIsPrecise : Prop :=
  ∀ (s t : State) (f : FaultRecord), step s = .next t → t.fault = some f →
    f.agent = s.turn ∧
    t = { s with
      fault := some f
      cstate := if s.turn = .c then .halted else s.cstate
      turn := t.turn
      moves := s.moves + 1 }

/-- Every step of every state answers a next state, or stops for one of two reasons: the block is dead (60_exceptions.md
R292; log entry 10), or C has met a ring slot that nothing has written. No step is refused. In a dead block no
instruction has a step either. The stop at an unwritten slot is the model's choice (log entry 7): the spec lets such a
slot hold any value and says that no rule reads one. -/
def Obligations.StepsStopForTwoReasons : Prop :=
  ∀ s : State, (s.fault ≠ none → ∀ i, exec i s = .fault .deadBlock) ∧ (
    (∃ t, step s = .next t) ∨ (s.fault ≠ none ∧ step s = .fault .deadBlock) ∨
      (∃ slot, Memory.read s.ring slot = none ∧ s.turn = .c ∧ step s = .fault (.unwrittenSlot slot)))

/-! ### Reset, ownership and what never changes -/

/-- Hardware reset, for every value of the parameters: the items have the values of the table, and no slot and no byte has
one (70_reset_and_hazards.md R330). -/
def Obligations.ResetValues : Prop :=
  ∀ cfg : Params,
    let s := State.resetWith cfg
    s.writePos = 0 ∧ s.readPos = 0 ∧ s.resv = none ∧ (∀ p, s.path p = GifPath.zero) ∧
    s.busy = false ∧ s.wakePending = false ∧ s.vsyncQueued = 0 ∧ s.restartLock = .free ∧ s.tallyWords = 0 ∧
    s.tallyCmds = 0 ∧ s.p3Progress = false ∧ s.session = .closed ∧ s.cstate = .off ∧ s.fault = none ∧
    s.unkCmdSeen = false ∧ s.backendTrace = [] ∧ s.sflTrace = [] ∧ s.periphTrace = [] ∧
    (∀ i, Memory.read s.ring i = none) ∧ (∀ a, Memory.read s.mirror a = none)

/-- The single-writer rule, in both directions: a step of C leaves everything P owns as it was, and every step of P leaves
everything C owns as it was, but for the acceptance of OPEN, which calls the backend and sets the items to their reset
values. -/
def Obligations.SingleWriter : Prop :=
  ∀ s t : State,
    (stepC s = .next t → sameProducerSide s t) ∧
    (stepP s = .next t →
      ¬ (s.producerIdle ∧ s.session = .closed ∧ s.resv = none ∧ ∃ r rest, s.port = r :: rest ∧ r.op = 0) →
      sameConsumerSide s t)

/-- No step changes a parameter; the three traces only grow, but for a successful OPEN, after which they hold its one call
on the backend; and the replies only grow. That OPEN's own call stays in the emptied trace is the model's reading (log
entry 8), and the replies are the model's own list (log entry 16). -/
def Obligations.ParametersFixedTracesGrow : Prop :=
  ∀ s t : State, step s = .next t →
    t.cfg = s.cfg ∧ (∃ xs, t.replies = s.replies ++ xs) ∧
    (((∃ xs, t.backendTrace = s.backendTrace ++ xs) ∧ (∃ xs, t.sflTrace = s.sflTrace ++ xs) ∧
        ∃ xs, t.periphTrace = s.periphTrace ++ xs) ∨
      (s.turn = .p ∧ s.session = .closed ∧ (∃ r rest, s.port = r :: rest ∧ r.op = 0) ∧ t.session = .opened ∧
        t.backendTrace = [.init true] ∧ t.sflTrace = [] ∧ t.periphTrace = []))

/-! ### Invariants -/

/-- Both invariants hold after hardware reset, for every value of the parameters in the ranges of 00_scope.md R7 (RING_LOG2
at most 32 for the live-region invariant, log entry 30); `State.reset` is one of these states. -/
def Obligations.InvariantsAtReset : Prop :=
  (∀ cfg : Params, cfg.wf = true →
    (State.resetWith cfg).Inv ∧ (cfg.ringLog2 ≤ 32 → (State.resetWith cfg).LiveInv)) ∧
  State.reset.Inv ∧ State.reset.LiveInv

/-- Every step of every state that meets the invariant keeps it. -/
def Obligations.StepKeepsInv : Prop := ∀ s t : State, s.Inv → step s = .next t → t.Inv

/-- The ranges of a GIFPath record are kept by every step but the one that takes over a foreign image: selectors at most
15, and `curreg` below the register count inside a tag. -/
def Obligations.StepKeepsRanges : Prop :=
  ∀ s t : State, (∀ p, GifPath.InRange (s.path p)) →
    (∀ image, s.pphase = .drain (.load image) → ∀ p, GifPath.InRange (GifPaths.get (Config.snapshotCodec.decode image) p)) →
    step s = .next t → ∀ p, GifPath.InRange (t.path p)

/-- Every step of every state that meets the live-region invariant keeps it: the live region stays a list of whole packets
from `read_pos` to `write_pos`, and `vsync_queued` counts the VSYNC packets in it. -/
def Obligations.StepKeepsLiveInv : Prop := ∀ s t : State, s.LiveInv → step s = .next t → t.LiveInv

/-- P never makes a ring with unconsumed packets look empty (10_state.md R38): no step of P makes the cursors equal, and
after every publish, onto an empty ring too, they differ, so that the published packet does not vanish. -/
def Obligations.ProducerNeverOvertakes : Prop :=
  ∀ s t : State, s.LiveInv → s.session = .opened → s.turn = .p → step s = .next t →
    (s.readPos ≠ s.writePos → t.readPos ≠ t.writePos) ∧
    (∀ offset size after, s.pSignal = false → s.pphase = .publish offset size after → t.readPos ≠ t.writePos)

/-- Packets are dequeued in exactly the order they were enqueued (10_state.md R40): a step of P leaves the list of live
packets alone or adds one at its end, the header it wrote at `write_pos`; a step of C leaves it alone or takes its
first; and the packet C dispatches is the first. OPEN, from a closed session, empties the list. -/
def Obligations.FirstInFirstOut : Prop :=
  ∀ s t : State, s.LiveInv → s.session = .opened → step s = .next t →
    ∃ hs ts, s.liveHeaders = some hs ∧ t.liveHeaders = some ts ∧
      (s.turn = .p → ts = hs ∨ ∃ h, Memory.read s.ring s.writePos = some h ∧ ts = hs ++ [h]) ∧
      (s.turn = .c → ts = hs ∨ ∃ h, hs = h :: ts) ∧
      (s.cstate = .draining → s.cphase = .dispatch →
        ∃ h rest, hs = h :: rest ∧ consumerFetch s = some (decodeHeader h))

/-- No ring slot is written by P while C may read it: a slot that a step of P changes lies outside the live region
(20_memory.md R79). -/
def Obligations.DataRaceFreedom : Prop :=
  ∀ (s t : State) (i : Nat), s.LiveInv → s.session = .opened → s.turn = .p → step s = .next t →
    Memory.read t.ring i ≠ Memory.read s.ring i → ¬ inRegion s.readPos s.liveEnd i

/-- Under the live-region invariant C never meets an unwritten slot and ERR_OVERTAKE is never raised. -/
def Obligations.NoInternalFaults : Prop :=
  ∀ s : State, s.LiveInv → s.fault = none →
    ∃ t, step s = .next t ∧ ∀ f, t.fault = some f → f.code ≠ .errOvertake
end

