-- ==== Sys2Proof/Laws/Encoding.lean ====
section
/-! SUPPORT. What the operand forms come to for the widths and counts that Config.lean holds: paths, halves of a REGLIST
word, the values and headers of the memory writes. -/

namespace Sys2Proof

/-! ### Paths and halves -/

/-- The paths by name (30_encoding.md R94). -/
theorem PathId.cases_eq (p : PathId) : p = .p0 ∨ p = .p1 ∨ p = .p2 := by
  revert p
  decide

/-- The halves by name (R107). -/
theorem Machine.Half.cases_eq (h : Machine.Half) : h = .lower ∨ h = .upper := by
  revert h
  decide

@[simp] theorem Machine.halves_eq : Machine.halves = [.lower, .upper] := by decide

@[simp] theorem Machine.reglistUnit_lower (w : Word) : Machine.reglistUnit .lower w = w.extractLsb' 0 64 := rfl

@[simp] theorem Machine.reglistUnit_upper (w : Word) : Machine.reglistUnit .upper w = w.extractLsb' 64 64 := rfl

/-- After the last half of a word, and after the unit that ends the tag, the word is consumed; otherwise the upper half
is next (41_gifpath.md R167, R168). -/
theorem Machine.ParseRun.afterUnit_eq (run : Machine.ParseRun) (more : Bool) :
    run.afterUnit more = if run.half = .lower ∧ more = true then { run with half := .upper } else run.take := by
  obtain ⟨path, taken, rest, half⟩ := run
  obtain rfl | rfl := Machine.Half.cases_eq half <;> cases more <;> rfl

/-- The records by path (10_state.md R24). -/
@[simp] theorem Machine.GifPaths.get_ofFn (f : PathId → GifPath) (p : PathId) :
    Machine.GifPaths.get (Vector.ofFn f) p = f p := by
  simp [Machine.GifPaths.get]

@[simp] theorem Machine.GifPaths.get_zero (p : PathId) : Machine.GifPaths.get GifPaths.zero p = GifPath.zero := by
  simp [Machine.GifPaths.get, GifPaths.zero]

/-- Two triples of records are equal when they agree on every path. -/
theorem Machine.GifPaths.ext {g g' : GifPaths} (h : ∀ p, Machine.GifPaths.get g p = Machine.GifPaths.get g' p) :
    g = g' := by
  ext1 i hi
  exact h ⟨i, hi⟩

/-! ### Memory writes (30_encoding.md R95) -/

theorem pair64_eq_append (hi lo : W32) : pair64 hi lo = hi ++ lo := by
  apply BitVec.eq_of_getLsbD_eq
  intro i h
  simp only [pair64, BitVec.getLsbD_or, BitVec.getLsbD_shiftLeft, BitVec.getLsbD_setWidth, BitVec.getLsbD_append]
  by_cases hl : i < 32
  · simp [hl, h]
  · simp [hl, h, BitVec.getLsbD_of_ge lo i (by omega), show i - 32 < 64 by omega]

/-- A value of up to 32 bits is in `data[1]` alone. -/
theorem memWriteValue_low {k : Nat} (hk : k ≤ 32) (d1 d2 : W32) : memWriteValue k d1 d2 = d1.setWidth k := by
  rw [memWriteValue, pair64_eq_append]
  apply BitVec.eq_of_getLsbD_eq
  intro i h
  rw [BitVec.getLsbD_setWidth, BitVec.getLsbD_setWidth, BitVec.getLsbD_append, if_pos (by omega)]

theorem memWriteValue_w8 (d1 d2 : W32) : memWriteValue 8 d1 d2 = d1.extractLsb' 0 8 := by
  rw [memWriteValue_low (by omega), BitVec.setWidth_eq_extractLsb' (by omega)]

theorem memWriteValue_w16 (d1 d2 : W32) : memWriteValue 16 d1 d2 = d1.extractLsb' 0 16 := by
  rw [memWriteValue_low (by omega), BitVec.setWidth_eq_extractLsb' (by omega)]

theorem memWriteValue_w32 (d1 d2 : W32) : memWriteValue 32 d1 d2 = d1 := by
  rw [memWriteValue_low (by omega), BitVec.setWidth_eq]

theorem memWriteValue_w64 (d1 d2 : W32) : memWriteValue 64 d1 d2 = d2 ++ d1 := by
  rw [memWriteValue, pair64_eq_append]
  exact BitVec.setWidth_eq _

/-- The words a memory write's header carries give its value back, for a width of up to 64 bits. -/
theorem memWriteValue_of_words {k : Nat} (hk : k ≤ 64) (v : BitVec k) :
    memWriteValue k ((v.setWidth 64).extractLsb' 0 32) ((v.setWidth 64).extractLsb' 32 32) = v := by
  rw [memWriteValue, pair64_eq_append]
  apply BitVec.eq_of_getLsbD_eq
  intro i h
  simp only [BitVec.getLsbD_setWidth, BitVec.getLsbD_append, BitVec.getLsbD_extractLsb', h, decide_true, Bool.true_and]
  by_cases hl : i < 32
  · simp [hl, show i < 64 by omega]
  · simp [hl, show i - 32 < 32 by omega, show 32 + (i - 32) = i by omega, show i < 64 by omega]

end Sys2Proof
end

