-- ==== Sys2Proof/Laws/Memory.lean ====
section
/-! SUPPORT. The laws of memory: a read after a write, what a write leaves alone, the same for spans, and that every memory
operation keeps the canonical form and the bound. Proofs about the ring and the mirror go through these. -/

namespace Sys2Proof.Machine

variable {α : Type}

/-! ### One cell -/

@[simp] theorem Memory.read_write_self (m : Memory α) (a : Nat) (v : α) :
    Memory.read (Memory.write m a v) a = some v := by
  induction m with
  | nil => simp [Memory.write, Memory.read]
  | cons c rest ih =>
    obtain ⟨b, x⟩ := c
    simp only [Memory.write]
    split
    · simp [Memory.read]
    · split
      · simp [Memory.read]
      · rename_i h
        simp [Memory.read, h, ih]

theorem Memory.read_write_other (m : Memory α) {a b : Nat} (v : α) (h : b ≠ a) :
    Memory.read (Memory.write m a v) b = Memory.read m b := by
  induction m with
  | nil => simp [Memory.write, Memory.read, h]
  | cons c rest ih =>
    obtain ⟨k, x⟩ := c
    simp only [Memory.write]
    split
    · simp [Memory.read, h]
    · split
      · rename_i hk
        subst hk
        simp [Memory.read, h]
      · simp [Memory.read, ih]

/-- One cell after a write, both cases at once. -/
theorem Memory.read_write (m : Memory α) (a b : Nat) (v : α) :
    Memory.read (Memory.write m a v) b = if b = a then some v else Memory.read m b := by
  split
  · rename_i h
    simp [h]
  · rename_i h
    exact Memory.read_write_other m v h

/-! ### Spans -/

theorem Memory.read_writeSpan_outside (m : Memory α) (a b : Nat) (vs : List α) (h : b < a ∨ a + vs.length ≤ b) :
    Memory.read (Memory.writeSpan m a vs) b = Memory.read m b := by
  induction vs generalizing m a with
  | nil => rfl
  | cons v rest ih =>
    simp only [List.length_cons] at h
    rw [Memory.writeSpan, ih _ _ (by omega), Memory.read_write_other _ _ (by omega)]

theorem Memory.read_writeSpan_inside (m : Memory α) (a k : Nat) (vs : List α) (h : k < vs.length) :
    Memory.read (Memory.writeSpan m a vs) (a + k) = vs[k]? := by
  induction vs generalizing m a k with
  | nil => simp at h
  | cons v rest ih =>
    rw [Memory.writeSpan]
    cases k with
    | zero => rw [Memory.read_writeSpan_outside _ _ _ _ (by omega)]; simp
    | succ j =>
      have := ih (Memory.write m a v) (a + 1) j (by simpa using h)
      rw [show a + (j + 1) = a + 1 + j by omega, this]
      simp

/-- A cell after a span is written, both cases at once. -/
theorem Memory.read_writeSpan (m : Memory α) (a b : Nat) (vs : List α) :
    Memory.read (Memory.writeSpan m a vs) b =
      if a ≤ b ∧ b < a + vs.length then vs[b - a]? else Memory.read m b := by
  split
  · rename_i h
    have := Memory.read_writeSpan_inside m a (b - a) vs (by omega)
    rwa [show a + (b - a) = b by omega] at this
  · exact Memory.read_writeSpan_outside m a b vs (by omega)

/-- A span reads as the list of its cells. -/
theorem Memory.readSpan_eq_some (m : Memory α) (a n : Nat) (vs : List α) :
    Memory.readSpan m a n = some vs ↔ vs.length = n ∧ ∀ k, k < n → Memory.read m (a + k) = vs[k]? := by
  induction n generalizing a vs with
  | zero =>
    rw [Memory.readSpan]
    constructor
    · rintro h
      cases h
      simp
    · rintro ⟨h, -⟩
      rw [List.length_eq_zero_iff.mp h]
  | succ n ih =>
    rw [Memory.readSpan]
    cases hm : Memory.read m a with
    | none =>
      constructor
      · intro h
        cases h
      · rintro ⟨h, h0⟩
        have := h0 0 (by omega)
        rw [Nat.add_zero, hm, List.getElem?_eq_getElem (by omega)] at this
        cases this
    | some x =>
      simp only [Option.map_eq_some_iff]
      constructor
      · rintro ⟨ws, hws, rfl⟩
        obtain ⟨hl, hk⟩ := (ih _ _).mp hws
        refine ⟨by simp [hl], fun k hkn => ?_⟩
        cases k with
        | zero => simpa using hm
        | succ j => simpa [show a + (j + 1) = a + 1 + j by omega] using hk j (by omega)
      · rintro ⟨hl, hk⟩
        cases vs with
        | nil => simp at hl
        | cons w ws =>
          have h0 := hk 0 (by omega)
          simp only [Nat.add_zero, hm, List.getElem?_cons_zero, Option.some.injEq] at h0
          refine ⟨ws, (ih _ _).mpr ⟨by simpa using hl, fun j hj => ?_⟩, by rw [h0]⟩
          simpa [show a + (j + 1) = a + 1 + j by omega] using hk (j + 1) (by omega)

/-- Reading back the span just written. -/
@[simp] theorem Memory.readSpan_writeSpan_self (m : Memory α) (a : Nat) (vs : List α) :
    Memory.readSpan (Memory.writeSpan m a vs) a vs.length = some vs :=
  (Memory.readSpan_eq_some _ _ _ _).mpr ⟨rfl, fun k hk => Memory.read_writeSpan_inside m a k vs hk⟩

/-- Two memories that agree on a span read the same there. -/
theorem Memory.readSpan_congr (m m' : Memory α) (a n : Nat)
    (h : ∀ k, k < n → Memory.read m (a + k) = Memory.read m' (a + k)) :
    Memory.readSpan m a n = Memory.readSpan m' a n := by
  induction n generalizing a with
  | zero => rfl
  | succ n ih =>
    have h0 := h 0 (by omega)
    rw [Nat.add_zero] at h0
    simp only [Memory.readSpan, h0]
    rw [ih (a + 1) fun k hk => by simpa [show a + 1 + k = a + (k + 1) by omega] using h (k + 1) (by omega)]

/-! ### The canonical form -/

/-- The form, as a property of the head and the rest. -/
theorem Memory.wf_cons (a : Nat) (x : α) (rest : Memory α) :
    Memory.wf ((a, x) :: rest) = true ↔ (∀ c ∈ rest.head?, a < c.1) ∧ Memory.wf rest = true := by
  cases rest with
  | nil => simp [Memory.wf]
  | cons c rest => simp [Memory.wf]

theorem Memory.head?_write (m : Memory α) (a : Nat) (v : α) :
    ∀ c ∈ (Memory.write m a v).head?, c.1 = a ∨ c ∈ m.head? ∧ c.1 < a := by
  intro c hc
  cases m with
  | nil =>
    simp only [Memory.write, List.head?_cons, Option.mem_some_iff] at hc
    exact .inl (by rw [← hc])
  | cons d rest =>
    obtain ⟨b, x⟩ := d
    simp only [Memory.write] at hc
    split at hc
    · simp only [List.head?_cons, Option.mem_some_iff] at hc
      exact .inl (by rw [← hc])
    · split at hc
      · simp only [List.head?_cons, Option.mem_some_iff] at hc
        exact .inl (by rw [← hc])
      · simp only [List.head?_cons, Option.mem_some_iff] at hc ⊢
        subst hc
        exact .inr ⟨rfl, by omega⟩

theorem Memory.wf_write (m : Memory α) (a : Nat) (v : α) (h : Memory.wf m = true) :
    Memory.wf (Memory.write m a v) = true := by
  induction m with
  | nil => rfl
  | cons d rest ih =>
    obtain ⟨b, x⟩ := d
    obtain ⟨hb, hr⟩ := (Memory.wf_cons b x rest).mp h
    simp only [Memory.write]
    split
    · rename_i hab
      exact (Memory.wf_cons a v _).mpr ⟨by simpa using hab, h⟩
    · split
      · rename_i hab
        subst hab
        exact (Memory.wf_cons a v rest).mpr ⟨hb, hr⟩
      · refine (Memory.wf_cons b x _).mpr ⟨fun c hc => ?_, ih hr⟩
        rcases Memory.head?_write rest a v c hc with hc | hc
        · omega
        · exact hb c hc.1

theorem Memory.wf_writeSpan (m : Memory α) (a : Nat) (vs : List α) (h : Memory.wf m = true) :
    Memory.wf (Memory.writeSpan m a vs) = true := by
  induction vs generalizing m a with
  | nil => exact h
  | cons v rest ih => exact ih _ _ (Memory.wf_write m a v h)

theorem Memory.below_write (m : Memory α) (a bound : Nat) (v : α) (ha : a < bound)
    (h : Memory.below m bound = true) : Memory.below (Memory.write m a v) bound = true := by
  induction m with
  | nil => simpa [Memory.write, Memory.below] using ha
  | cons d rest ih =>
    obtain ⟨b, x⟩ := d
    simp only [Memory.below, List.all_cons, Bool.and_eq_true, decide_eq_true_eq] at h ih
    simp only [Memory.write]
    split
    · simpa [Memory.below, ha] using h
    · split
      · simpa [Memory.below, ha] using h.2
      · simpa [Memory.below, h.1] using ih h.2

theorem Memory.below_writeSpan (m : Memory α) (a bound : Nat) (vs : List α) (ha : a + vs.length ≤ bound)
    (h : Memory.below m bound = true) : Memory.below (Memory.writeSpan m a vs) bound = true := by
  induction vs generalizing m a with
  | nil => exact h
  | cons v rest ih =>
    simp only [List.length_cons] at ha
    exact ih _ _ (by omega) (Memory.below_write m a bound v (by omega) h)

/-- In the canonical form a memory is what its cells read as: equal reads are equal data. -/
theorem Memory.ext_of_wf (m m' : Memory α) (h : Memory.wf m = true) (h' : Memory.wf m' = true)
    (hr : ∀ a, Memory.read m a = Memory.read m' a) : m = m' := by
  have key : ∀ (b : Nat) (x : α) (rest : Memory α), Memory.wf ((b, x) :: rest) = true →
      ∀ a, a ≤ b → Memory.read rest a = none := by
    intro b x rest
    induction rest generalizing b x with
    | nil => intros; rfl
    | cons c rest ih =>
      obtain ⟨k, y⟩ := c
      intro hw a ha
      obtain ⟨hb, hw'⟩ := (Memory.wf_cons b x _).mp hw
      have hk : b < k := by simpa using hb
      rw [Memory.read, if_neg (by omega)]
      exact ih k y hw' a (by omega)
  induction m generalizing m' with
  | nil =>
    cases m' with
    | nil => rfl
    | cons d rest' =>
      obtain ⟨b, x⟩ := d
      have := hr b
      simp [Memory.read] at this
  | cons c rest ih =>
    obtain ⟨a, x⟩ := c
    cases m' with
    | nil =>
      have := hr a
      simp [Memory.read] at this
    | cons d rest' =>
      obtain ⟨b, y⟩ := d
      have hab : a = b := by
        have h1 := hr a
        have h2 := hr b
        simp only [Memory.read, if_pos] at h1 h2
        by_contra hne
        rw [if_neg hne] at h1
        rw [if_neg (Ne.symm hne)] at h2
        rcases Nat.lt_or_gt_of_ne hne with hlt | hlt
        · rw [key b y rest' h' a (by omega)] at h1
          cases h1
        · rw [key a x rest h b (by omega)] at h2
          cases h2
      subst hab
      have hxy : x = y := by simpa [Memory.read] using hr a
      subst hxy
      congr 1
      refine ih rest' ((Memory.wf_cons a x rest).mp h).2 ((Memory.wf_cons a x rest').mp h').2 fun k => ?_
      by_cases hk : k ≤ a
      · rw [key a x rest h k hk, key a x rest' h' k hk]
      · have := hr k
        simpa [Memory.read, show k ≠ a by omega] using this

/-! ### The memories of the state -/

/-- The memories are in canonical form at reset: nothing is listed. -/
theorem reset_memories_wf (cfg : Params) :
    Memory.wf (State.resetWith cfg).ring = true ∧ Memory.wf (State.resetWith cfg).mirror = true := ⟨rfl, rfl⟩

@[simp] theorem leBytes_length (n : Nat) (v : W64) : (leBytes n v).length = n := by
  simp [leBytes]

/-- A mirror byte after a memory write of `n` bytes: byte `k` is the value's bits `8k + 7` to `8k` (R63, R66). -/
theorem memWrite_read (addr n b : Nat) (v : W64) (s : State) :
    Memory.read (memWrite addr n v s).mirror b =
      if addr ≤ b ∧ b < addr + n then some (v.extractLsb' (8 * (b - addr)) 8) else Memory.read s.mirror b := by
  simp only [memWrite, Memory.read_writeSpan, leBytes_length]
  split
  · rename_i h
    simp [leBytes, show b - addr < n by omega]
  · rfl

end Sys2Proof.Machine
end

