-- ==== Sys2Proof/Laws/State.lean ====
section
/-! SUPPORT. What each named update of the state leaves in each field: one lemma per field per update, so that no proof
unfolds a record update; and the same for the conditional updates built from them. -/

namespace Sys2Proof.Machine

variable (s : State)

/-! ### `ringWrite` -/

@[simp] theorem ringWrite_writePos (i : Nat) (w : Word) : (ringWrite i w s).writePos = s.writePos := rfl
@[simp] theorem ringWrite_readPos (i : Nat) (w : Word) : (ringWrite i w s).readPos = s.readPos := rfl
@[simp] theorem ringWrite_resv (i : Nat) (w : Word) : (ringWrite i w s).resv = s.resv := rfl
@[simp] theorem ringWrite_paths (i : Nat) (w : Word) : (ringWrite i w s).paths = s.paths := rfl
@[simp] theorem ringWrite_busy (i : Nat) (w : Word) : (ringWrite i w s).busy = s.busy := rfl
@[simp] theorem ringWrite_wakePending (i : Nat) (w : Word) : (ringWrite i w s).wakePending = s.wakePending := rfl
@[simp] theorem ringWrite_vsyncQueued (i : Nat) (w : Word) : (ringWrite i w s).vsyncQueued = s.vsyncQueued := rfl
@[simp] theorem ringWrite_restartLock (i : Nat) (w : Word) : (ringWrite i w s).restartLock = s.restartLock := rfl
@[simp] theorem ringWrite_tallyWords (i : Nat) (w : Word) : (ringWrite i w s).tallyWords = s.tallyWords := rfl
@[simp] theorem ringWrite_tallyCmds (i : Nat) (w : Word) : (ringWrite i w s).tallyCmds = s.tallyCmds := rfl
@[simp] theorem ringWrite_p3Progress (i : Nat) (w : Word) : (ringWrite i w s).p3Progress = s.p3Progress := rfl
@[simp] theorem ringWrite_session (i : Nat) (w : Word) : (ringWrite i w s).session = s.session := rfl
@[simp] theorem ringWrite_cstate (i : Nat) (w : Word) : (ringWrite i w s).cstate = s.cstate := rfl
@[simp] theorem ringWrite_fault (i : Nat) (w : Word) : (ringWrite i w s).fault = s.fault := rfl
@[simp] theorem ringWrite_unkCmdSeen (i : Nat) (w : Word) : (ringWrite i w s).unkCmdSeen = s.unkCmdSeen := rfl
@[simp] theorem ringWrite_ring (i : Nat) (w : Word) : (ringWrite i w s).ring = Memory.write s.ring i w := rfl
@[simp] theorem ringWrite_mirror (i : Nat) (w : Word) : (ringWrite i w s).mirror = s.mirror := rfl
@[simp] theorem ringWrite_backendTrace (i : Nat) (w : Word) : (ringWrite i w s).backendTrace = s.backendTrace := rfl
@[simp] theorem ringWrite_sflTrace (i : Nat) (w : Word) : (ringWrite i w s).sflTrace = s.sflTrace := rfl
@[simp] theorem ringWrite_periphTrace (i : Nat) (w : Word) : (ringWrite i w s).periphTrace = s.periphTrace := rfl
@[simp] theorem ringWrite_port (i : Nat) (w : Word) : (ringWrite i w s).port = s.port := rfl
@[simp] theorem ringWrite_pphase (i : Nat) (w : Word) : (ringWrite i w s).pphase = s.pphase := rfl
@[simp] theorem ringWrite_pSignal (i : Nat) (w : Word) : (ringWrite i w s).pSignal = s.pSignal := rfl
@[simp] theorem ringWrite_cphase (i : Nat) (w : Word) : (ringWrite i w s).cphase = s.cphase := rfl
@[simp] theorem ringWrite_replies (i : Nat) (w : Word) : (ringWrite i w s).replies = s.replies := rfl
@[simp] theorem ringWrite_cfg (i : Nat) (w : Word) : (ringWrite i w s).cfg = s.cfg := rfl
@[simp] theorem ringWrite_endlessCall (i : Nat) (w : Word) : (ringWrite i w s).endlessCall = s.endlessCall := rfl
@[simp] theorem ringWrite_turn (i : Nat) (w : Word) : (ringWrite i w s).turn = s.turn := rfl
@[simp] theorem ringWrite_moves (i : Nat) (w : Word) : (ringWrite i w s).moves = s.moves := rfl
@[simp] theorem ringWrite_draws (i : Nat) (w : Word) : (ringWrite i w s).draws = s.draws := rfl
@[simp] theorem ringWrite_capacity (i : Nat) (w : Word) : (ringWrite i w s).capacity = s.capacity := rfl
@[simp] theorem ringWrite_wrap (i : Nat) (w : Word) (x : Nat) : (ringWrite i w s).wrap x = s.wrap x := rfl
@[simp] theorem ringWrite_path (i : Nat) (w : Word) (q : PathId) : (ringWrite i w s).path q = s.path q := rfl

/-! ### `ringWriteSpan` -/

@[simp] theorem ringWriteSpan_writePos (i : Nat) (ws : List Word) : (ringWriteSpan i ws s).writePos = s.writePos := rfl
@[simp] theorem ringWriteSpan_readPos (i : Nat) (ws : List Word) : (ringWriteSpan i ws s).readPos = s.readPos := rfl
@[simp] theorem ringWriteSpan_resv (i : Nat) (ws : List Word) : (ringWriteSpan i ws s).resv = s.resv := rfl
@[simp] theorem ringWriteSpan_paths (i : Nat) (ws : List Word) : (ringWriteSpan i ws s).paths = s.paths := rfl
@[simp] theorem ringWriteSpan_busy (i : Nat) (ws : List Word) : (ringWriteSpan i ws s).busy = s.busy := rfl
@[simp] theorem ringWriteSpan_wakePending (i : Nat) (ws : List Word) : (ringWriteSpan i ws s).wakePending = s.wakePending :=
    rfl
@[simp] theorem ringWriteSpan_vsyncQueued (i : Nat) (ws : List Word) : (ringWriteSpan i ws s).vsyncQueued = s.vsyncQueued :=
    rfl
@[simp] theorem ringWriteSpan_restartLock (i : Nat) (ws : List Word) : (ringWriteSpan i ws s).restartLock = s.restartLock :=
    rfl
@[simp] theorem ringWriteSpan_tallyWords (i : Nat) (ws : List Word) : (ringWriteSpan i ws s).tallyWords = s.tallyWords :=
    rfl
@[simp] theorem ringWriteSpan_tallyCmds (i : Nat) (ws : List Word) : (ringWriteSpan i ws s).tallyCmds = s.tallyCmds :=
    rfl
@[simp] theorem ringWriteSpan_p3Progress (i : Nat) (ws : List Word) : (ringWriteSpan i ws s).p3Progress = s.p3Progress :=
    rfl
@[simp] theorem ringWriteSpan_session (i : Nat) (ws : List Word) : (ringWriteSpan i ws s).session = s.session := rfl
@[simp] theorem ringWriteSpan_cstate (i : Nat) (ws : List Word) : (ringWriteSpan i ws s).cstate = s.cstate := rfl
@[simp] theorem ringWriteSpan_fault (i : Nat) (ws : List Word) : (ringWriteSpan i ws s).fault = s.fault := rfl
@[simp] theorem ringWriteSpan_unkCmdSeen (i : Nat) (ws : List Word) : (ringWriteSpan i ws s).unkCmdSeen = s.unkCmdSeen :=
    rfl
@[simp] theorem ringWriteSpan_ring (i : Nat) (ws : List Word) : (ringWriteSpan i ws s).ring = Memory.writeSpan s.ring i ws :=
    rfl
@[simp] theorem ringWriteSpan_mirror (i : Nat) (ws : List Word) : (ringWriteSpan i ws s).mirror = s.mirror := rfl
@[simp] theorem ringWriteSpan_backendTrace (i : Nat) (ws : List Word) : (ringWriteSpan i ws s).backendTrace = s.backendTrace :=
    rfl
@[simp] theorem ringWriteSpan_sflTrace (i : Nat) (ws : List Word) : (ringWriteSpan i ws s).sflTrace = s.sflTrace := rfl
@[simp] theorem ringWriteSpan_periphTrace (i : Nat) (ws : List Word) : (ringWriteSpan i ws s).periphTrace = s.periphTrace :=
    rfl
@[simp] theorem ringWriteSpan_port (i : Nat) (ws : List Word) : (ringWriteSpan i ws s).port = s.port := rfl
@[simp] theorem ringWriteSpan_pphase (i : Nat) (ws : List Word) : (ringWriteSpan i ws s).pphase = s.pphase := rfl
@[simp] theorem ringWriteSpan_pSignal (i : Nat) (ws : List Word) : (ringWriteSpan i ws s).pSignal = s.pSignal := rfl
@[simp] theorem ringWriteSpan_cphase (i : Nat) (ws : List Word) : (ringWriteSpan i ws s).cphase = s.cphase := rfl
@[simp] theorem ringWriteSpan_replies (i : Nat) (ws : List Word) : (ringWriteSpan i ws s).replies = s.replies := rfl
@[simp] theorem ringWriteSpan_cfg (i : Nat) (ws : List Word) : (ringWriteSpan i ws s).cfg = s.cfg := rfl
@[simp] theorem ringWriteSpan_endlessCall (i : Nat) (ws : List Word) : (ringWriteSpan i ws s).endlessCall = s.endlessCall :=
    rfl
@[simp] theorem ringWriteSpan_turn (i : Nat) (ws : List Word) : (ringWriteSpan i ws s).turn = s.turn := rfl
@[simp] theorem ringWriteSpan_moves (i : Nat) (ws : List Word) : (ringWriteSpan i ws s).moves = s.moves := rfl
@[simp] theorem ringWriteSpan_draws (i : Nat) (ws : List Word) : (ringWriteSpan i ws s).draws = s.draws := rfl
@[simp] theorem ringWriteSpan_capacity (i : Nat) (ws : List Word) : (ringWriteSpan i ws s).capacity = s.capacity := rfl
@[simp] theorem ringWriteSpan_wrap (i : Nat) (ws : List Word) (x : Nat) : (ringWriteSpan i ws s).wrap x = s.wrap x := rfl
@[simp] theorem ringWriteSpan_path (i : Nat) (ws : List Word) (q : PathId) : (ringWriteSpan i ws s).path q = s.path q := rfl

/-! ### `memWrite` -/

@[simp] theorem memWrite_writePos (a n : Nat) (v : W64) : (memWrite a n v s).writePos = s.writePos := rfl
@[simp] theorem memWrite_readPos (a n : Nat) (v : W64) : (memWrite a n v s).readPos = s.readPos := rfl
@[simp] theorem memWrite_resv (a n : Nat) (v : W64) : (memWrite a n v s).resv = s.resv := rfl
@[simp] theorem memWrite_paths (a n : Nat) (v : W64) : (memWrite a n v s).paths = s.paths := rfl
@[simp] theorem memWrite_busy (a n : Nat) (v : W64) : (memWrite a n v s).busy = s.busy := rfl
@[simp] theorem memWrite_wakePending (a n : Nat) (v : W64) : (memWrite a n v s).wakePending = s.wakePending := rfl
@[simp] theorem memWrite_vsyncQueued (a n : Nat) (v : W64) : (memWrite a n v s).vsyncQueued = s.vsyncQueued := rfl
@[simp] theorem memWrite_restartLock (a n : Nat) (v : W64) : (memWrite a n v s).restartLock = s.restartLock := rfl
@[simp] theorem memWrite_tallyWords (a n : Nat) (v : W64) : (memWrite a n v s).tallyWords = s.tallyWords := rfl
@[simp] theorem memWrite_tallyCmds (a n : Nat) (v : W64) : (memWrite a n v s).tallyCmds = s.tallyCmds := rfl
@[simp] theorem memWrite_p3Progress (a n : Nat) (v : W64) : (memWrite a n v s).p3Progress = s.p3Progress := rfl
@[simp] theorem memWrite_session (a n : Nat) (v : W64) : (memWrite a n v s).session = s.session := rfl
@[simp] theorem memWrite_cstate (a n : Nat) (v : W64) : (memWrite a n v s).cstate = s.cstate := rfl
@[simp] theorem memWrite_fault (a n : Nat) (v : W64) : (memWrite a n v s).fault = s.fault := rfl
@[simp] theorem memWrite_unkCmdSeen (a n : Nat) (v : W64) : (memWrite a n v s).unkCmdSeen = s.unkCmdSeen := rfl
@[simp] theorem memWrite_ring (a n : Nat) (v : W64) : (memWrite a n v s).ring = s.ring := rfl
@[simp] theorem memWrite_mirror (a n : Nat) (v : W64) : (memWrite a n v s).mirror = Memory.writeSpan s.mirror a (leBytes n v) :=
    rfl
@[simp] theorem memWrite_backendTrace (a n : Nat) (v : W64) : (memWrite a n v s).backendTrace = s.backendTrace := rfl
@[simp] theorem memWrite_sflTrace (a n : Nat) (v : W64) : (memWrite a n v s).sflTrace = s.sflTrace := rfl
@[simp] theorem memWrite_periphTrace (a n : Nat) (v : W64) : (memWrite a n v s).periphTrace = s.periphTrace := rfl
@[simp] theorem memWrite_port (a n : Nat) (v : W64) : (memWrite a n v s).port = s.port := rfl
@[simp] theorem memWrite_pphase (a n : Nat) (v : W64) : (memWrite a n v s).pphase = s.pphase := rfl
@[simp] theorem memWrite_pSignal (a n : Nat) (v : W64) : (memWrite a n v s).pSignal = s.pSignal := rfl
@[simp] theorem memWrite_cphase (a n : Nat) (v : W64) : (memWrite a n v s).cphase = s.cphase := rfl
@[simp] theorem memWrite_replies (a n : Nat) (v : W64) : (memWrite a n v s).replies = s.replies := rfl
@[simp] theorem memWrite_cfg (a n : Nat) (v : W64) : (memWrite a n v s).cfg = s.cfg := rfl
@[simp] theorem memWrite_endlessCall (a n : Nat) (v : W64) : (memWrite a n v s).endlessCall = s.endlessCall := rfl
@[simp] theorem memWrite_turn (a n : Nat) (v : W64) : (memWrite a n v s).turn = s.turn := rfl
@[simp] theorem memWrite_moves (a n : Nat) (v : W64) : (memWrite a n v s).moves = s.moves := rfl
@[simp] theorem memWrite_draws (a n : Nat) (v : W64) : (memWrite a n v s).draws = s.draws := rfl
@[simp] theorem memWrite_capacity (a n : Nat) (v : W64) : (memWrite a n v s).capacity = s.capacity := rfl
@[simp] theorem memWrite_wrap (a n : Nat) (v : W64) (x : Nat) : (memWrite a n v s).wrap x = s.wrap x := rfl
@[simp] theorem memWrite_path (a n : Nat) (v : W64) (q : PathId) : (memWrite a n v s).path q = s.path q := rfl

/-! ### `emitBackend` -/

@[simp] theorem emitBackend_writePos (c : BackendCall) : (emitBackend c s).writePos = s.writePos := rfl
@[simp] theorem emitBackend_readPos (c : BackendCall) : (emitBackend c s).readPos = s.readPos := rfl
@[simp] theorem emitBackend_resv (c : BackendCall) : (emitBackend c s).resv = s.resv := rfl
@[simp] theorem emitBackend_paths (c : BackendCall) : (emitBackend c s).paths = s.paths := rfl
@[simp] theorem emitBackend_busy (c : BackendCall) : (emitBackend c s).busy = s.busy := rfl
@[simp] theorem emitBackend_wakePending (c : BackendCall) : (emitBackend c s).wakePending = s.wakePending := rfl
@[simp] theorem emitBackend_vsyncQueued (c : BackendCall) : (emitBackend c s).vsyncQueued = s.vsyncQueued := rfl
@[simp] theorem emitBackend_restartLock (c : BackendCall) : (emitBackend c s).restartLock = s.restartLock := rfl
@[simp] theorem emitBackend_tallyWords (c : BackendCall) : (emitBackend c s).tallyWords = s.tallyWords := rfl
@[simp] theorem emitBackend_tallyCmds (c : BackendCall) : (emitBackend c s).tallyCmds = s.tallyCmds := rfl
@[simp] theorem emitBackend_p3Progress (c : BackendCall) : (emitBackend c s).p3Progress = s.p3Progress := rfl
@[simp] theorem emitBackend_session (c : BackendCall) : (emitBackend c s).session = s.session := rfl
@[simp] theorem emitBackend_cstate (c : BackendCall) : (emitBackend c s).cstate = s.cstate := rfl
@[simp] theorem emitBackend_fault (c : BackendCall) : (emitBackend c s).fault = s.fault := rfl
@[simp] theorem emitBackend_unkCmdSeen (c : BackendCall) : (emitBackend c s).unkCmdSeen = s.unkCmdSeen := rfl
@[simp] theorem emitBackend_ring (c : BackendCall) : (emitBackend c s).ring = s.ring := rfl
@[simp] theorem emitBackend_mirror (c : BackendCall) : (emitBackend c s).mirror = s.mirror := rfl
@[simp] theorem emitBackend_backendTrace (c : BackendCall) : (emitBackend c s).backendTrace = s.backendTrace ++ [c] :=
    rfl
@[simp] theorem emitBackend_sflTrace (c : BackendCall) : (emitBackend c s).sflTrace = s.sflTrace := rfl
@[simp] theorem emitBackend_periphTrace (c : BackendCall) : (emitBackend c s).periphTrace = s.periphTrace := rfl
@[simp] theorem emitBackend_port (c : BackendCall) : (emitBackend c s).port = s.port := rfl
@[simp] theorem emitBackend_pphase (c : BackendCall) : (emitBackend c s).pphase = s.pphase := rfl
@[simp] theorem emitBackend_pSignal (c : BackendCall) : (emitBackend c s).pSignal = s.pSignal := rfl
@[simp] theorem emitBackend_cphase (c : BackendCall) : (emitBackend c s).cphase = s.cphase := rfl
@[simp] theorem emitBackend_replies (c : BackendCall) : (emitBackend c s).replies = s.replies := rfl
@[simp] theorem emitBackend_cfg (c : BackendCall) : (emitBackend c s).cfg = s.cfg := rfl
@[simp] theorem emitBackend_endlessCall (c : BackendCall) : (emitBackend c s).endlessCall = s.endlessCall := rfl
@[simp] theorem emitBackend_turn (c : BackendCall) : (emitBackend c s).turn = s.turn := rfl
@[simp] theorem emitBackend_moves (c : BackendCall) : (emitBackend c s).moves = s.moves := rfl
@[simp] theorem emitBackend_draws (c : BackendCall) : (emitBackend c s).draws = s.draws := rfl
@[simp] theorem emitBackend_capacity (c : BackendCall) : (emitBackend c s).capacity = s.capacity := rfl
@[simp] theorem emitBackend_wrap (c : BackendCall) (x : Nat) : (emitBackend c s).wrap x = s.wrap x := rfl
@[simp] theorem emitBackend_path (c : BackendCall) (q : PathId) : (emitBackend c s).path q = s.path q := rfl

/-! ### `emitPeriph` -/

@[simp] theorem emitPeriph_writePos (h : Periph) : (emitPeriph h s).writePos = s.writePos := rfl
@[simp] theorem emitPeriph_readPos (h : Periph) : (emitPeriph h s).readPos = s.readPos := rfl
@[simp] theorem emitPeriph_resv (h : Periph) : (emitPeriph h s).resv = s.resv := rfl
@[simp] theorem emitPeriph_paths (h : Periph) : (emitPeriph h s).paths = s.paths := rfl
@[simp] theorem emitPeriph_busy (h : Periph) : (emitPeriph h s).busy = s.busy := rfl
@[simp] theorem emitPeriph_wakePending (h : Periph) : (emitPeriph h s).wakePending = s.wakePending := rfl
@[simp] theorem emitPeriph_vsyncQueued (h : Periph) : (emitPeriph h s).vsyncQueued = s.vsyncQueued := rfl
@[simp] theorem emitPeriph_restartLock (h : Periph) : (emitPeriph h s).restartLock = s.restartLock := rfl
@[simp] theorem emitPeriph_tallyWords (h : Periph) : (emitPeriph h s).tallyWords = s.tallyWords := rfl
@[simp] theorem emitPeriph_tallyCmds (h : Periph) : (emitPeriph h s).tallyCmds = s.tallyCmds := rfl
@[simp] theorem emitPeriph_p3Progress (h : Periph) : (emitPeriph h s).p3Progress = s.p3Progress := rfl
@[simp] theorem emitPeriph_session (h : Periph) : (emitPeriph h s).session = s.session := rfl
@[simp] theorem emitPeriph_cstate (h : Periph) : (emitPeriph h s).cstate = s.cstate := rfl
@[simp] theorem emitPeriph_fault (h : Periph) : (emitPeriph h s).fault = s.fault := rfl
@[simp] theorem emitPeriph_unkCmdSeen (h : Periph) : (emitPeriph h s).unkCmdSeen = s.unkCmdSeen := rfl
@[simp] theorem emitPeriph_ring (h : Periph) : (emitPeriph h s).ring = s.ring := rfl
@[simp] theorem emitPeriph_mirror (h : Periph) : (emitPeriph h s).mirror = s.mirror := rfl
@[simp] theorem emitPeriph_backendTrace (h : Periph) : (emitPeriph h s).backendTrace = s.backendTrace := rfl
@[simp] theorem emitPeriph_sflTrace (h : Periph) : (emitPeriph h s).sflTrace = s.sflTrace := rfl
@[simp] theorem emitPeriph_periphTrace (h : Periph) : (emitPeriph h s).periphTrace = s.periphTrace ++ [h] := rfl
@[simp] theorem emitPeriph_port (h : Periph) : (emitPeriph h s).port = s.port := rfl
@[simp] theorem emitPeriph_pphase (h : Periph) : (emitPeriph h s).pphase = s.pphase := rfl
@[simp] theorem emitPeriph_pSignal (h : Periph) : (emitPeriph h s).pSignal = s.pSignal := rfl
@[simp] theorem emitPeriph_cphase (h : Periph) : (emitPeriph h s).cphase = s.cphase := rfl
@[simp] theorem emitPeriph_replies (h : Periph) : (emitPeriph h s).replies = s.replies := rfl
@[simp] theorem emitPeriph_cfg (h : Periph) : (emitPeriph h s).cfg = s.cfg := rfl
@[simp] theorem emitPeriph_endlessCall (h : Periph) : (emitPeriph h s).endlessCall = s.endlessCall := rfl
@[simp] theorem emitPeriph_turn (h : Periph) : (emitPeriph h s).turn = s.turn := rfl
@[simp] theorem emitPeriph_moves (h : Periph) : (emitPeriph h s).moves = s.moves := rfl
@[simp] theorem emitPeriph_draws (h : Periph) : (emitPeriph h s).draws = s.draws := rfl
@[simp] theorem emitPeriph_capacity (h : Periph) : (emitPeriph h s).capacity = s.capacity := rfl
@[simp] theorem emitPeriph_wrap (h : Periph) (x : Nat) : (emitPeriph h s).wrap x = s.wrap x := rfl
@[simp] theorem emitPeriph_path (h : Periph) (q : PathId) : (emitPeriph h s).path q = s.path q := rfl

/-! ### `notify` -/

@[simp] theorem notify_writePos (n : Notification) : (notify n s).writePos = s.writePos := rfl
@[simp] theorem notify_readPos (n : Notification) : (notify n s).readPos = s.readPos := rfl
@[simp] theorem notify_resv (n : Notification) : (notify n s).resv = s.resv := rfl
@[simp] theorem notify_paths (n : Notification) : (notify n s).paths = s.paths := rfl
@[simp] theorem notify_busy (n : Notification) : (notify n s).busy = s.busy := rfl
@[simp] theorem notify_wakePending (n : Notification) : (notify n s).wakePending = s.wakePending := rfl
@[simp] theorem notify_vsyncQueued (n : Notification) : (notify n s).vsyncQueued = s.vsyncQueued := rfl
@[simp] theorem notify_restartLock (n : Notification) : (notify n s).restartLock = s.restartLock := rfl
@[simp] theorem notify_tallyWords (n : Notification) : (notify n s).tallyWords = s.tallyWords := rfl
@[simp] theorem notify_tallyCmds (n : Notification) : (notify n s).tallyCmds = s.tallyCmds := rfl
@[simp] theorem notify_p3Progress (n : Notification) : (notify n s).p3Progress = s.p3Progress := rfl
@[simp] theorem notify_session (n : Notification) : (notify n s).session = s.session := rfl
@[simp] theorem notify_cstate (n : Notification) : (notify n s).cstate = s.cstate := rfl
@[simp] theorem notify_fault (n : Notification) : (notify n s).fault = s.fault := rfl
@[simp] theorem notify_unkCmdSeen (n : Notification) : (notify n s).unkCmdSeen = s.unkCmdSeen := rfl
@[simp] theorem notify_ring (n : Notification) : (notify n s).ring = s.ring := rfl
@[simp] theorem notify_mirror (n : Notification) : (notify n s).mirror = s.mirror := rfl
@[simp] theorem notify_backendTrace (n : Notification) : (notify n s).backendTrace = s.backendTrace := rfl
@[simp] theorem notify_sflTrace (n : Notification) : (notify n s).sflTrace = s.sflTrace ++ [n] := rfl
@[simp] theorem notify_periphTrace (n : Notification) : (notify n s).periphTrace = s.periphTrace := rfl
@[simp] theorem notify_port (n : Notification) : (notify n s).port = s.port := rfl
@[simp] theorem notify_pphase (n : Notification) : (notify n s).pphase = s.pphase := rfl
@[simp] theorem notify_pSignal (n : Notification) : (notify n s).pSignal = s.pSignal := rfl
@[simp] theorem notify_cphase (n : Notification) : (notify n s).cphase = s.cphase := rfl
@[simp] theorem notify_replies (n : Notification) : (notify n s).replies = s.replies := rfl
@[simp] theorem notify_cfg (n : Notification) : (notify n s).cfg = s.cfg := rfl
@[simp] theorem notify_endlessCall (n : Notification) : (notify n s).endlessCall = s.endlessCall := rfl
@[simp] theorem notify_turn (n : Notification) : (notify n s).turn = s.turn := rfl
@[simp] theorem notify_moves (n : Notification) : (notify n s).moves = s.moves := rfl
@[simp] theorem notify_draws (n : Notification) : (notify n s).draws = s.draws := rfl
@[simp] theorem notify_capacity (n : Notification) : (notify n s).capacity = s.capacity := rfl
@[simp] theorem notify_wrap (n : Notification) (x : Nat) : (notify n s).wrap x = s.wrap x := rfl
@[simp] theorem notify_path (n : Notification) (q : PathId) : (notify n s).path q = s.path q := rfl

/-! ### `storeWritePos` -/

@[simp] theorem storeWritePos_writePos (v : Nat) : (storeWritePos v s).writePos = v := rfl
@[simp] theorem storeWritePos_readPos (v : Nat) : (storeWritePos v s).readPos = s.readPos := rfl
@[simp] theorem storeWritePos_resv (v : Nat) : (storeWritePos v s).resv = s.resv := rfl
@[simp] theorem storeWritePos_paths (v : Nat) : (storeWritePos v s).paths = s.paths := rfl
@[simp] theorem storeWritePos_busy (v : Nat) : (storeWritePos v s).busy = s.busy := rfl
@[simp] theorem storeWritePos_wakePending (v : Nat) : (storeWritePos v s).wakePending = s.wakePending := rfl
@[simp] theorem storeWritePos_vsyncQueued (v : Nat) : (storeWritePos v s).vsyncQueued = s.vsyncQueued := rfl
@[simp] theorem storeWritePos_restartLock (v : Nat) : (storeWritePos v s).restartLock = s.restartLock := rfl
@[simp] theorem storeWritePos_tallyWords (v : Nat) : (storeWritePos v s).tallyWords = s.tallyWords := rfl
@[simp] theorem storeWritePos_tallyCmds (v : Nat) : (storeWritePos v s).tallyCmds = s.tallyCmds := rfl
@[simp] theorem storeWritePos_p3Progress (v : Nat) : (storeWritePos v s).p3Progress = s.p3Progress := rfl
@[simp] theorem storeWritePos_session (v : Nat) : (storeWritePos v s).session = s.session := rfl
@[simp] theorem storeWritePos_cstate (v : Nat) : (storeWritePos v s).cstate = s.cstate := rfl
@[simp] theorem storeWritePos_fault (v : Nat) : (storeWritePos v s).fault = s.fault := rfl
@[simp] theorem storeWritePos_unkCmdSeen (v : Nat) : (storeWritePos v s).unkCmdSeen = s.unkCmdSeen := rfl
@[simp] theorem storeWritePos_ring (v : Nat) : (storeWritePos v s).ring = s.ring := rfl
@[simp] theorem storeWritePos_mirror (v : Nat) : (storeWritePos v s).mirror = s.mirror := rfl
@[simp] theorem storeWritePos_backendTrace (v : Nat) : (storeWritePos v s).backendTrace = s.backendTrace := rfl
@[simp] theorem storeWritePos_sflTrace (v : Nat) : (storeWritePos v s).sflTrace = s.sflTrace := rfl
@[simp] theorem storeWritePos_periphTrace (v : Nat) : (storeWritePos v s).periphTrace = s.periphTrace := rfl
@[simp] theorem storeWritePos_port (v : Nat) : (storeWritePos v s).port = s.port := rfl
@[simp] theorem storeWritePos_pphase (v : Nat) : (storeWritePos v s).pphase = s.pphase := rfl
@[simp] theorem storeWritePos_pSignal (v : Nat) : (storeWritePos v s).pSignal = s.pSignal := rfl
@[simp] theorem storeWritePos_cphase (v : Nat) : (storeWritePos v s).cphase = s.cphase := rfl
@[simp] theorem storeWritePos_replies (v : Nat) : (storeWritePos v s).replies = s.replies := rfl
@[simp] theorem storeWritePos_cfg (v : Nat) : (storeWritePos v s).cfg = s.cfg := rfl
@[simp] theorem storeWritePos_endlessCall (v : Nat) : (storeWritePos v s).endlessCall = s.endlessCall := rfl
@[simp] theorem storeWritePos_turn (v : Nat) : (storeWritePos v s).turn = s.turn := rfl
@[simp] theorem storeWritePos_moves (v : Nat) : (storeWritePos v s).moves = s.moves := rfl
@[simp] theorem storeWritePos_draws (v : Nat) : (storeWritePos v s).draws = s.draws := rfl
@[simp] theorem storeWritePos_capacity (v : Nat) : (storeWritePos v s).capacity = s.capacity := rfl
@[simp] theorem storeWritePos_wrap (v : Nat) (x : Nat) : (storeWritePos v s).wrap x = s.wrap x := rfl
@[simp] theorem storeWritePos_path (v : Nat) (q : PathId) : (storeWritePos v s).path q = s.path q := rfl

/-! ### `advance` -/

@[simp] theorem advance_writePos (k : Nat) : (advance k s).writePos = s.writePos := rfl
@[simp] theorem advance_readPos (k : Nat) : (advance k s).readPos = s.wrap (s.readPos + k) := rfl
@[simp] theorem advance_resv (k : Nat) : (advance k s).resv = s.resv := rfl
@[simp] theorem advance_paths (k : Nat) : (advance k s).paths = s.paths := rfl
@[simp] theorem advance_busy (k : Nat) : (advance k s).busy = s.busy := rfl
@[simp] theorem advance_wakePending (k : Nat) : (advance k s).wakePending = s.wakePending := rfl
@[simp] theorem advance_vsyncQueued (k : Nat) : (advance k s).vsyncQueued = s.vsyncQueued := rfl
@[simp] theorem advance_restartLock (k : Nat) : (advance k s).restartLock = s.restartLock := rfl
@[simp] theorem advance_tallyWords (k : Nat) : (advance k s).tallyWords = s.tallyWords := rfl
@[simp] theorem advance_tallyCmds (k : Nat) : (advance k s).tallyCmds = s.tallyCmds := rfl
@[simp] theorem advance_p3Progress (k : Nat) : (advance k s).p3Progress = s.p3Progress := rfl
@[simp] theorem advance_session (k : Nat) : (advance k s).session = s.session := rfl
@[simp] theorem advance_cstate (k : Nat) : (advance k s).cstate = s.cstate := rfl
@[simp] theorem advance_fault (k : Nat) : (advance k s).fault = s.fault := rfl
@[simp] theorem advance_unkCmdSeen (k : Nat) : (advance k s).unkCmdSeen = s.unkCmdSeen := rfl
@[simp] theorem advance_ring (k : Nat) : (advance k s).ring = s.ring := rfl
@[simp] theorem advance_mirror (k : Nat) : (advance k s).mirror = s.mirror := rfl
@[simp] theorem advance_backendTrace (k : Nat) : (advance k s).backendTrace = s.backendTrace := rfl
@[simp] theorem advance_sflTrace (k : Nat) : (advance k s).sflTrace = s.sflTrace := rfl
@[simp] theorem advance_periphTrace (k : Nat) : (advance k s).periphTrace = s.periphTrace := rfl
@[simp] theorem advance_port (k : Nat) : (advance k s).port = s.port := rfl
@[simp] theorem advance_pphase (k : Nat) : (advance k s).pphase = s.pphase := rfl
@[simp] theorem advance_pSignal (k : Nat) : (advance k s).pSignal = s.pSignal := rfl
@[simp] theorem advance_cphase (k : Nat) : (advance k s).cphase = s.cphase := rfl
@[simp] theorem advance_replies (k : Nat) : (advance k s).replies = s.replies := rfl
@[simp] theorem advance_cfg (k : Nat) : (advance k s).cfg = s.cfg := rfl
@[simp] theorem advance_endlessCall (k : Nat) : (advance k s).endlessCall = s.endlessCall := rfl
@[simp] theorem advance_turn (k : Nat) : (advance k s).turn = s.turn := rfl
@[simp] theorem advance_moves (k : Nat) : (advance k s).moves = s.moves := rfl
@[simp] theorem advance_draws (k : Nat) : (advance k s).draws = s.draws := rfl
@[simp] theorem advance_capacity (k : Nat) : (advance k s).capacity = s.capacity := rfl
@[simp] theorem advance_wrap (k : Nat) (x : Nat) : (advance k s).wrap x = s.wrap x := rfl
@[simp] theorem advance_path (k : Nat) (q : PathId) : (advance k s).path q = s.path q := rfl

/-! ### `toPPhase` -/

@[simp] theorem toPPhase_writePos (p : PPhase) : (toPPhase p s).writePos = s.writePos := rfl
@[simp] theorem toPPhase_readPos (p : PPhase) : (toPPhase p s).readPos = s.readPos := rfl
@[simp] theorem toPPhase_resv (p : PPhase) : (toPPhase p s).resv = s.resv := rfl
@[simp] theorem toPPhase_paths (p : PPhase) : (toPPhase p s).paths = s.paths := rfl
@[simp] theorem toPPhase_busy (p : PPhase) : (toPPhase p s).busy = s.busy := rfl
@[simp] theorem toPPhase_wakePending (p : PPhase) : (toPPhase p s).wakePending = s.wakePending := rfl
@[simp] theorem toPPhase_vsyncQueued (p : PPhase) : (toPPhase p s).vsyncQueued = s.vsyncQueued := rfl
@[simp] theorem toPPhase_restartLock (p : PPhase) : (toPPhase p s).restartLock = s.restartLock := rfl
@[simp] theorem toPPhase_tallyWords (p : PPhase) : (toPPhase p s).tallyWords = s.tallyWords := rfl
@[simp] theorem toPPhase_tallyCmds (p : PPhase) : (toPPhase p s).tallyCmds = s.tallyCmds := rfl
@[simp] theorem toPPhase_p3Progress (p : PPhase) : (toPPhase p s).p3Progress = s.p3Progress := rfl
@[simp] theorem toPPhase_session (p : PPhase) : (toPPhase p s).session = s.session := rfl
@[simp] theorem toPPhase_cstate (p : PPhase) : (toPPhase p s).cstate = s.cstate := rfl
@[simp] theorem toPPhase_fault (p : PPhase) : (toPPhase p s).fault = s.fault := rfl
@[simp] theorem toPPhase_unkCmdSeen (p : PPhase) : (toPPhase p s).unkCmdSeen = s.unkCmdSeen := rfl
@[simp] theorem toPPhase_ring (p : PPhase) : (toPPhase p s).ring = s.ring := rfl
@[simp] theorem toPPhase_mirror (p : PPhase) : (toPPhase p s).mirror = s.mirror := rfl
@[simp] theorem toPPhase_backendTrace (p : PPhase) : (toPPhase p s).backendTrace = s.backendTrace := rfl
@[simp] theorem toPPhase_sflTrace (p : PPhase) : (toPPhase p s).sflTrace = s.sflTrace := rfl
@[simp] theorem toPPhase_periphTrace (p : PPhase) : (toPPhase p s).periphTrace = s.periphTrace := rfl
@[simp] theorem toPPhase_port (p : PPhase) : (toPPhase p s).port = s.port := rfl
@[simp] theorem toPPhase_pphase (p : PPhase) : (toPPhase p s).pphase = p := rfl
@[simp] theorem toPPhase_pSignal (p : PPhase) : (toPPhase p s).pSignal = s.pSignal := rfl
@[simp] theorem toPPhase_cphase (p : PPhase) : (toPPhase p s).cphase = s.cphase := rfl
@[simp] theorem toPPhase_replies (p : PPhase) : (toPPhase p s).replies = s.replies := rfl
@[simp] theorem toPPhase_cfg (p : PPhase) : (toPPhase p s).cfg = s.cfg := rfl
@[simp] theorem toPPhase_endlessCall (p : PPhase) : (toPPhase p s).endlessCall = s.endlessCall := rfl
@[simp] theorem toPPhase_turn (p : PPhase) : (toPPhase p s).turn = s.turn := rfl
@[simp] theorem toPPhase_moves (p : PPhase) : (toPPhase p s).moves = s.moves := rfl
@[simp] theorem toPPhase_draws (p : PPhase) : (toPPhase p s).draws = s.draws := rfl
@[simp] theorem toPPhase_capacity (p : PPhase) : (toPPhase p s).capacity = s.capacity := rfl
@[simp] theorem toPPhase_wrap (p : PPhase) (x : Nat) : (toPPhase p s).wrap x = s.wrap x := rfl
@[simp] theorem toPPhase_path (p : PPhase) (q : PathId) : (toPPhase p s).path q = s.path q := rfl

/-! ### `toCPhase` -/

@[simp] theorem toCPhase_writePos (c : CPhase) : (toCPhase c s).writePos = s.writePos := rfl
@[simp] theorem toCPhase_readPos (c : CPhase) : (toCPhase c s).readPos = s.readPos := rfl
@[simp] theorem toCPhase_resv (c : CPhase) : (toCPhase c s).resv = s.resv := rfl
@[simp] theorem toCPhase_paths (c : CPhase) : (toCPhase c s).paths = s.paths := rfl
@[simp] theorem toCPhase_busy (c : CPhase) : (toCPhase c s).busy = s.busy := rfl
@[simp] theorem toCPhase_wakePending (c : CPhase) : (toCPhase c s).wakePending = s.wakePending := rfl
@[simp] theorem toCPhase_vsyncQueued (c : CPhase) : (toCPhase c s).vsyncQueued = s.vsyncQueued := rfl
@[simp] theorem toCPhase_restartLock (c : CPhase) : (toCPhase c s).restartLock = s.restartLock := rfl
@[simp] theorem toCPhase_tallyWords (c : CPhase) : (toCPhase c s).tallyWords = s.tallyWords := rfl
@[simp] theorem toCPhase_tallyCmds (c : CPhase) : (toCPhase c s).tallyCmds = s.tallyCmds := rfl
@[simp] theorem toCPhase_p3Progress (c : CPhase) : (toCPhase c s).p3Progress = s.p3Progress := rfl
@[simp] theorem toCPhase_session (c : CPhase) : (toCPhase c s).session = s.session := rfl
@[simp] theorem toCPhase_cstate (c : CPhase) : (toCPhase c s).cstate = s.cstate := rfl
@[simp] theorem toCPhase_fault (c : CPhase) : (toCPhase c s).fault = s.fault := rfl
@[simp] theorem toCPhase_unkCmdSeen (c : CPhase) : (toCPhase c s).unkCmdSeen = s.unkCmdSeen := rfl
@[simp] theorem toCPhase_ring (c : CPhase) : (toCPhase c s).ring = s.ring := rfl
@[simp] theorem toCPhase_mirror (c : CPhase) : (toCPhase c s).mirror = s.mirror := rfl
@[simp] theorem toCPhase_backendTrace (c : CPhase) : (toCPhase c s).backendTrace = s.backendTrace := rfl
@[simp] theorem toCPhase_sflTrace (c : CPhase) : (toCPhase c s).sflTrace = s.sflTrace := rfl
@[simp] theorem toCPhase_periphTrace (c : CPhase) : (toCPhase c s).periphTrace = s.periphTrace := rfl
@[simp] theorem toCPhase_port (c : CPhase) : (toCPhase c s).port = s.port := rfl
@[simp] theorem toCPhase_pphase (c : CPhase) : (toCPhase c s).pphase = s.pphase := rfl
@[simp] theorem toCPhase_pSignal (c : CPhase) : (toCPhase c s).pSignal = s.pSignal := rfl
@[simp] theorem toCPhase_cphase (c : CPhase) : (toCPhase c s).cphase = c := rfl
@[simp] theorem toCPhase_replies (c : CPhase) : (toCPhase c s).replies = s.replies := rfl
@[simp] theorem toCPhase_cfg (c : CPhase) : (toCPhase c s).cfg = s.cfg := rfl
@[simp] theorem toCPhase_endlessCall (c : CPhase) : (toCPhase c s).endlessCall = s.endlessCall := rfl
@[simp] theorem toCPhase_turn (c : CPhase) : (toCPhase c s).turn = s.turn := rfl
@[simp] theorem toCPhase_moves (c : CPhase) : (toCPhase c s).moves = s.moves := rfl
@[simp] theorem toCPhase_draws (c : CPhase) : (toCPhase c s).draws = s.draws := rfl
@[simp] theorem toCPhase_capacity (c : CPhase) : (toCPhase c s).capacity = s.capacity := rfl
@[simp] theorem toCPhase_wrap (c : CPhase) (x : Nat) : (toCPhase c s).wrap x = s.wrap x := rfl
@[simp] theorem toCPhase_path (c : CPhase) (q : PathId) : (toCPhase c s).path q = s.path q := rfl

/-! ### `guardFailed` -/

@[simp] theorem guardFailed_writePos : (guardFailed s).writePos = s.writePos := rfl
@[simp] theorem guardFailed_readPos : (guardFailed s).readPos = s.readPos := rfl
@[simp] theorem guardFailed_resv : (guardFailed s).resv = s.resv := rfl
@[simp] theorem guardFailed_paths : (guardFailed s).paths = s.paths := rfl
@[simp] theorem guardFailed_busy : (guardFailed s).busy = s.busy := rfl
@[simp] theorem guardFailed_wakePending : (guardFailed s).wakePending = s.wakePending := rfl
@[simp] theorem guardFailed_vsyncQueued : (guardFailed s).vsyncQueued = s.vsyncQueued := rfl
@[simp] theorem guardFailed_restartLock : (guardFailed s).restartLock = s.restartLock := rfl
@[simp] theorem guardFailed_tallyWords : (guardFailed s).tallyWords = s.tallyWords := rfl
@[simp] theorem guardFailed_tallyCmds : (guardFailed s).tallyCmds = s.tallyCmds := rfl
@[simp] theorem guardFailed_p3Progress : (guardFailed s).p3Progress = s.p3Progress := rfl
@[simp] theorem guardFailed_session : (guardFailed s).session = s.session := rfl
@[simp] theorem guardFailed_cstate : (guardFailed s).cstate = s.cstate := rfl
@[simp] theorem guardFailed_fault : (guardFailed s).fault = s.fault := rfl
@[simp] theorem guardFailed_unkCmdSeen : (guardFailed s).unkCmdSeen = s.unkCmdSeen := rfl
@[simp] theorem guardFailed_ring : (guardFailed s).ring = s.ring := rfl
@[simp] theorem guardFailed_mirror : (guardFailed s).mirror = s.mirror := rfl
@[simp] theorem guardFailed_backendTrace : (guardFailed s).backendTrace = s.backendTrace := rfl
@[simp] theorem guardFailed_sflTrace : (guardFailed s).sflTrace = s.sflTrace := rfl
@[simp] theorem guardFailed_periphTrace : (guardFailed s).periphTrace = s.periphTrace := rfl
@[simp] theorem guardFailed_port : (guardFailed s).port = s.port := rfl
@[simp] theorem guardFailed_pphase : (guardFailed s).pphase = s.pphase := rfl
@[simp] theorem guardFailed_pSignal : (guardFailed s).pSignal = true := rfl
@[simp] theorem guardFailed_cphase : (guardFailed s).cphase = s.cphase := rfl
@[simp] theorem guardFailed_replies : (guardFailed s).replies = s.replies := rfl
@[simp] theorem guardFailed_cfg : (guardFailed s).cfg = s.cfg := rfl
@[simp] theorem guardFailed_endlessCall : (guardFailed s).endlessCall = s.endlessCall := rfl
@[simp] theorem guardFailed_turn : (guardFailed s).turn = s.turn := rfl
@[simp] theorem guardFailed_moves : (guardFailed s).moves = s.moves := rfl
@[simp] theorem guardFailed_draws : (guardFailed s).draws = s.draws := rfl
@[simp] theorem guardFailed_capacity : (guardFailed s).capacity = s.capacity := rfl
@[simp] theorem guardFailed_wrap (x : Nat) : (guardFailed s).wrap x = s.wrap x := rfl
@[simp] theorem guardFailed_path (q : PathId) : (guardFailed s).path q = s.path q := rfl

/-! ### `retire` -/

@[simp] theorem retire_writePos (r : Reply) : (retire r s).writePos = s.writePos := rfl
@[simp] theorem retire_readPos (r : Reply) : (retire r s).readPos = s.readPos := rfl
@[simp] theorem retire_resv (r : Reply) : (retire r s).resv = s.resv := rfl
@[simp] theorem retire_paths (r : Reply) : (retire r s).paths = s.paths := rfl
@[simp] theorem retire_busy (r : Reply) : (retire r s).busy = s.busy := rfl
@[simp] theorem retire_wakePending (r : Reply) : (retire r s).wakePending = s.wakePending := rfl
@[simp] theorem retire_vsyncQueued (r : Reply) : (retire r s).vsyncQueued = s.vsyncQueued := rfl
@[simp] theorem retire_restartLock (r : Reply) : (retire r s).restartLock = s.restartLock := rfl
@[simp] theorem retire_tallyWords (r : Reply) : (retire r s).tallyWords = s.tallyWords := rfl
@[simp] theorem retire_tallyCmds (r : Reply) : (retire r s).tallyCmds = s.tallyCmds := rfl
@[simp] theorem retire_p3Progress (r : Reply) : (retire r s).p3Progress = s.p3Progress := rfl
@[simp] theorem retire_session (r : Reply) : (retire r s).session = s.session := rfl
@[simp] theorem retire_cstate (r : Reply) : (retire r s).cstate = s.cstate := rfl
@[simp] theorem retire_fault (r : Reply) : (retire r s).fault = s.fault := rfl
@[simp] theorem retire_unkCmdSeen (r : Reply) : (retire r s).unkCmdSeen = s.unkCmdSeen := rfl
@[simp] theorem retire_ring (r : Reply) : (retire r s).ring = s.ring := rfl
@[simp] theorem retire_mirror (r : Reply) : (retire r s).mirror = s.mirror := rfl
@[simp] theorem retire_backendTrace (r : Reply) : (retire r s).backendTrace = s.backendTrace := rfl
@[simp] theorem retire_sflTrace (r : Reply) : (retire r s).sflTrace = s.sflTrace := rfl
@[simp] theorem retire_periphTrace (r : Reply) : (retire r s).periphTrace = s.periphTrace := rfl
@[simp] theorem retire_port (r : Reply) : (retire r s).port = s.port.tail := rfl
@[simp] theorem retire_pphase (r : Reply) : (retire r s).pphase = .idle := rfl
@[simp] theorem retire_pSignal (r : Reply) : (retire r s).pSignal = s.pSignal := rfl
@[simp] theorem retire_cphase (r : Reply) : (retire r s).cphase = s.cphase := rfl
@[simp] theorem retire_replies (r : Reply) : (retire r s).replies = s.replies ++ [r] := rfl
@[simp] theorem retire_cfg (r : Reply) : (retire r s).cfg = s.cfg := rfl
@[simp] theorem retire_endlessCall (r : Reply) : (retire r s).endlessCall = s.endlessCall := rfl
@[simp] theorem retire_turn (r : Reply) : (retire r s).turn = s.turn := rfl
@[simp] theorem retire_moves (r : Reply) : (retire r s).moves = s.moves := rfl
@[simp] theorem retire_draws (r : Reply) : (retire r s).draws = s.draws := rfl
@[simp] theorem retire_capacity (r : Reply) : (retire r s).capacity = s.capacity := rfl
@[simp] theorem retire_wrap (r : Reply) (x : Nat) : (retire r s).wrap x = s.wrap x := rfl
@[simp] theorem retire_path (r : Reply) (q : PathId) : (retire r s).path q = s.path q := rfl

/-! ### `reschedule` -/

@[simp] theorem reschedule_writePos : (reschedule s).writePos = s.writePos := rfl
@[simp] theorem reschedule_readPos : (reschedule s).readPos = s.readPos := rfl
@[simp] theorem reschedule_resv : (reschedule s).resv = s.resv := rfl
@[simp] theorem reschedule_paths : (reschedule s).paths = s.paths := rfl
@[simp] theorem reschedule_busy : (reschedule s).busy = s.busy := rfl
@[simp] theorem reschedule_wakePending : (reschedule s).wakePending = s.wakePending := rfl
@[simp] theorem reschedule_vsyncQueued : (reschedule s).vsyncQueued = s.vsyncQueued := rfl
@[simp] theorem reschedule_restartLock : (reschedule s).restartLock = s.restartLock := rfl
@[simp] theorem reschedule_tallyWords : (reschedule s).tallyWords = s.tallyWords := rfl
@[simp] theorem reschedule_tallyCmds : (reschedule s).tallyCmds = s.tallyCmds := rfl
@[simp] theorem reschedule_p3Progress : (reschedule s).p3Progress = s.p3Progress := rfl
@[simp] theorem reschedule_session : (reschedule s).session = s.session := rfl
@[simp] theorem reschedule_cstate : (reschedule s).cstate = s.cstate := rfl
@[simp] theorem reschedule_fault : (reschedule s).fault = s.fault := rfl
@[simp] theorem reschedule_unkCmdSeen : (reschedule s).unkCmdSeen = s.unkCmdSeen := rfl
@[simp] theorem reschedule_ring : (reschedule s).ring = s.ring := rfl
@[simp] theorem reschedule_mirror : (reschedule s).mirror = s.mirror := rfl
@[simp] theorem reschedule_backendTrace : (reschedule s).backendTrace = s.backendTrace := rfl
@[simp] theorem reschedule_sflTrace : (reschedule s).sflTrace = s.sflTrace := rfl
@[simp] theorem reschedule_periphTrace : (reschedule s).periphTrace = s.periphTrace := rfl
@[simp] theorem reschedule_port : (reschedule s).port = s.port := rfl
@[simp] theorem reschedule_pphase : (reschedule s).pphase = s.pphase := rfl
@[simp] theorem reschedule_pSignal : (reschedule s).pSignal = s.pSignal := rfl
@[simp] theorem reschedule_cphase : (reschedule s).cphase = s.cphase := rfl
@[simp] theorem reschedule_replies : (reschedule s).replies = s.replies := rfl
@[simp] theorem reschedule_cfg : (reschedule s).cfg = s.cfg := rfl
@[simp] theorem reschedule_endlessCall : (reschedule s).endlessCall = (s.endlessCall || s.callHangs) := rfl
@[simp] theorem reschedule_turn : (reschedule s).turn = (if Config.drawProducerMoves s.moves then .p else .c) := rfl
@[simp] theorem reschedule_moves : (reschedule s).moves = s.moves + 1 := rfl
@[simp] theorem reschedule_draws : (reschedule s).draws = s.draws := rfl
@[simp] theorem reschedule_capacity : (reschedule s).capacity = s.capacity := rfl
@[simp] theorem reschedule_wrap (x : Nat) : (reschedule s).wrap x = s.wrap x := rfl
@[simp] theorem reschedule_path (q : PathId) : (reschedule s).path q = s.path q := rfl

/-! ### `signalWake` -/

@[simp] theorem signalWake_writePos : (signalWake s).writePos = s.writePos := rfl
@[simp] theorem signalWake_readPos : (signalWake s).readPos = s.readPos := rfl
@[simp] theorem signalWake_resv : (signalWake s).resv = s.resv := rfl
@[simp] theorem signalWake_paths : (signalWake s).paths = s.paths := rfl
@[simp] theorem signalWake_busy : (signalWake s).busy = s.busy := rfl
@[simp] theorem signalWake_wakePending : (signalWake s).wakePending = true := rfl
@[simp] theorem signalWake_vsyncQueued : (signalWake s).vsyncQueued = s.vsyncQueued := rfl
@[simp] theorem signalWake_restartLock : (signalWake s).restartLock = s.restartLock := rfl
@[simp] theorem signalWake_tallyWords : (signalWake s).tallyWords = 0 := rfl
@[simp] theorem signalWake_tallyCmds : (signalWake s).tallyCmds = 0 := rfl
@[simp] theorem signalWake_p3Progress : (signalWake s).p3Progress = s.p3Progress := rfl
@[simp] theorem signalWake_session : (signalWake s).session = s.session := rfl
@[simp] theorem signalWake_cstate : (signalWake s).cstate = s.cstate := rfl
@[simp] theorem signalWake_fault : (signalWake s).fault = s.fault := rfl
@[simp] theorem signalWake_unkCmdSeen : (signalWake s).unkCmdSeen = s.unkCmdSeen := rfl
@[simp] theorem signalWake_ring : (signalWake s).ring = s.ring := rfl
@[simp] theorem signalWake_mirror : (signalWake s).mirror = s.mirror := rfl
@[simp] theorem signalWake_backendTrace : (signalWake s).backendTrace = s.backendTrace := rfl
@[simp] theorem signalWake_sflTrace : (signalWake s).sflTrace = s.sflTrace := rfl
@[simp] theorem signalWake_periphTrace : (signalWake s).periphTrace = s.periphTrace := rfl
@[simp] theorem signalWake_port : (signalWake s).port = s.port := rfl
@[simp] theorem signalWake_pphase : (signalWake s).pphase = s.pphase := rfl
@[simp] theorem signalWake_pSignal : (signalWake s).pSignal = s.pSignal := rfl
@[simp] theorem signalWake_cphase : (signalWake s).cphase = s.cphase := rfl
@[simp] theorem signalWake_replies : (signalWake s).replies = s.replies := rfl
@[simp] theorem signalWake_cfg : (signalWake s).cfg = s.cfg := rfl
@[simp] theorem signalWake_endlessCall : (signalWake s).endlessCall = s.endlessCall := rfl
@[simp] theorem signalWake_turn : (signalWake s).turn = s.turn := rfl
@[simp] theorem signalWake_moves : (signalWake s).moves = s.moves := rfl
@[simp] theorem signalWake_draws : (signalWake s).draws = s.draws := rfl
@[simp] theorem signalWake_capacity : (signalWake s).capacity = s.capacity := rfl
@[simp] theorem signalWake_wrap (x : Nat) : (signalWake s).wrap x = s.wrap x := rfl
@[simp] theorem signalWake_path (q : PathId) : (signalWake s).path q = s.path q := rfl

/-! ### `tally` -/

@[simp] theorem tally_writePos (n : Nat) : (tally n s).writePos = s.writePos := rfl
@[simp] theorem tally_readPos (n : Nat) : (tally n s).readPos = s.readPos := rfl
@[simp] theorem tally_resv (n : Nat) : (tally n s).resv = s.resv := rfl
@[simp] theorem tally_paths (n : Nat) : (tally n s).paths = s.paths := rfl
@[simp] theorem tally_busy (n : Nat) : (tally n s).busy = s.busy := rfl
@[simp] theorem tally_wakePending (n : Nat) : (tally n s).wakePending = s.wakePending := rfl
@[simp] theorem tally_vsyncQueued (n : Nat) : (tally n s).vsyncQueued = s.vsyncQueued := rfl
@[simp] theorem tally_restartLock (n : Nat) : (tally n s).restartLock = s.restartLock := rfl
@[simp] theorem tally_tallyWords (n : Nat) : (tally n s).tallyWords = s.tallyWords + n := rfl
@[simp] theorem tally_tallyCmds (n : Nat) : (tally n s).tallyCmds = s.tallyCmds + 1 := rfl
@[simp] theorem tally_p3Progress (n : Nat) : (tally n s).p3Progress = s.p3Progress := rfl
@[simp] theorem tally_session (n : Nat) : (tally n s).session = s.session := rfl
@[simp] theorem tally_cstate (n : Nat) : (tally n s).cstate = s.cstate := rfl
@[simp] theorem tally_fault (n : Nat) : (tally n s).fault = s.fault := rfl
@[simp] theorem tally_unkCmdSeen (n : Nat) : (tally n s).unkCmdSeen = s.unkCmdSeen := rfl
@[simp] theorem tally_ring (n : Nat) : (tally n s).ring = s.ring := rfl
@[simp] theorem tally_mirror (n : Nat) : (tally n s).mirror = s.mirror := rfl
@[simp] theorem tally_backendTrace (n : Nat) : (tally n s).backendTrace = s.backendTrace := rfl
@[simp] theorem tally_sflTrace (n : Nat) : (tally n s).sflTrace = s.sflTrace := rfl
@[simp] theorem tally_periphTrace (n : Nat) : (tally n s).periphTrace = s.periphTrace := rfl
@[simp] theorem tally_port (n : Nat) : (tally n s).port = s.port := rfl
@[simp] theorem tally_pphase (n : Nat) : (tally n s).pphase = s.pphase := rfl
@[simp] theorem tally_pSignal (n : Nat) : (tally n s).pSignal = s.pSignal := rfl
@[simp] theorem tally_cphase (n : Nat) : (tally n s).cphase = s.cphase := rfl
@[simp] theorem tally_replies (n : Nat) : (tally n s).replies = s.replies := rfl
@[simp] theorem tally_cfg (n : Nat) : (tally n s).cfg = s.cfg := rfl
@[simp] theorem tally_endlessCall (n : Nat) : (tally n s).endlessCall = s.endlessCall := rfl
@[simp] theorem tally_turn (n : Nat) : (tally n s).turn = s.turn := rfl
@[simp] theorem tally_moves (n : Nat) : (tally n s).moves = s.moves := rfl
@[simp] theorem tally_draws (n : Nat) : (tally n s).draws = s.draws := rfl
@[simp] theorem tally_capacity (n : Nat) : (tally n s).capacity = s.capacity := rfl
@[simp] theorem tally_wrap (n : Nat) (x : Nat) : (tally n s).wrap x = s.wrap x := rfl
@[simp] theorem tally_path (n : Nat) (q : PathId) : (tally n s).path q = s.path q := rfl

/-! ### `takeWake` -/

@[simp] theorem takeWake_writePos : (takeWake s).writePos = s.writePos := rfl
@[simp] theorem takeWake_readPos : (takeWake s).readPos = s.readPos := rfl
@[simp] theorem takeWake_resv : (takeWake s).resv = s.resv := rfl
@[simp] theorem takeWake_paths : (takeWake s).paths = s.paths := rfl
@[simp] theorem takeWake_busy : (takeWake s).busy = true := rfl
@[simp] theorem takeWake_wakePending : (takeWake s).wakePending = false := rfl
@[simp] theorem takeWake_vsyncQueued : (takeWake s).vsyncQueued = s.vsyncQueued := rfl
@[simp] theorem takeWake_restartLock : (takeWake s).restartLock = s.restartLock := rfl
@[simp] theorem takeWake_tallyWords : (takeWake s).tallyWords = s.tallyWords := rfl
@[simp] theorem takeWake_tallyCmds : (takeWake s).tallyCmds = s.tallyCmds := rfl
@[simp] theorem takeWake_p3Progress : (takeWake s).p3Progress = s.p3Progress := rfl
@[simp] theorem takeWake_session : (takeWake s).session = s.session := rfl
@[simp] theorem takeWake_cstate : (takeWake s).cstate = .draining := rfl
@[simp] theorem takeWake_fault : (takeWake s).fault = s.fault := rfl
@[simp] theorem takeWake_unkCmdSeen : (takeWake s).unkCmdSeen = s.unkCmdSeen := rfl
@[simp] theorem takeWake_ring : (takeWake s).ring = s.ring := rfl
@[simp] theorem takeWake_mirror : (takeWake s).mirror = s.mirror := rfl
@[simp] theorem takeWake_backendTrace : (takeWake s).backendTrace = s.backendTrace := rfl
@[simp] theorem takeWake_sflTrace : (takeWake s).sflTrace = s.sflTrace := rfl
@[simp] theorem takeWake_periphTrace : (takeWake s).periphTrace = s.periphTrace := rfl
@[simp] theorem takeWake_port : (takeWake s).port = s.port := rfl
@[simp] theorem takeWake_pphase : (takeWake s).pphase = s.pphase := rfl
@[simp] theorem takeWake_pSignal : (takeWake s).pSignal = s.pSignal := rfl
@[simp] theorem takeWake_cphase : (takeWake s).cphase = .top := rfl
@[simp] theorem takeWake_replies : (takeWake s).replies = s.replies := rfl
@[simp] theorem takeWake_cfg : (takeWake s).cfg = s.cfg := rfl
@[simp] theorem takeWake_endlessCall : (takeWake s).endlessCall = s.endlessCall := rfl
@[simp] theorem takeWake_turn : (takeWake s).turn = s.turn := rfl
@[simp] theorem takeWake_moves : (takeWake s).moves = s.moves := rfl
@[simp] theorem takeWake_draws : (takeWake s).draws = s.draws := rfl
@[simp] theorem takeWake_capacity : (takeWake s).capacity = s.capacity := rfl
@[simp] theorem takeWake_wrap (x : Nat) : (takeWake s).wrap x = s.wrap x := rfl
@[simp] theorem takeWake_path (q : PathId) : (takeWake s).path q = s.path q := rfl

/-! ### `endDrain` -/

@[simp] theorem endDrain_writePos : (endDrain s).writePos = s.writePos := rfl
@[simp] theorem endDrain_readPos : (endDrain s).readPos = s.readPos := rfl
@[simp] theorem endDrain_resv : (endDrain s).resv = s.resv := rfl
@[simp] theorem endDrain_paths : (endDrain s).paths = s.paths := rfl
@[simp] theorem endDrain_busy : (endDrain s).busy = false := rfl
@[simp] theorem endDrain_wakePending : (endDrain s).wakePending = s.wakePending := rfl
@[simp] theorem endDrain_vsyncQueued : (endDrain s).vsyncQueued = s.vsyncQueued := rfl
@[simp] theorem endDrain_restartLock : (endDrain s).restartLock = s.restartLock := rfl
@[simp] theorem endDrain_tallyWords : (endDrain s).tallyWords = s.tallyWords := rfl
@[simp] theorem endDrain_tallyCmds : (endDrain s).tallyCmds = s.tallyCmds := rfl
@[simp] theorem endDrain_p3Progress : (endDrain s).p3Progress = s.p3Progress := rfl
@[simp] theorem endDrain_session : (endDrain s).session = s.session := rfl
@[simp] theorem endDrain_cstate : (endDrain s).cstate = .waiting := rfl
@[simp] theorem endDrain_fault : (endDrain s).fault = s.fault := rfl
@[simp] theorem endDrain_unkCmdSeen : (endDrain s).unkCmdSeen = s.unkCmdSeen := rfl
@[simp] theorem endDrain_ring : (endDrain s).ring = s.ring := rfl
@[simp] theorem endDrain_mirror : (endDrain s).mirror = s.mirror := rfl
@[simp] theorem endDrain_backendTrace : (endDrain s).backendTrace = s.backendTrace := rfl
@[simp] theorem endDrain_sflTrace : (endDrain s).sflTrace = s.sflTrace := rfl
@[simp] theorem endDrain_periphTrace : (endDrain s).periphTrace = s.periphTrace := rfl
@[simp] theorem endDrain_port : (endDrain s).port = s.port := rfl
@[simp] theorem endDrain_pphase : (endDrain s).pphase = s.pphase := rfl
@[simp] theorem endDrain_pSignal : (endDrain s).pSignal = s.pSignal := rfl
@[simp] theorem endDrain_cphase : (endDrain s).cphase = .top := rfl
@[simp] theorem endDrain_replies : (endDrain s).replies = s.replies := rfl
@[simp] theorem endDrain_cfg : (endDrain s).cfg = s.cfg := rfl
@[simp] theorem endDrain_endlessCall : (endDrain s).endlessCall = s.endlessCall := rfl
@[simp] theorem endDrain_turn : (endDrain s).turn = s.turn := rfl
@[simp] theorem endDrain_moves : (endDrain s).moves = s.moves := rfl
@[simp] theorem endDrain_draws : (endDrain s).draws = s.draws := rfl
@[simp] theorem endDrain_capacity : (endDrain s).capacity = s.capacity := rfl
@[simp] theorem endDrain_wrap (x : Nat) : (endDrain s).wrap x = s.wrap x := rfl
@[simp] theorem endDrain_path (q : PathId) : (endDrain s).path q = s.path q := rfl

/-! ### `quitHalt` -/

@[simp] theorem quitHalt_writePos : (quitHalt s).writePos = s.writePos := rfl
@[simp] theorem quitHalt_readPos : (quitHalt s).readPos = s.readPos := rfl
@[simp] theorem quitHalt_resv : (quitHalt s).resv = s.resv := rfl
@[simp] theorem quitHalt_paths : (quitHalt s).paths = s.paths := rfl
@[simp] theorem quitHalt_busy : (quitHalt s).busy = false := rfl
@[simp] theorem quitHalt_wakePending : (quitHalt s).wakePending = s.wakePending := rfl
@[simp] theorem quitHalt_vsyncQueued : (quitHalt s).vsyncQueued = s.vsyncQueued := rfl
@[simp] theorem quitHalt_restartLock : (quitHalt s).restartLock = s.restartLock := rfl
@[simp] theorem quitHalt_tallyWords : (quitHalt s).tallyWords = s.tallyWords := rfl
@[simp] theorem quitHalt_tallyCmds : (quitHalt s).tallyCmds = s.tallyCmds := rfl
@[simp] theorem quitHalt_p3Progress : (quitHalt s).p3Progress = s.p3Progress := rfl
@[simp] theorem quitHalt_session : (quitHalt s).session = s.session := rfl
@[simp] theorem quitHalt_cstate : (quitHalt s).cstate = .halted := rfl
@[simp] theorem quitHalt_fault : (quitHalt s).fault = s.fault := rfl
@[simp] theorem quitHalt_unkCmdSeen : (quitHalt s).unkCmdSeen = s.unkCmdSeen := rfl
@[simp] theorem quitHalt_ring : (quitHalt s).ring = s.ring := rfl
@[simp] theorem quitHalt_mirror : (quitHalt s).mirror = s.mirror := rfl
@[simp] theorem quitHalt_backendTrace : (quitHalt s).backendTrace = s.backendTrace := rfl
@[simp] theorem quitHalt_sflTrace : (quitHalt s).sflTrace = s.sflTrace := rfl
@[simp] theorem quitHalt_periphTrace : (quitHalt s).periphTrace = s.periphTrace := rfl
@[simp] theorem quitHalt_port : (quitHalt s).port = s.port := rfl
@[simp] theorem quitHalt_pphase : (quitHalt s).pphase = s.pphase := rfl
@[simp] theorem quitHalt_pSignal : (quitHalt s).pSignal = s.pSignal := rfl
@[simp] theorem quitHalt_cphase : (quitHalt s).cphase = .top := rfl
@[simp] theorem quitHalt_replies : (quitHalt s).replies = s.replies := rfl
@[simp] theorem quitHalt_cfg : (quitHalt s).cfg = s.cfg := rfl
@[simp] theorem quitHalt_endlessCall : (quitHalt s).endlessCall = s.endlessCall := rfl
@[simp] theorem quitHalt_turn : (quitHalt s).turn = s.turn := rfl
@[simp] theorem quitHalt_moves : (quitHalt s).moves = s.moves := rfl
@[simp] theorem quitHalt_draws : (quitHalt s).draws = s.draws := rfl
@[simp] theorem quitHalt_capacity : (quitHalt s).capacity = s.capacity := rfl
@[simp] theorem quitHalt_wrap (x : Nat) : (quitHalt s).wrap x = s.wrap x := rfl
@[simp] theorem quitHalt_path (q : PathId) : (quitHalt s).path q = s.path q := rfl

/-! ### `vsyncIncrement` -/

@[simp] theorem vsyncIncrement_writePos : (vsyncIncrement s).writePos = s.writePos := rfl
@[simp] theorem vsyncIncrement_readPos : (vsyncIncrement s).readPos = s.readPos := rfl
@[simp] theorem vsyncIncrement_resv : (vsyncIncrement s).resv = s.resv := rfl
@[simp] theorem vsyncIncrement_paths : (vsyncIncrement s).paths = s.paths := rfl
@[simp] theorem vsyncIncrement_busy : (vsyncIncrement s).busy = s.busy := rfl
@[simp] theorem vsyncIncrement_wakePending : (vsyncIncrement s).wakePending = s.wakePending := rfl
@[simp] theorem vsyncIncrement_vsyncQueued : (vsyncIncrement s).vsyncQueued = s.vsyncQueued + 1 := rfl
@[simp] theorem vsyncIncrement_restartLock : (vsyncIncrement s).restartLock = s.restartLock := rfl
@[simp] theorem vsyncIncrement_tallyWords : (vsyncIncrement s).tallyWords = s.tallyWords := rfl
@[simp] theorem vsyncIncrement_tallyCmds : (vsyncIncrement s).tallyCmds = s.tallyCmds := rfl
@[simp] theorem vsyncIncrement_p3Progress : (vsyncIncrement s).p3Progress = s.p3Progress := rfl
@[simp] theorem vsyncIncrement_session : (vsyncIncrement s).session = s.session := rfl
@[simp] theorem vsyncIncrement_cstate : (vsyncIncrement s).cstate = s.cstate := rfl
@[simp] theorem vsyncIncrement_fault : (vsyncIncrement s).fault = s.fault := rfl
@[simp] theorem vsyncIncrement_unkCmdSeen : (vsyncIncrement s).unkCmdSeen = s.unkCmdSeen := rfl
@[simp] theorem vsyncIncrement_ring : (vsyncIncrement s).ring = s.ring := rfl
@[simp] theorem vsyncIncrement_mirror : (vsyncIncrement s).mirror = s.mirror := rfl
@[simp] theorem vsyncIncrement_backendTrace : (vsyncIncrement s).backendTrace = s.backendTrace := rfl
@[simp] theorem vsyncIncrement_sflTrace : (vsyncIncrement s).sflTrace = s.sflTrace := rfl
@[simp] theorem vsyncIncrement_periphTrace : (vsyncIncrement s).periphTrace = s.periphTrace := rfl
@[simp] theorem vsyncIncrement_port : (vsyncIncrement s).port = s.port := rfl
@[simp] theorem vsyncIncrement_pphase : (vsyncIncrement s).pphase = s.pphase := rfl
@[simp] theorem vsyncIncrement_pSignal : (vsyncIncrement s).pSignal = s.pSignal := rfl
@[simp] theorem vsyncIncrement_cphase : (vsyncIncrement s).cphase = s.cphase := rfl
@[simp] theorem vsyncIncrement_replies : (vsyncIncrement s).replies = s.replies := rfl
@[simp] theorem vsyncIncrement_cfg : (vsyncIncrement s).cfg = s.cfg := rfl
@[simp] theorem vsyncIncrement_endlessCall : (vsyncIncrement s).endlessCall = s.endlessCall := rfl
@[simp] theorem vsyncIncrement_turn : (vsyncIncrement s).turn = s.turn := rfl
@[simp] theorem vsyncIncrement_moves : (vsyncIncrement s).moves = s.moves := rfl
@[simp] theorem vsyncIncrement_draws : (vsyncIncrement s).draws = s.draws := rfl
@[simp] theorem vsyncIncrement_capacity : (vsyncIncrement s).capacity = s.capacity := rfl
@[simp] theorem vsyncIncrement_wrap (x : Nat) : (vsyncIncrement s).wrap x = s.wrap x := rfl
@[simp] theorem vsyncIncrement_path (q : PathId) : (vsyncIncrement s).path q = s.path q := rfl

/-! ### `vsyncDecrement` -/

@[simp] theorem vsyncDecrement_writePos : (vsyncDecrement s).writePos = s.writePos := rfl
@[simp] theorem vsyncDecrement_readPos : (vsyncDecrement s).readPos = s.readPos := rfl
@[simp] theorem vsyncDecrement_resv : (vsyncDecrement s).resv = s.resv := rfl
@[simp] theorem vsyncDecrement_paths : (vsyncDecrement s).paths = s.paths := rfl
@[simp] theorem vsyncDecrement_busy : (vsyncDecrement s).busy = s.busy := rfl
@[simp] theorem vsyncDecrement_wakePending : (vsyncDecrement s).wakePending = s.wakePending := rfl
@[simp] theorem vsyncDecrement_vsyncQueued : (vsyncDecrement s).vsyncQueued = s.vsyncQueued - 1 := rfl
@[simp] theorem vsyncDecrement_restartLock : (vsyncDecrement s).restartLock = s.restartLock := rfl
@[simp] theorem vsyncDecrement_tallyWords : (vsyncDecrement s).tallyWords = s.tallyWords := rfl
@[simp] theorem vsyncDecrement_tallyCmds : (vsyncDecrement s).tallyCmds = s.tallyCmds := rfl
@[simp] theorem vsyncDecrement_p3Progress : (vsyncDecrement s).p3Progress = s.p3Progress := rfl
@[simp] theorem vsyncDecrement_session : (vsyncDecrement s).session = s.session := rfl
@[simp] theorem vsyncDecrement_cstate : (vsyncDecrement s).cstate = s.cstate := rfl
@[simp] theorem vsyncDecrement_fault : (vsyncDecrement s).fault = s.fault := rfl
@[simp] theorem vsyncDecrement_unkCmdSeen : (vsyncDecrement s).unkCmdSeen = s.unkCmdSeen := rfl
@[simp] theorem vsyncDecrement_ring : (vsyncDecrement s).ring = s.ring := rfl
@[simp] theorem vsyncDecrement_mirror : (vsyncDecrement s).mirror = s.mirror := rfl
@[simp] theorem vsyncDecrement_backendTrace : (vsyncDecrement s).backendTrace = s.backendTrace := rfl
@[simp] theorem vsyncDecrement_sflTrace : (vsyncDecrement s).sflTrace = s.sflTrace := rfl
@[simp] theorem vsyncDecrement_periphTrace : (vsyncDecrement s).periphTrace = s.periphTrace := rfl
@[simp] theorem vsyncDecrement_port : (vsyncDecrement s).port = s.port := rfl
@[simp] theorem vsyncDecrement_pphase : (vsyncDecrement s).pphase = s.pphase := rfl
@[simp] theorem vsyncDecrement_pSignal : (vsyncDecrement s).pSignal = s.pSignal := rfl
@[simp] theorem vsyncDecrement_cphase : (vsyncDecrement s).cphase = s.cphase := rfl
@[simp] theorem vsyncDecrement_replies : (vsyncDecrement s).replies = s.replies := rfl
@[simp] theorem vsyncDecrement_cfg : (vsyncDecrement s).cfg = s.cfg := rfl
@[simp] theorem vsyncDecrement_endlessCall : (vsyncDecrement s).endlessCall = s.endlessCall := rfl
@[simp] theorem vsyncDecrement_turn : (vsyncDecrement s).turn = s.turn := rfl
@[simp] theorem vsyncDecrement_moves : (vsyncDecrement s).moves = s.moves := rfl
@[simp] theorem vsyncDecrement_draws : (vsyncDecrement s).draws = s.draws := rfl
@[simp] theorem vsyncDecrement_capacity : (vsyncDecrement s).capacity = s.capacity := rfl
@[simp] theorem vsyncDecrement_wrap (x : Nat) : (vsyncDecrement s).wrap x = s.wrap x := rfl
@[simp] theorem vsyncDecrement_path (q : PathId) : (vsyncDecrement s).path q = s.path q := rfl

/-! ### `setLock` -/

@[simp] theorem setLock_writePos (l : Lock) : (setLock l s).writePos = s.writePos := rfl
@[simp] theorem setLock_readPos (l : Lock) : (setLock l s).readPos = s.readPos := rfl
@[simp] theorem setLock_resv (l : Lock) : (setLock l s).resv = s.resv := rfl
@[simp] theorem setLock_paths (l : Lock) : (setLock l s).paths = s.paths := rfl
@[simp] theorem setLock_busy (l : Lock) : (setLock l s).busy = s.busy := rfl
@[simp] theorem setLock_wakePending (l : Lock) : (setLock l s).wakePending = s.wakePending := rfl
@[simp] theorem setLock_vsyncQueued (l : Lock) : (setLock l s).vsyncQueued = s.vsyncQueued := rfl
@[simp] theorem setLock_restartLock (l : Lock) : (setLock l s).restartLock = l := rfl
@[simp] theorem setLock_tallyWords (l : Lock) : (setLock l s).tallyWords = s.tallyWords := rfl
@[simp] theorem setLock_tallyCmds (l : Lock) : (setLock l s).tallyCmds = s.tallyCmds := rfl
@[simp] theorem setLock_p3Progress (l : Lock) : (setLock l s).p3Progress = s.p3Progress := rfl
@[simp] theorem setLock_session (l : Lock) : (setLock l s).session = s.session := rfl
@[simp] theorem setLock_cstate (l : Lock) : (setLock l s).cstate = s.cstate := rfl
@[simp] theorem setLock_fault (l : Lock) : (setLock l s).fault = s.fault := rfl
@[simp] theorem setLock_unkCmdSeen (l : Lock) : (setLock l s).unkCmdSeen = s.unkCmdSeen := rfl
@[simp] theorem setLock_ring (l : Lock) : (setLock l s).ring = s.ring := rfl
@[simp] theorem setLock_mirror (l : Lock) : (setLock l s).mirror = s.mirror := rfl
@[simp] theorem setLock_backendTrace (l : Lock) : (setLock l s).backendTrace = s.backendTrace := rfl
@[simp] theorem setLock_sflTrace (l : Lock) : (setLock l s).sflTrace = s.sflTrace := rfl
@[simp] theorem setLock_periphTrace (l : Lock) : (setLock l s).periphTrace = s.periphTrace := rfl
@[simp] theorem setLock_port (l : Lock) : (setLock l s).port = s.port := rfl
@[simp] theorem setLock_pphase (l : Lock) : (setLock l s).pphase = s.pphase := rfl
@[simp] theorem setLock_pSignal (l : Lock) : (setLock l s).pSignal = s.pSignal := rfl
@[simp] theorem setLock_cphase (l : Lock) : (setLock l s).cphase = s.cphase := rfl
@[simp] theorem setLock_replies (l : Lock) : (setLock l s).replies = s.replies := rfl
@[simp] theorem setLock_cfg (l : Lock) : (setLock l s).cfg = s.cfg := rfl
@[simp] theorem setLock_endlessCall (l : Lock) : (setLock l s).endlessCall = s.endlessCall := rfl
@[simp] theorem setLock_turn (l : Lock) : (setLock l s).turn = s.turn := rfl
@[simp] theorem setLock_moves (l : Lock) : (setLock l s).moves = s.moves := rfl
@[simp] theorem setLock_draws (l : Lock) : (setLock l s).draws = s.draws := rfl
@[simp] theorem setLock_capacity (l : Lock) : (setLock l s).capacity = s.capacity := rfl
@[simp] theorem setLock_wrap (l : Lock) (x : Nat) : (setLock l s).wrap x = s.wrap x := rfl
@[simp] theorem setLock_path (l : Lock) (q : PathId) : (setLock l s).path q = s.path q := rfl

/-! ### `setPath` -/

@[simp] theorem setPath_writePos (p : PathId) (g : GifPath) : (setPath p g s).writePos = s.writePos := rfl
@[simp] theorem setPath_readPos (p : PathId) (g : GifPath) : (setPath p g s).readPos = s.readPos := rfl
@[simp] theorem setPath_resv (p : PathId) (g : GifPath) : (setPath p g s).resv = s.resv := rfl
@[simp] theorem setPath_paths (p : PathId) (g : GifPath) : (setPath p g s).paths = GifPaths.set s.paths p g := rfl
@[simp] theorem setPath_busy (p : PathId) (g : GifPath) : (setPath p g s).busy = s.busy := rfl
@[simp] theorem setPath_wakePending (p : PathId) (g : GifPath) : (setPath p g s).wakePending = s.wakePending := rfl
@[simp] theorem setPath_vsyncQueued (p : PathId) (g : GifPath) : (setPath p g s).vsyncQueued = s.vsyncQueued := rfl
@[simp] theorem setPath_restartLock (p : PathId) (g : GifPath) : (setPath p g s).restartLock = s.restartLock := rfl
@[simp] theorem setPath_tallyWords (p : PathId) (g : GifPath) : (setPath p g s).tallyWords = s.tallyWords := rfl
@[simp] theorem setPath_tallyCmds (p : PathId) (g : GifPath) : (setPath p g s).tallyCmds = s.tallyCmds := rfl
@[simp] theorem setPath_p3Progress (p : PathId) (g : GifPath) : (setPath p g s).p3Progress = s.p3Progress := rfl
@[simp] theorem setPath_session (p : PathId) (g : GifPath) : (setPath p g s).session = s.session := rfl
@[simp] theorem setPath_cstate (p : PathId) (g : GifPath) : (setPath p g s).cstate = s.cstate := rfl
@[simp] theorem setPath_fault (p : PathId) (g : GifPath) : (setPath p g s).fault = s.fault := rfl
@[simp] theorem setPath_unkCmdSeen (p : PathId) (g : GifPath) : (setPath p g s).unkCmdSeen = s.unkCmdSeen := rfl
@[simp] theorem setPath_ring (p : PathId) (g : GifPath) : (setPath p g s).ring = s.ring := rfl
@[simp] theorem setPath_mirror (p : PathId) (g : GifPath) : (setPath p g s).mirror = s.mirror := rfl
@[simp] theorem setPath_backendTrace (p : PathId) (g : GifPath) : (setPath p g s).backendTrace = s.backendTrace := rfl
@[simp] theorem setPath_sflTrace (p : PathId) (g : GifPath) : (setPath p g s).sflTrace = s.sflTrace := rfl
@[simp] theorem setPath_periphTrace (p : PathId) (g : GifPath) : (setPath p g s).periphTrace = s.periphTrace := rfl
@[simp] theorem setPath_port (p : PathId) (g : GifPath) : (setPath p g s).port = s.port := rfl
@[simp] theorem setPath_pphase (p : PathId) (g : GifPath) : (setPath p g s).pphase = s.pphase := rfl
@[simp] theorem setPath_pSignal (p : PathId) (g : GifPath) : (setPath p g s).pSignal = s.pSignal := rfl
@[simp] theorem setPath_cphase (p : PathId) (g : GifPath) : (setPath p g s).cphase = s.cphase := rfl
@[simp] theorem setPath_replies (p : PathId) (g : GifPath) : (setPath p g s).replies = s.replies := rfl
@[simp] theorem setPath_cfg (p : PathId) (g : GifPath) : (setPath p g s).cfg = s.cfg := rfl
@[simp] theorem setPath_endlessCall (p : PathId) (g : GifPath) : (setPath p g s).endlessCall = s.endlessCall := rfl
@[simp] theorem setPath_turn (p : PathId) (g : GifPath) : (setPath p g s).turn = s.turn := rfl
@[simp] theorem setPath_moves (p : PathId) (g : GifPath) : (setPath p g s).moves = s.moves := rfl
@[simp] theorem setPath_draws (p : PathId) (g : GifPath) : (setPath p g s).draws = s.draws := rfl
@[simp] theorem setPath_capacity (p : PathId) (g : GifPath) : (setPath p g s).capacity = s.capacity := rfl
@[simp] theorem setPath_wrap (p : PathId) (g : GifPath) (x : Nat) : (setPath p g s).wrap x = s.wrap x := rfl

/-! ### The wake decision -/

@[simp] theorem wakeWith_writePos (b : Bool) (n : Nat) : (wakeWith b n s).writePos = s.writePos := by
  unfold wakeWith; split <;> rfl
@[simp] theorem wakeWith_readPos (b : Bool) (n : Nat) : (wakeWith b n s).readPos = s.readPos := by
  unfold wakeWith; split <;> rfl
@[simp] theorem wakeWith_resv (b : Bool) (n : Nat) : (wakeWith b n s).resv = s.resv := by
  unfold wakeWith; split <;> rfl
@[simp] theorem wakeWith_paths (b : Bool) (n : Nat) : (wakeWith b n s).paths = s.paths := by
  unfold wakeWith; split <;> rfl
@[simp] theorem wakeWith_busy (b : Bool) (n : Nat) : (wakeWith b n s).busy = s.busy := by
  unfold wakeWith; split <;> rfl
@[simp] theorem wakeWith_vsyncQueued (b : Bool) (n : Nat) : (wakeWith b n s).vsyncQueued = s.vsyncQueued := by
  unfold wakeWith; split <;> rfl
@[simp] theorem wakeWith_restartLock (b : Bool) (n : Nat) : (wakeWith b n s).restartLock = s.restartLock := by
  unfold wakeWith; split <;> rfl
@[simp] theorem wakeWith_p3Progress (b : Bool) (n : Nat) : (wakeWith b n s).p3Progress = s.p3Progress := by
  unfold wakeWith; split <;> rfl
@[simp] theorem wakeWith_session (b : Bool) (n : Nat) : (wakeWith b n s).session = s.session := by
  unfold wakeWith; split <;> rfl
@[simp] theorem wakeWith_cstate (b : Bool) (n : Nat) : (wakeWith b n s).cstate = s.cstate := by
  unfold wakeWith; split <;> rfl
@[simp] theorem wakeWith_fault (b : Bool) (n : Nat) : (wakeWith b n s).fault = s.fault := by
  unfold wakeWith; split <;> rfl
@[simp] theorem wakeWith_unkCmdSeen (b : Bool) (n : Nat) : (wakeWith b n s).unkCmdSeen = s.unkCmdSeen := by
  unfold wakeWith; split <;> rfl
@[simp] theorem wakeWith_ring (b : Bool) (n : Nat) : (wakeWith b n s).ring = s.ring := by
  unfold wakeWith; split <;> rfl
@[simp] theorem wakeWith_mirror (b : Bool) (n : Nat) : (wakeWith b n s).mirror = s.mirror := by
  unfold wakeWith; split <;> rfl
@[simp] theorem wakeWith_backendTrace (b : Bool) (n : Nat) : (wakeWith b n s).backendTrace = s.backendTrace := by
  unfold wakeWith; split <;> rfl
@[simp] theorem wakeWith_sflTrace (b : Bool) (n : Nat) : (wakeWith b n s).sflTrace = s.sflTrace := by
  unfold wakeWith; split <;> rfl
@[simp] theorem wakeWith_periphTrace (b : Bool) (n : Nat) : (wakeWith b n s).periphTrace = s.periphTrace := by
  unfold wakeWith; split <;> rfl
@[simp] theorem wakeWith_port (b : Bool) (n : Nat) : (wakeWith b n s).port = s.port := by
  unfold wakeWith; split <;> rfl
@[simp] theorem wakeWith_pphase (b : Bool) (n : Nat) : (wakeWith b n s).pphase = s.pphase := by
  unfold wakeWith; split <;> rfl
@[simp] theorem wakeWith_pSignal (b : Bool) (n : Nat) : (wakeWith b n s).pSignal = s.pSignal := by
  unfold wakeWith; split <;> rfl
@[simp] theorem wakeWith_cphase (b : Bool) (n : Nat) : (wakeWith b n s).cphase = s.cphase := by
  unfold wakeWith; split <;> rfl
@[simp] theorem wakeWith_replies (b : Bool) (n : Nat) : (wakeWith b n s).replies = s.replies := by
  unfold wakeWith; split <;> rfl
@[simp] theorem wakeWith_cfg (b : Bool) (n : Nat) : (wakeWith b n s).cfg = s.cfg := by
  unfold wakeWith; split <;> rfl
@[simp] theorem wakeWith_endlessCall (b : Bool) (n : Nat) : (wakeWith b n s).endlessCall = s.endlessCall := by
  unfold wakeWith; split <;> rfl
@[simp] theorem wakeWith_turn (b : Bool) (n : Nat) : (wakeWith b n s).turn = s.turn := by
  unfold wakeWith; split <;> rfl
@[simp] theorem wakeWith_moves (b : Bool) (n : Nat) : (wakeWith b n s).moves = s.moves := by
  unfold wakeWith; split <;> rfl
@[simp] theorem wakeWith_draws (b : Bool) (n : Nat) : (wakeWith b n s).draws = s.draws := by
  unfold wakeWith; split <;> rfl

@[simp] theorem wakeDecide_writePos (n : Nat) : (wakeDecide n s).writePos = s.writePos := wakeWith_writePos s _ n
@[simp] theorem wakeDecide_readPos (n : Nat) : (wakeDecide n s).readPos = s.readPos := wakeWith_readPos s _ n
@[simp] theorem wakeDecide_resv (n : Nat) : (wakeDecide n s).resv = s.resv := wakeWith_resv s _ n
@[simp] theorem wakeDecide_paths (n : Nat) : (wakeDecide n s).paths = s.paths := wakeWith_paths s _ n
@[simp] theorem wakeDecide_busy (n : Nat) : (wakeDecide n s).busy = s.busy := wakeWith_busy s _ n
@[simp] theorem wakeDecide_vsyncQueued (n : Nat) : (wakeDecide n s).vsyncQueued = s.vsyncQueued := wakeWith_vsyncQueued s _ n
@[simp] theorem wakeDecide_restartLock (n : Nat) : (wakeDecide n s).restartLock = s.restartLock := wakeWith_restartLock s _ n
@[simp] theorem wakeDecide_p3Progress (n : Nat) : (wakeDecide n s).p3Progress = s.p3Progress := wakeWith_p3Progress s _ n
@[simp] theorem wakeDecide_session (n : Nat) : (wakeDecide n s).session = s.session := wakeWith_session s _ n
@[simp] theorem wakeDecide_cstate (n : Nat) : (wakeDecide n s).cstate = s.cstate := wakeWith_cstate s _ n
@[simp] theorem wakeDecide_fault (n : Nat) : (wakeDecide n s).fault = s.fault := wakeWith_fault s _ n
@[simp] theorem wakeDecide_unkCmdSeen (n : Nat) : (wakeDecide n s).unkCmdSeen = s.unkCmdSeen := wakeWith_unkCmdSeen s _ n
@[simp] theorem wakeDecide_ring (n : Nat) : (wakeDecide n s).ring = s.ring := wakeWith_ring s _ n
@[simp] theorem wakeDecide_mirror (n : Nat) : (wakeDecide n s).mirror = s.mirror := wakeWith_mirror s _ n
@[simp] theorem wakeDecide_backendTrace (n : Nat) : (wakeDecide n s).backendTrace = s.backendTrace := wakeWith_backendTrace s _ n
@[simp] theorem wakeDecide_sflTrace (n : Nat) : (wakeDecide n s).sflTrace = s.sflTrace := wakeWith_sflTrace s _ n
@[simp] theorem wakeDecide_periphTrace (n : Nat) : (wakeDecide n s).periphTrace = s.periphTrace := wakeWith_periphTrace s _ n
@[simp] theorem wakeDecide_port (n : Nat) : (wakeDecide n s).port = s.port := wakeWith_port s _ n
@[simp] theorem wakeDecide_pphase (n : Nat) : (wakeDecide n s).pphase = s.pphase := wakeWith_pphase s _ n
@[simp] theorem wakeDecide_pSignal (n : Nat) : (wakeDecide n s).pSignal = s.pSignal := wakeWith_pSignal s _ n
@[simp] theorem wakeDecide_cphase (n : Nat) : (wakeDecide n s).cphase = s.cphase := wakeWith_cphase s _ n
@[simp] theorem wakeDecide_replies (n : Nat) : (wakeDecide n s).replies = s.replies := wakeWith_replies s _ n
@[simp] theorem wakeDecide_cfg (n : Nat) : (wakeDecide n s).cfg = s.cfg := wakeWith_cfg s _ n
@[simp] theorem wakeDecide_endlessCall (n : Nat) : (wakeDecide n s).endlessCall = s.endlessCall := wakeWith_endlessCall s _ n
@[simp] theorem wakeDecide_turn (n : Nat) : (wakeDecide n s).turn = s.turn := wakeWith_turn s _ n
@[simp] theorem wakeDecide_moves (n : Nat) : (wakeDecide n s).moves = s.moves := wakeWith_moves s _ n
@[simp] theorem wakeDecide_draws (n : Nat) : (wakeDecide n s).draws = s.draws + 1 := rfl

/-- P reads the consumer as idle and a threshold is reached: one signal, and the tallies are cleared (R138, R139). -/
theorem wakeWith_signals (n : Nat) (h : thresholdReached (tally n s) = true) :
    wakeWith false n s = signalWake (tally n s) := by
  simp [wakeWith, h]

/-- Otherwise the tallies grow and nothing is signalled (R138). -/
theorem wakeWith_tallies (b : Bool) (n : Nat) (h : b = true ∨ thresholdReached (tally n s) = false) :
    wakeWith b n s = tally n s := by
  rcases h with h | h <;> simp [wakeWith, h]

/-! ### The path accessor -/

@[simp] theorem GifPaths.get_set_self (g : GifPaths) (p : PathId) (r : GifPath) :
    GifPaths.get (GifPaths.set g p r) p = r := by
  simp [GifPaths.get, GifPaths.set]

theorem GifPaths.get_set_other (g : GifPaths) {p q : PathId} (r : GifPath) (h : q ≠ p) :
    GifPaths.get (GifPaths.set g p r) q = GifPaths.get g q := by
  have hv : p.val ≠ q.val := fun hv => h (Fin.ext hv.symm)
  simp [GifPaths.get, GifPaths.set, hv]

@[simp] theorem setPath_path_self (p : PathId) (g : GifPath) : (setPath p g s).path p = g :=
  GifPaths.get_set_self s.paths p g

theorem setPath_path_other {p q : PathId} (g : GifPath) (h : q ≠ p) : (setPath p g s).path q = s.path q :=
  GifPaths.get_set_other s.paths g h

/-! ### `openSession` (42_producer.md R201): what it resets and what it keeps -/

@[simp] theorem openSession_writePos : (openSession s).writePos = 0 := rfl
@[simp] theorem openSession_readPos : (openSession s).readPos = 0 := rfl
@[simp] theorem openSession_resv : (openSession s).resv = none := rfl
@[simp] theorem openSession_paths : (openSession s).paths = GifPaths.zero := rfl
@[simp] theorem openSession_busy : (openSession s).busy = false := rfl
@[simp] theorem openSession_wakePending : (openSession s).wakePending = false := rfl
@[simp] theorem openSession_vsyncQueued : (openSession s).vsyncQueued = 0 := rfl
@[simp] theorem openSession_restartLock : (openSession s).restartLock = .free := rfl
@[simp] theorem openSession_tallyWords : (openSession s).tallyWords = 0 := rfl
@[simp] theorem openSession_tallyCmds : (openSession s).tallyCmds = 0 := rfl
@[simp] theorem openSession_p3Progress : (openSession s).p3Progress = false := rfl
@[simp] theorem openSession_session : (openSession s).session = .opened := rfl
@[simp] theorem openSession_cstate : (openSession s).cstate = .waiting := rfl
@[simp] theorem openSession_fault : (openSession s).fault = none := rfl
@[simp] theorem openSession_unkCmdSeen : (openSession s).unkCmdSeen = false := rfl
@[simp] theorem openSession_ring : (openSession s).ring = [] := rfl
@[simp] theorem openSession_mirror : (openSession s).mirror = [] := rfl
@[simp] theorem openSession_backendTrace : (openSession s).backendTrace = [] := rfl
@[simp] theorem openSession_sflTrace : (openSession s).sflTrace = [] := rfl
@[simp] theorem openSession_periphTrace : (openSession s).periphTrace = [] := rfl
@[simp] theorem openSession_port : (openSession s).port = s.port := rfl
@[simp] theorem openSession_pphase : (openSession s).pphase = .idle := rfl
@[simp] theorem openSession_pSignal : (openSession s).pSignal = false := rfl
@[simp] theorem openSession_cphase : (openSession s).cphase = .top := rfl
@[simp] theorem openSession_replies : (openSession s).replies = s.replies := rfl
@[simp] theorem openSession_cfg : (openSession s).cfg = s.cfg := rfl
@[simp] theorem openSession_endlessCall : (openSession s).endlessCall = false := rfl
@[simp] theorem openSession_turn : (openSession s).turn = s.turn := rfl
@[simp] theorem openSession_moves : (openSession s).moves = s.moves := rfl
@[simp] theorem openSession_draws : (openSession s).draws = s.draws := rfl

end Sys2Proof.Machine
end

