-- ==== Sys2Proof/Laws/Ops.lean ====
section
/-! SUPPORT. One lemma per shared operation that says everything it can do: proofs cite these and do not unfold the
operation. -/

namespace Sys2Proof.Machine

/-! ### Outcomes -/

@[simp] theorem next_eq_next {s t : State} : (Host.Outcome.next s : Result) = .next t ↔ s = t :=
  ⟨fun h => by cases h; rfl, fun h => by rw [h]⟩

/-- A live block: the step itself. -/
theorem alive_of_live {s : State} (h : s.fault = none) (body : Result) : alive s body = body := by
  simp [alive, h]

/-- A dead block: the fault. -/
theorem alive_of_dead {s : State} (h : s.fault ≠ none) (body : Result) : alive s body = .fault .deadBlock := by
  cases hf : s.fault with
  | none => exact absurd hf h
  | some f => simp [alive, hf]

theorem alive_next {s t : State} {body : Result} : alive s body = .next t ↔ s.fault = none ∧ body = .next t := by
  cases hf : s.fault with
  | none => simp [alive, hf]
  | some f => simp [alive, hf]

theorem onNext_next {f : State → State} {r : Result} {t : State} :
    onNext f r = .next t ↔ ∃ u, r = .next u ∧ t = f u := by
  cases r <;> simp [onNext, eq_comm]

/-- A step of the machine is a step of the agent in turn, in a live block, and then the draw of the next turn. -/
theorem step_next {s t : State} :
    step s = .next t ↔ s.fault = none ∧ ∃ u, agentStep s = .next u ∧ t = reschedule u := by
  rw [step, alive_next, onNext_next]

/-! ### Taking an exception -/

/-- The first fault is recorded, and a fault of C halts C (60_exceptions.md R291, R292). -/
theorem raise_live {s : State} (h : s.fault = none) (a : Agent) (code : ErrCode) (info : W64) :
    raise a code info s =
      .next { s with
        fault := some { code := code, agent := a, info := info }
        cstate := match a with | .p => s.cstate | .c => .halted } := by
  cases a <;> simp [raise, h]

/-! ### The wake decision -/

/-- The wake part of a commit in the terms that claims use (40_ring.md R138). -/
theorem wakeWith_eq (b : Bool) (size : Nat) (s : State) : wakeWith b size s = afterWake b size s := by
  unfold wakeWith
  split
  · rename_i h
    obtain ⟨rfl, ht⟩ := h
    have hc : commitSignals false size s = true := ht
    simp [signalWake, tally, afterWake, hc]
  · rename_i h
    have hc : commitSignals b size s = false := by
      cases b with
      | true => rfl
      | false =>
        have ht : thresholdReached (tally size s) = false := by simpa using h
        exact ht
    simp [tally, afterWake, hc]

theorem wakeDecide_eq (size : Nat) (s : State) :
    wakeDecide size s = { afterWake (Config.drawBusy s.draws) size s with draws := s.draws + 1 } := by
  rw [wakeDecide, wakeWith_eq]

/-! ### Publishing -/

@[simp] theorem resvAfterPublish_sendData (r : Option Reservation) : resvAfterPublish .sendData r = none := rfl
@[simp] theorem resvAfterPublish_retire (r : Option Reservation) : resvAfterPublish .retire r = r := rfl
@[simp] theorem resvAfterPublish_close (r : Option Reservation) : resvAfterPublish .close r = r := rfl
@[simp] theorem resvAfterPublish_restart (pkt : Packet) (r : Option Reservation) :
    resvAfterPublish (.restart pkt) r = r := rfl
@[simp] theorem resvAfterPublish_none (after : AfterCommit) : resvAfterPublish after none = none := by
  cases after <;> rfl

/-- Only SEND_DATA's publish consumes the reservation (10_state.md R39). -/
theorem resvAfterPublish_eq (after : AfterCommit) (r : Option Reservation) :
    resvAfterPublish after r = if after = .sendData then none else r := by
  cases after <;> simp

/-! ### Phases -/

/-- The parser's end and its going on write P's place only. -/
theorem continueParse_eq (run : ParseRun) (s : State) :
    continueParse run s =
      toPPhase (if run.rest.isEmpty || endOfPacket (s.path run.path)
        then .reserve { path := run.path, payload := run.taken } else .parsing run) s := by
  unfold continueParse
  split <;> rfl

theorem startParse_eq (p : PathId) (data : List Word) (s : State) :
    startParse p data s =
      toPPhase (if data.isEmpty then .reserve { path := p, payload := [] }
        else .parsing { path := p, taken := [], rest := data, half := .lower }) s := by
  unfold startParse
  split <;> rfl

/-! ### Host operations -/

theorem hostOp_idle {s : State} (op : BitVec 4) (accept : Result) (h : s.fault = none) (hi : s.pphase = .idle) :
    hostOp op s accept = if apiCheck op s then accept else raise .p .errApi (apiInfo op 0) s := by
  simp [hostOp, alive_of_live h, hi]

theorem hostOp_busy {s : State} (op : BitVec 4) (accept : Result) (h : s.fault = none) (hi : s.pphase ≠ .idle) :
    hostOp op s accept = producerContinue s := by
  rw [hostOp, alive_of_live h]
  split
  · exact absurd ‹_› hi
  · rfl

/-- Everything a host operation's step can do: be accepted, be refused with ERR_API, or go on. -/
theorem hostOp_next {s t : State} {op : BitVec 4} {accept : Result} (h : hostOp op s accept = .next t) :
    s.fault = none ∧
      ((s.pphase = .idle ∧ apiCheck op s = true ∧ accept = .next t) ∨
        (s.pphase = .idle ∧ apiCheck op s = false ∧ raise .p .errApi (apiInfo op 0) s = .next t) ∨
        (s.pphase ≠ .idle ∧ producerContinue s = .next t)) := by
  obtain ⟨hf, hb⟩ := alive_next.mp h
  refine ⟨hf, ?_⟩
  by_cases hi : s.pphase = .idle
  · rw [hi] at hb
    cases hc : apiCheck op s with
    | true => exact .inl ⟨hi, rfl, by simpa [hc] using hb⟩
    | false => exact .inr (.inl ⟨hi, rfl, by simpa [hc] using hb⟩)
  · refine .inr (.inr ⟨hi, ?_⟩)
    split at hb
    · exact absurd ‹_› hi
    · exact hb

/-- The checks of R200 for an operation that needs an open session and no reservation. -/
theorem apiCheck_of_accepts {s : State} (h : s.session = .opened) (hr : s.resv = none) (op : BitVec 4)
    (hop : op = 1 ∨ op = 2 ∨ op = 3 ∨ op = 5 ∨ op = 6 ∨ op = 7 ∨ op = 8 ∨ op = 9 ∨ op = 10) :
    apiCheck op s = true := by
  rcases hop with rfl | rfl | rfl | rfl | rfl | rfl | rfl | rfl | rfl <;> simp [apiCheck, h, hr]

/-! ### P's steps -/

/-- After a failed evaluation P signals (40_ring.md R139). -/
theorem producerContinue_signal {s : State} (h : s.pSignal = true) :
    producerContinue s = .next { signalWake s with pSignal := false } := by
  simp [producerContinue, h]

theorem reserveStep_next {pkt : Packet} {s t : State} (h : reserveStep pkt s = .next t) :
    (reserveCase s.capacity s.writePos s.readPos (pkt.payload.length + 1) = .oversize ∧
        raise .p .errOversize (saturate64 (pkt.payload.length + 1)) s = .next t) ∨
      (reserveCase s.capacity s.writePos s.readPos (pkt.payload.length + 1) = .wait ∧ t = guardFailed s) ∨
      (reserveCase s.capacity s.writePos s.readPos (pkt.payload.length + 1) = .place ∧ t = fillPacket pkt s) ∨
      (reserveCase s.capacity s.writePos s.readPos (pkt.payload.length + 1) = .restart ∧
        t = toPPhase (.lockAcquire pkt) s) := by
  unfold reserveStep at h
  split at h <;> rename_i hc
  · exact .inl ⟨hc, h⟩
  · exact .inr (.inl ⟨hc, (next_eq_next.mp h).symm⟩)
  · exact .inr (.inr (.inl ⟨hc, (next_eq_next.mp h).symm⟩))
  · exact .inr (.inr (.inr ⟨hc, (next_eq_next.mp h).symm⟩))

theorem slotStep_next {header : Word} {after : AfterCommit} {s t : State} (h : slotStep header after s = .next t) :
    (s.capacity - 1 < 1 ∧ raise .p .errOversize (saturate64 1) s = .next t) ∨
      (1 ≤ s.capacity - 1 ∧ slotGuard s = true ∧
        t = toPPhase (.publish s.writePos 1 after) (ringWrite s.writePos header s)) ∨
      (1 ≤ s.capacity - 1 ∧ slotGuard s = false ∧ t = guardFailed s) := by
  unfold slotStep at h
  split at h
  · exact .inl ⟨‹_›, h⟩
  · split at h
    · exact .inr (.inl ⟨by omega, ‹_›, (next_eq_next.mp h).symm⟩)
    · exact .inr (.inr ⟨by omega, by simpa using ‹¬ slotGuard s = true›, (next_eq_next.mp h).symm⟩)

/-! ### The parser's items -/

theorem parserItem_next {s t : State} {body : ParseRun → Result} :
    parserItem s body = .next t ↔ s.fault = none ∧ ∃ run, s.pphase = .parsing run ∧ body run = .next t := by
  rw [parserItem, alive_next]
  constructor
  · rintro ⟨hf, hb⟩
    refine ⟨hf, ?_⟩
    split at hb
    · exact ⟨_, ‹_›, hb⟩
    · cases hb
  · rintro ⟨hf, run, hp, hb⟩
    refine ⟨hf, ?_⟩
    rw [hp]
    exact hb

theorem dataItem_next {s t : State} {body : ParseRun → Result} :
    dataItem s body = .next t ↔
      s.fault = none ∧ ∃ run, s.pphase = .parsing run ∧ (s.path run.path).tag.nloop ≠ 0 ∧ body run = .next t := by
  rw [dataItem, parserItem_next]
  constructor
  · rintro ⟨hf, run, hp, hb⟩
    split at hb
    · cases hb
    · exact ⟨hf, run, hp, ‹_›, hb⟩
  · rintro ⟨hf, run, hp, hn, hb⟩
    exact ⟨hf, run, hp, by rw [if_neg hn]; exact hb⟩

/-- A tag item: the record is loaded, the progress flag recomputed, and the run ends by the clip or goes on. -/
theorem tagItem_next {flg : BitVec 2} {t : TagFields} {s u : State} (h : tagItem flg t s = .next u) :
    s.fault = none ∧ ∃ run, s.pphase = .parsing run ∧
      (if clips run.path (fetchTag flg t (s.path run.path)).tag (run.rest.length - 1) then
        u = endParse run (setPath run.path (abortTag (fetchTag flg t (s.path run.path)))
          { s with p3Progress := progressAfter run.path (fetchTag flg t (s.path run.path)).tag s.p3Progress })
      else
        u = continueParse run.take (setPath run.path (fetchTag flg t (s.path run.path))
          { s with p3Progress := progressAfter run.path (fetchTag flg t (s.path run.path)).tag s.p3Progress })) := by
  obtain ⟨hf, run, hp, hb⟩ := parserItem_next.mp h
  refine ⟨hf, run, hp, ?_⟩
  dsimp only at hb
  split at hb
  · rw [if_pos ‹_›]
    exact (next_eq_next.mp hb).symm
  · rw [if_neg ‹_›]
    exact (next_eq_next.mp hb).symm

theorem packedItem_next {k : Option Sfl} {w0 w1 : W32} {s t : State} (h : packedItem k w0 w1 s = .next t) :
    s.fault = none ∧ ∃ run, s.pphase = .parsing run ∧ (s.path run.path).tag.nloop ≠ 0 ∧
      t = continueParse run.take (setPath run.path (stepReg (s.path run.path)).path (raiseIf k w0 w1 s)) := by
  obtain ⟨hf, run, hp, hn, hb⟩ := dataItem_next.mp h
  exact ⟨hf, run, hp, hn, (next_eq_next.mp hb).symm⟩

theorem reglistItem_next {k : Option Sfl} {u : W64} {s t : State} (h : reglistItem k u s = .next t) :
    s.fault = none ∧ ∃ run, s.pphase = .parsing run ∧ (s.path run.path).tag.nloop ≠ 0 ∧
      t = continueParse (run.afterUnit (stepReg (s.path run.path)).more)
        (setPath run.path (stepReg (s.path run.path)).path
          (raiseIf k (u.extractLsb' 0 32) (u.extractLsb' 32 32) s)) := by
  obtain ⟨hf, run, hp, hn, hb⟩ := dataItem_next.mp h
  exact ⟨hf, run, hp, hn, (next_eq_next.mp hb).symm⟩

theorem imageItem_next {s t : State} (h : imageItem s = .next t) :
    s.fault = none ∧ ∃ run, s.pphase = .parsing run ∧ (s.path run.path).tag.nloop ≠ 0 ∧
      t = continueParse run.take (setPath run.path (imageWords 1 (s.path run.path)) s) := by
  obtain ⟨hf, run, hp, hn, hb⟩ := dataItem_next.mp h
  exact ⟨hf, run, hp, hn, (next_eq_next.mp hb).symm⟩

/-- The register step counts down the tag's units: `nloop * numregs - curreg` (41_gifpath.md R164). Inside the ranges of
R39 it takes one away, and `more` says whether any are left. -/
theorem stepReg_units (g : GifPath) (hn : g.tag.nloop ≠ 0) (hc : g.curreg.toNat < numregs g.tag) :
    (stepReg g).path.tag.nloop.toNat * numregs g.tag + g.curreg.toNat + 1 =
      g.tag.nloop.toNat * numregs g.tag + (stepReg g).path.curreg.toNat ∧
    numregs (stepReg g).path.tag = numregs g.tag ∧
    ((stepReg g).more = true ↔ (stepReg g).path.tag.nloop ≠ 0) := by
  have hr : numregs g.tag ≤ 16 := by
    unfold numregs
    split
    · exact le_refl _
    · have := g.tag.nreg.isLt
      omega
  have hinc : (g.curreg + 1).toNat = g.curreg.toNat + 1 := by
    have h1 : (1 : Byte).toNat = 1 := rfl
    rw [BitVec.toNat_add, h1]
    omega
  have hpos : 0 < g.tag.nloop.toNat := by
    rcases Nat.eq_zero_or_pos g.tag.nloop.toNat with h0 | h0
    · exact absurd (BitVec.eq_of_toNat_eq (by simpa using h0)) hn
    · exact h0
  have hdec : (g.tag.nloop - 1).toNat = g.tag.nloop.toNat - 1 := by
    have h1 : (1 : BitVec 15).toNat = 1 := rfl
    have := g.tag.nloop.isLt
    rw [BitVec.toNat_sub, h1]
    omega
  unfold stepReg
  split
  · rename_i h
    refine ⟨?_, rfl, by simp⟩
    obtain ⟨k, hk⟩ : ∃ k, g.tag.nloop.toNat = k + 1 := ⟨g.tag.nloop.toNat - 1, by omega⟩
    have h0 : (0 : Byte).toNat = 0 := rfl
    simp only [hdec, h0]
    rw [hk, Nat.add_sub_cancel, Nat.succ_mul]
    omega
  · refine ⟨?_, rfl, by simpa using hn⟩
    simp only [hinc]
    omega

/-! ### C's steps -/

theorem ringCommand_dispatch {s : State} (body : Result) (h : s.atDispatch) : ringCommand s body = body := by
  obtain ⟨hf, hc, hp⟩ := h
  simp [ringCommand, alive_of_live hf, hc, hp]

/-- Everything a ring command's step can do: dispatch, or go on with the command C is in. -/
theorem ringCommand_next {s t : State} {body : Result} (h : ringCommand s body = .next t) :
    s.fault = none ∧ s.cstate = .draining ∧
      ((s.cphase = .dispatch ∧ body = .next t) ∨ (s.cphase ≠ .dispatch ∧ consumerContinue s = .next t)) := by
  obtain ⟨hf, hb⟩ := alive_next.mp h
  cases hc : s.cstate with
  | off => simp [hc] at hb
  | waiting => simp [hc] at hb
  | halted => simp [hc] at hb
  | draining =>
    refine ⟨hf, rfl, ?_⟩
    rw [hc] at hb
    dsimp only at hb
    split at hb
    · exact .inl ⟨‹_›, hb⟩
    · exact .inr ⟨‹_›, hb⟩

theorem consumerContinue_next {s t : State} (h : consumerContinue s = .next t) :
    (∃ k, s.cphase = .advance k ∧ t = toCPhase .top (advance k s)) ∨
      (s.cphase = .vsyncCount ∧ t = toCPhase .vsyncHookA (vsyncDecrement s)) ∨
      (s.cphase = .vsyncHookA ∧ t = toCPhase .vsyncHookB (emitPeriph .a s)) ∨
      (s.cphase = .vsyncHookB ∧ t = toCPhase (.advance 1) (emitPeriph .b s)) ∨
      (s.cphase = .restartStore ∧ t = toCPhase .restartRelease { s with readPos := 0 }) ∨
      (s.cphase = .restartRelease ∧ t = toCPhase .top (setLock .free s)) ∨
      (s.cphase = .quitHalt ∧ t = quitHalt s) := by
  unfold consumerContinue at h
  split at h <;> rename_i hc <;> simp only [next_eq_next, reduceCtorEq] at h <;> subst h <;> simp [hc]

/-- A path transfer's dispatch that completes: the packet ends at or before the top, its payload is read and handed over. -/
theorem transfer_completes {p : PathId} {size : W32} {s : State} {words : List Word}
    (hfit : s.readPos + 1 + size.toNat ≤ s.capacity)
    (hread : Memory.readSpan s.ring (s.readPos + 1) size.toNat = some words) :
    transfer p size s = .next (toCPhase (.advance (1 + size.toNat)) (emitBackend (.transfer p words size) s)) := by
  simp [transfer, spanFits, hfit, hread]

theorem transfer_next {p : PathId} {size : W32} {s t : State} (h : transfer p size s = .next t) :
    (s.readPos + 1 + size.toNat ≤ s.capacity ∧ ∃ words,
        Memory.readSpan s.ring (s.readPos + 1) size.toNat = some words ∧
        t = toCPhase (.advance (1 + size.toNat)) (emitBackend (.transfer p words size) s)) ∨
      (s.capacity < s.readPos + 1 + size.toNat ∧
        raise .c .errOvertake (BitVec.ofNat 64 s.readPos) s = .next t) := by
  unfold transfer at h
  split at h
  · rename_i hfit
    split at h
    · rename_i words hw
      exact .inl ⟨by simpa [spanFits] using hfit, words, hw, (next_eq_next.mp h).symm⟩
    · cases h
  · rename_i hfit
    exact .inr ⟨by simpa [spanFits] using hfit, h⟩

theorem memoryWrite_next {off : W32} {n : Nat} {v : W64} {s t : State} (h : memoryWrite off n v s = .next t) :
    (off.toNat % n = 0 ∧ off.toNat + n ≤ s.cfg.mirrorBytes ∧
        t = toCPhase (.advance 1) (memWrite off.toNat n v s)) ∨
      (memFits off.toNat n s = false ∧ raise .c .errMemwrite (off.setWidth 64) s = .next t) := by
  unfold memoryWrite at h
  split at h
  · rename_i hm
    have hm' : off.toNat % n = 0 ∧ off.toNat + n ≤ s.cfg.mirrorBytes := by simpa [memFits] using hm
    exact .inl ⟨hm'.1, hm'.2, (next_eq_next.mp h).symm⟩
  · rename_i hm
    exact .inr ⟨by simpa using hm, h⟩

end Sys2Proof.Machine
end

