-- ==== Sys2Proof/Laws/PerInstr.lean ====
section
/-! SUPPORT. Statements made of every instruction, one lemma per constructor. The family here: what the decoder answers is
well-formed, so that the checks of `Instr.wf` are the ones the encodings of spec/30_encoding.md impose. -/

namespace Sys2Proof.Laws

/-- Whatever code decodes to this instruction, the instruction is well-formed. -/
def DecodedWellFormed.Statement (i : Instr) : Prop :=
  ∀ (rl : Option (Fin 14)) (c : Code), decode rl c = i → i.wf rl = true

/-! ### The decoder of each kind of code -/

theorem decodeHeader_wf (rl : Option (Fin 14)) (w : Word) : (decodeHeader w).wf rl = true := by
  unfold decodeHeader
  dsimp only
  split <;> try rfl
  rename_i h
  simp only [Instr.wf, decide_eq_true_eq]
  by_contra hlt
  have : (headerCommand w).toNat < 16 := by omega
  interval_cases hc : (headerCommand w).toNat <;> simp_all

theorem decodeTag_wf (rl : Option (Fin 14)) (w : Word) : (decodeTag w).wf rl = true := by
  unfold decodeTag
  split <;> rfl

theorem sflOf_eq_none {base c : Nat} (h : sflOf base c = none) : inSflRange base c = false := by
  unfold sflOf at h
  split at h
  · split at h <;> cases h
  · rename_i hr
    simp only [inSflRange, Bool.and_eq_false_imp, decide_eq_true_eq, decide_eq_false_iff_not]
    omega

theorem decodePacked_wf (rl : Option (Fin 14)) (sel : Byte) (u : Word) : (decodePacked sel u).wf rl = true := by
  unfold decodePacked
  split
  · split <;> try rfl
    rename_i h
    have := sflOf_eq_none h
    simpa [Instr.wf, adIndex, unitIndex] using this
  · rename_i h
    simpa [Instr.wf] using h

theorem decodeReglist_wf (rl : Option (Fin 14)) (sel : Byte) (u : W64) : (decodeReglist rl sel u).wf rl = true := by
  unfold decodeReglist
  cases rl with
  | none => rfl
  | some b =>
    split <;> try rfl
    rename_i h
    have := sflOf_eq_none h
    simp [Instr.wf, isReglistSfl, this]

theorem decodeRequest_wf (rl : Option (Fin 14)) (r : HostRequest) : (decodeRequest r).wf rl = true := by
  unfold decodeRequest
  split <;> rfl

theorem decode_wf (rl : Option (Fin 14)) (c : Code) : (decode rl c).wf rl = true := by
  cases c with
  | header w => exact decodeHeader_wf rl w
  | tag w => exact decodeTag_wf rl w
  | packed sel u => exact decodePacked_wf rl sel u
  | reglist sel u => exact decodeReglist_wf rl sel u
  | image w => rfl
  | image3 w => rfl
  | request r => exact decodeRequest_wf rl r

theorem DecodedWellFormed.of_decode (i : Instr) : DecodedWellFormed.Statement i :=
  fun rl c h => h ▸ decode_wf rl c

/-! ### One lemma per constructor -/

theorem DecodedWellFormed.p1 : ∀ a, DecodedWellFormed.Statement (.p1 a) :=
  fun _ => DecodedWellFormed.of_decode _
theorem DecodedWellFormed.p2 : ∀ a, DecodedWellFormed.Statement (.p2 a) :=
  fun _ => DecodedWellFormed.of_decode _
theorem DecodedWellFormed.p3 : ∀ a, DecodedWellFormed.Statement (.p3 a) :=
  fun _ => DecodedWellFormed.of_decode _
theorem DecodedWellFormed.vsync : ∀ a, DecodedWellFormed.Statement (.vsync a) :=
  fun _ => DecodedWellFormed.of_decode _
theorem DecodedWellFormed.softreset : ∀ a, DecodedWellFormed.Statement (.softreset a) :=
  fun _ => DecodedWellFormed.of_decode _
theorem DecodedWellFormed.reset : DecodedWellFormed.Statement .reset := DecodedWellFormed.of_decode _
theorem DecodedWellFormed.writecsr : ∀ a, DecodedWellFormed.Statement (.writecsr a) :=
  fun _ => DecodedWellFormed.of_decode _
theorem DecodedWellFormed.memwrite8 : ∀ a b, DecodedWellFormed.Statement (.memwrite8 a b) :=
  fun _ _ => DecodedWellFormed.of_decode _
theorem DecodedWellFormed.memwrite16 : ∀ a b, DecodedWellFormed.Statement (.memwrite16 a b) :=
  fun _ _ => DecodedWellFormed.of_decode _
theorem DecodedWellFormed.memwrite32 : ∀ a b, DecodedWellFormed.Statement (.memwrite32 a b) :=
  fun _ _ => DecodedWellFormed.of_decode _
theorem DecodedWellFormed.memwrite64 : ∀ a b, DecodedWellFormed.Statement (.memwrite64 a b) :=
  fun _ _ => DecodedWellFormed.of_decode _
theorem DecodedWellFormed.modechange : ∀ a b, DecodedWellFormed.Statement (.modechange a b) :=
  fun _ _ => DecodedWellFormed.of_decode _
theorem DecodedWellFormed.freeze : ∀ a b, DecodedWellFormed.Statement (.freeze a b) :=
  fun _ _ => DecodedWellFormed.of_decode _
theorem DecodedWellFormed.record : DecodedWellFormed.Statement .record := DecodedWellFormed.of_decode _
theorem DecodedWellFormed.restart : DecodedWellFormed.Statement .restart := DecodedWellFormed.of_decode _
theorem DecodedWellFormed.quit : DecodedWellFormed.Statement .quit := DecodedWellFormed.of_decode _
theorem DecodedWellFormed.unrecognised : ∀ a, DecodedWellFormed.Statement (.unrecognised a) :=
  fun _ => DecodedWellFormed.of_decode _
theorem DecodedWellFormed.giftagPacked : ∀ a, DecodedWellFormed.Statement (.giftagPacked a) :=
  fun _ => DecodedWellFormed.of_decode _
theorem DecodedWellFormed.giftagReglist : ∀ a, DecodedWellFormed.Statement (.giftagReglist a) :=
  fun _ => DecodedWellFormed.of_decode _
theorem DecodedWellFormed.giftagImage : ∀ a, DecodedWellFormed.Statement (.giftagImage a) :=
  fun _ => DecodedWellFormed.of_decode _
theorem DecodedWellFormed.giftagImage3 : ∀ a, DecodedWellFormed.Statement (.giftagImage3 a) :=
  fun _ => DecodedWellFormed.of_decode _
theorem DecodedWellFormed.packedAd : ∀ a, DecodedWellFormed.Statement (.packedAd a) :=
  fun _ => DecodedWellFormed.of_decode _
theorem DecodedWellFormed.packedOther : ∀ a b, DecodedWellFormed.Statement (.packedOther a b) :=
  fun _ _ => DecodedWellFormed.of_decode _
theorem DecodedWellFormed.adSignal : ∀ a b c, DecodedWellFormed.Statement (.adSignal a b c) :=
  fun _ _ _ => DecodedWellFormed.of_decode _
theorem DecodedWellFormed.adFinish : ∀ a b c, DecodedWellFormed.Statement (.adFinish a b c) :=
  fun _ _ _ => DecodedWellFormed.of_decode _
theorem DecodedWellFormed.adLabel : ∀ a b c, DecodedWellFormed.Statement (.adLabel a b c) :=
  fun _ _ _ => DecodedWellFormed.of_decode _
theorem DecodedWellFormed.reglistSignal : ∀ a, DecodedWellFormed.Statement (.reglistSignal a) :=
  fun _ => DecodedWellFormed.of_decode _
theorem DecodedWellFormed.reglistFinish : ∀ a, DecodedWellFormed.Statement (.reglistFinish a) :=
  fun _ => DecodedWellFormed.of_decode _
theorem DecodedWellFormed.reglistLabel : ∀ a, DecodedWellFormed.Statement (.reglistLabel a) :=
  fun _ => DecodedWellFormed.of_decode _
theorem DecodedWellFormed.hostOpen : DecodedWellFormed.Statement .hostOpen := DecodedWellFormed.of_decode _
theorem DecodedWellFormed.hostClose : DecodedWellFormed.Statement .hostClose := DecodedWellFormed.of_decode _
theorem DecodedWellFormed.hostReset : DecodedWellFormed.Statement .hostReset := DecodedWellFormed.of_decode _
theorem DecodedWellFormed.hostPrepareData : ∀ a b, DecodedWellFormed.Statement (.hostPrepareData a b) :=
  fun _ _ => DecodedWellFormed.of_decode _
theorem DecodedWellFormed.hostSendData : DecodedWellFormed.Statement .hostSendData := DecodedWellFormed.of_decode _
theorem DecodedWellFormed.hostSendSimple : ∀ a b c d, DecodedWellFormed.Statement (.hostSendSimple a b c d) :=
  fun _ _ _ _ => DecodedWellFormed.of_decode _
theorem DecodedWellFormed.hostSendPointer : ∀ a b c, DecodedWellFormed.Statement (.hostSendPointer a b c) :=
  fun _ _ _ => DecodedWellFormed.of_decode _
theorem DecodedWellFormed.hostWaitDrain : DecodedWellFormed.Statement .hostWaitDrain := DecodedWellFormed.of_decode _
theorem DecodedWellFormed.hostPostVsync : ∀ a, DecodedWellFormed.Statement (.hostPostVsync a) :=
  fun _ => DecodedWellFormed.of_decode _
theorem DecodedWellFormed.hostSavestateSave : DecodedWellFormed.Statement .hostSavestateSave := DecodedWellFormed.of_decode _
theorem DecodedWellFormed.hostSavestateLoad : ∀ a, DecodedWellFormed.Statement (.hostSavestateLoad a) :=
  fun _ => DecodedWellFormed.of_decode _
theorem DecodedWellFormed.hostReserved11 : DecodedWellFormed.Statement .hostReserved11 := DecodedWellFormed.of_decode _
theorem DecodedWellFormed.hostReserved12 : DecodedWellFormed.Statement .hostReserved12 := DecodedWellFormed.of_decode _
theorem DecodedWellFormed.hostReserved13 : DecodedWellFormed.Statement .hostReserved13 := DecodedWellFormed.of_decode _
theorem DecodedWellFormed.hostReserved14 : DecodedWellFormed.Statement .hostReserved14 := DecodedWellFormed.of_decode _
theorem DecodedWellFormed.hostReserved15 : DecodedWellFormed.Statement .hostReserved15 := DecodedWellFormed.of_decode _

end Sys2Proof.Laws
end

