-- ==== Sys2Proof/Laws/Schedule.lean ====
section
/-! SUPPORT. The interleaving (00_scope.md R3): every step makes one move of the schedule, an agent that is chosen and has
no step leaves the state as it is, and every run that goes on for ever is weakly fair. -/

namespace Sys2Proof.Machine

/-! ### One step, one move -/

/-- What the result is, if it is a next state, has made as many moves as `s`. -/
def KeepsMoves (s : State) (r : Result) : Prop := ∀ t, r = .next t → t.moves = s.moves

theorem keepsMoves_next {s t : State} : KeepsMoves s (.next t) ↔ t.moves = s.moves :=
  ⟨fun h => h t rfl, fun h u hu => by rw [← next_eq_next.mp hu]; exact h⟩

theorem keepsMoves_fault (s : State) (e : Fault) : KeepsMoves s (.fault e) := fun _ h => by cases h

theorem keepsMoves_refused (s : State) (e : Refusal) : KeepsMoves s (.refused e) := fun _ h => by cases h

theorem keepsMoves_raise (s : State) (a : Agent) (code : ErrCode) (info : W64) : KeepsMoves s (raise a code info s) :=
  keepsMoves_next.mpr rfl

theorem keepsMoves_alive {s : State} {body : Result} (h : KeepsMoves s body) : KeepsMoves s (alive s body) :=
  fun t ht => h t (alive_next.mp ht).2

theorem continueParse_moves (run : ParseRun) (s : State) : (continueParse run s).moves = s.moves := by
  rw [continueParse_eq]; rfl

theorem raiseIf_moves (k : Option Sfl) (w0 w1 : W32) (s : State) : (raiseIf k w0 w1 s).moves = s.moves := by
  cases k <;> rfl

theorem keepsMoves_parserItem {s : State} {body : ParseRun → Result} (h : ∀ run, KeepsMoves s (body run)) :
    KeepsMoves s (parserItem s body) := by
  unfold parserItem
  refine keepsMoves_alive ?_
  split
  · exact h _
  · exact keepsMoves_refused _ _

theorem keepsMoves_dataItem {s : State} {body : ParseRun → Result} (h : ∀ run, KeepsMoves s (body run)) :
    KeepsMoves s (dataItem s body) := by
  refine keepsMoves_parserItem fun run => ?_
  split
  · exact keepsMoves_refused _ _
  · exact h _

theorem keepsMoves_tagItem (flg : BitVec 2) (t : TagFields) (s : State) : KeepsMoves s (tagItem flg t s) := by
  refine keepsMoves_parserItem fun run => ?_
  dsimp only
  split
  · exact keepsMoves_next.mpr rfl
  · exact keepsMoves_next.mpr (by rw [continueParse_moves]; rfl)

theorem keepsMoves_packedItem (k : Option Sfl) (w0 w1 : W32) (s : State) : KeepsMoves s (packedItem k w0 w1 s) :=
  keepsMoves_dataItem fun _ => keepsMoves_next.mpr (by rw [continueParse_moves, setPath_moves, raiseIf_moves])

theorem keepsMoves_reglistItem (k : Option Sfl) (u : W64) (s : State) : KeepsMoves s (reglistItem k u s) :=
  keepsMoves_dataItem fun _ => keepsMoves_next.mpr (by rw [continueParse_moves, setPath_moves, raiseIf_moves])

theorem keepsMoves_imageItem (s : State) : KeepsMoves s (imageItem s) :=
  keepsMoves_dataItem fun _ => keepsMoves_next.mpr (by rw [continueParse_moves, setPath_moves])

theorem afterCommit_moves (after : AfterCommit) (s : State) : (afterCommit after s).moves = s.moves := by
  cases after <;> rfl

theorem afterDrain_moves (after : AfterDrain) (s : State) : (afterDrain after s).moves = s.moves := by
  cases after <;> rfl

theorem keepsMoves_gifMeaning (i : Instr) (s : State) : KeepsMoves s (gifMeaning i s) := by
  cases i <;> first
    | exact keepsMoves_refused _ _
    | exact keepsMoves_tagItem _ _ _
    | exact keepsMoves_packedItem _ _ _ _
    | exact keepsMoves_reglistItem _ _ _
    | (rename_i x
       cases x <;> first
        | exact keepsMoves_tagItem _ _ _
        | exact keepsMoves_reglistItem _ _ _
        | exact keepsMoves_imageItem _)

theorem keepsMoves_producerContinue (s : State) : KeepsMoves s (producerContinue s) := by
  unfold producerContinue
  split
  · exact keepsMoves_next.mpr rfl
  · split
    · exact keepsMoves_next.mpr rfl
    · unfold parserStep
      split
      · exact keepsMoves_gifMeaning _ _
      · exact keepsMoves_next.mpr rfl
    · unfold reserveStep
      split
      · exact keepsMoves_raise _ _ _ _
      all_goals exact keepsMoves_next.mpr rfl
    · unfold lockAcquireStep
      split <;> exact keepsMoves_next.mpr rfl
    · exact keepsMoves_next.mpr rfl
    · exact keepsMoves_next.mpr rfl
    · exact keepsMoves_next.mpr rfl
    · unfold slotStep
      split
      · exact keepsMoves_raise _ _ _ _
      · split <;> exact keepsMoves_next.mpr rfl
    · exact keepsMoves_next.mpr rfl
    · exact keepsMoves_next.mpr (by rw [afterCommit_moves, wakeDecide_moves])
    · unfold vsyncWaitStep
      split <;> exact keepsMoves_next.mpr rfl
    · exact keepsMoves_next.mpr rfl
    · exact keepsMoves_next.mpr rfl
    · unfold closeWaitStep
      split <;> exact keepsMoves_next.mpr rfl
    · unfold drainStep
      split
      · exact keepsMoves_next.mpr (afterDrain_moves _ _)
      · exact keepsMoves_next.mpr rfl

theorem keepsMoves_hostOp {s : State} (op : BitVec 4) {accept : Result} (h : KeepsMoves s accept) :
    KeepsMoves s (hostOp op s accept) := by
  intro t ht
  obtain ⟨-, ⟨-, -, ha⟩ | ⟨-, -, ha⟩ | ⟨-, ha⟩⟩ := hostOp_next ht
  · exact h t ha
  · exact keepsMoves_raise _ _ _ _ t ha
  · exact keepsMoves_producerContinue s t ha

theorem zeroPathsFor_moves (command d0 : W32) (s : State) : (zeroPathsFor command d0 s).moves = s.moves := by
  unfold zeroPathsFor
  split
  · rfl
  · split <;> rfl

theorem keepsMoves_sendSimple (op : BitVec 4) (command d0 d1 d2 : W32) (s : State) :
    KeepsMoves s (sendSimple op command d0 d1 d2 s) := by
  unfold sendSimple
  split
  · exact keepsMoves_raise _ _ _ _
  · exact keepsMoves_next.mpr (zeroPathsFor_moves _ _ _)

theorem openWith_moves (ok : Bool) (s : State) : (openWith ok s).moves = s.moves := by
  cases ok <;> rfl

theorem keepsMoves_ringCommand {s : State} {body : Result} (h : KeepsMoves s body) :
    KeepsMoves s (ringCommand s body) := by
  unfold ringCommand
  refine keepsMoves_alive ?_
  split
  · split
    · exact h
    · unfold consumerContinue
      split <;> first | exact keepsMoves_next.mpr rfl | exact keepsMoves_refused _ _
  · exact keepsMoves_refused _ _

theorem keepsMoves_transfer (p : PathId) (size : W32) (s : State) : KeepsMoves s (transfer p size s) := by
  unfold transfer
  split
  · split
    · exact keepsMoves_next.mpr rfl
    · exact keepsMoves_fault _ _
  · exact keepsMoves_raise _ _ _ _

theorem keepsMoves_memoryWrite (off : W32) (n : Nat) (v : W64) (s : State) : KeepsMoves s (memoryWrite off n v s) := by
  unfold memoryWrite
  split
  · exact keepsMoves_next.mpr rfl
  · exact keepsMoves_raise _ _ _ _

theorem keepsMoves_exec (i : Instr) (s : State) : KeepsMoves s (exec i s) := by
  cases i with
  | restart =>
    refine keepsMoves_ringCommand ?_
    split <;> exact keepsMoves_next.mpr rfl
  | unrecognised command =>
    refine keepsMoves_ringCommand ?_
    split
    · exact keepsMoves_raise _ _ _ _
    · exact keepsMoves_next.mpr rfl
  | hostOpen => exact keepsMoves_hostOp _ (keepsMoves_next.mpr (openWith_moves _ _))
  | hostPrepareData path data =>
    refine keepsMoves_hostOp _ ?_
    split
    · exact keepsMoves_raise _ _ _ _
    · exact keepsMoves_next.mpr (by rw [startParse_eq]; rfl)
  | hostSendData =>
    refine keepsMoves_hostOp _ ?_
    split
    · exact keepsMoves_raise _ _ _ _
    · exact keepsMoves_next.mpr rfl
  | hostSavestateSave =>
    refine keepsMoves_hostOp _ ?_
    split <;> exact keepsMoves_next.mpr rfl
  | hostSavestateLoad image =>
    refine keepsMoves_hostOp _ ?_
    split <;> exact keepsMoves_next.mpr rfl
  | _ => first
    | exact keepsMoves_tagItem _ _ _
    | exact keepsMoves_packedItem _ _ _ _
    | exact keepsMoves_reglistItem _ _ _
    | (rename_i x
       cases x <;> first
        | exact keepsMoves_tagItem _ _ _
        | exact keepsMoves_reglistItem _ _ _
        | exact keepsMoves_imageItem _)
    | exact keepsMoves_ringCommand (keepsMoves_transfer _ _ _)
    | exact keepsMoves_ringCommand (keepsMoves_memoryWrite _ _ _ _)
    | exact keepsMoves_ringCommand (keepsMoves_next.mpr rfl)
    | exact keepsMoves_hostOp _ (keepsMoves_sendSimple _ _ _ _ _ _)
    | exact keepsMoves_hostOp _ (keepsMoves_raise _ _ _ _)
    | exact keepsMoves_hostOp _ (keepsMoves_next.mpr rfl)

theorem keepsMoves_agentStep (s : State) : KeepsMoves s (agentStep s) := by
  unfold agentStep
  split
  · unfold stepP
    split
    · exact keepsMoves_producerContinue s
    · split
      · split
        · exact keepsMoves_next.mpr rfl
        · exact keepsMoves_exec _ s
      · split
        · exact keepsMoves_exec _ s
        · exact keepsMoves_next.mpr rfl
      · exact keepsMoves_producerContinue s
  · unfold stepC
    split
    · exact keepsMoves_next.mpr rfl
    · exact keepsMoves_next.mpr rfl
    · unfold consumerWait
      split <;> exact keepsMoves_next.mpr rfl
    · split
      · unfold consumerTest
        split <;> exact keepsMoves_next.mpr rfl
      · exact keepsMoves_next.mpr rfl
      · split
        · exact keepsMoves_exec _ s
        · exact keepsMoves_fault _ _
      · split
        · exact keepsMoves_next.mpr rfl
        · unfold consumerContinue
          split <;> first | exact keepsMoves_next.mpr rfl | exact keepsMoves_refused _ _

/-- A step makes one move, and the schedule's next choice is the turn after it (R3). -/
theorem step_moves {s t : State} (h : step s = .next t) :
    t.moves = s.moves + 1 ∧ t.turn = if Config.drawProducerMoves s.moves then .p else .c := by
  obtain ⟨-, u, hu, rfl⟩ := step_next.mp h
  have hm := keepsMoves_agentStep s u hu
  exact ⟨by rw [reschedule_moves, hm], by rw [reschedule_turn, hm]⟩

/-! ### Pauses -/

/-- An agent that is chosen and has no step leaves the state as it is (log entry 11). -/
theorem agentStep_pause {s : State} (hf : s.fault = none) (h : ¬ s.hasStep s.turn) : agentStep s = .next s := by
  unfold State.hasStep at h
  unfold agentStep
  cases ht : s.turn with
  | p =>
    rw [ht] at h
    have hs : s.pSignal = false := by simpa using fun hs => h ⟨hf, .inl hs⟩
    have hp := fun hp => h ⟨hf, .inr hp⟩
    simp only [stepP, hs, Bool.false_eq_true, if_false]
    cases hph : s.pphase with
    | idle =>
      cases hq : s.port with
      | nil => rfl
      | cons r rest => exact absurd (by simp [hph, hq]) hp
    | lockAcquire pkt =>
      have hl : s.restartLock ≠ .free := fun hl => hp (by simpa [hph] using hl)
      cases hlk : s.restartLock with
      | free => exact absurd hlk hl
      | _ => simp [producerContinue, hs, hph, lockAcquireStep, hlk]
    | _ => exact absurd (by simp [hph]) hp
  | c =>
    rw [ht] at h
    have hc := fun hc => h ⟨hf, hc⟩
    simp only [stepC]
    cases hst : s.cstate with
    | off => rfl
    | halted => rfl
    | waiting =>
      cases hw : s.wakePending with
      | false => simp [consumerWait, hw]
      | true => exact absurd (by simp [hst, hw]) hc
    | draining =>
      simp only [hst] at hc
      cases hd : s.cphase with
      | top => exact absurd (by simp [hd]) hc
      | leaving => exact absurd (by simp [hd]) hc
      | dispatch =>
        simp only [hd] at hc
        obtain ⟨hfetch, hl⟩ := Classical.not_imp.mp hc
        cases hlk : s.restartLock with
        | free => exact absurd hlk hl
        | _ => simp [hfetch, exec, execRestart, ringCommand, alive_of_live hf, hst, hd, hlk]
      | _ =>
        have he : s.endlessCall = true := by simpa [hd] using hc
        simp [he]

/-! ### Weak fairness -/

/-- The number of moves along a run. -/
theorem run_moves {run : Nat → State} (h : IsRun run) (n : Nat) : (run n).moves = (run 0).moves + n := by
  induction n with
  | zero => rfl
  | succ n ih => rw [(step_moves (h n)).1, ih]; rfl

/-- On a run that goes on for ever the turn of an agent that the schedule chooses again and again comes again and
again. -/
theorem run_turn {run : Nat → State} (h : IsRun run) {b : Bool}
    (hb : ∀ n, ∃ m, n ≤ m ∧ Config.drawProducerMoves m = b) (n : Nat) :
    ∃ m, n ≤ m ∧ (run m).turn = if b then .p else .c := by
  obtain ⟨k, hk, hkb⟩ := hb ((run 0).moves + n)
  refine ⟨k - (run 0).moves + 1, by omega, ?_⟩
  have hm := run_moves h (k - (run 0).moves)
  rw [(step_moves (h _)).2, hm, show (run 0).moves + (k - (run 0).moves) = k by omega, hkb]

/-- Every run is weakly fair to both agents (R3). -/
theorem run_weaklyFair {run : Nat → State} (h : IsRun run) (a : Agent) : WeaklyFair run a := by
  intro n hn
  cases a with
  | p =>
    obtain ⟨m, hm, ht⟩ := run_turn h (b := true) Config.schedule.fairToP n
    exact ⟨m, hm, hn m hm, by simpa using ht⟩
  | c =>
    obtain ⟨m, hm, ht⟩ := run_turn h (b := false) Config.schedule.fairToC n
    exact ⟨m, hm, hn m hm, by simpa using ht⟩

end Sys2Proof.Machine
end

