-- ==== Sys2Proof/Tests/Slice0.lean ====
section
/-! SUPPORT. Tests and witnesses. Expected values come from spec/95_test_vectors.md and the worked examples of the rules
(named at each test), never from the model. A witness shows a state and operands that meet the hypotheses of a
statement. -/

open Sys2Proof Sys2Proof.Machine

namespace Sys2Proof.Tests

/-! ### States -/

/-- An open block with the cursors at `r` and `w`, P idle and C waiting. -/
def openAt (r w : Nat) : State := { State.reset with session := .opened, cstate := .waiting, readPos := r, writePos := w }

/-- C before the header `h` in slot `r` (95_test_vectors.md section 2.5). -/
def headerAt (r w : Nat) (h : Word) : State :=
  { openAt r w with cstate := .draining, busy := true, cphase := .dispatch, ring := [(r, h)] }

/-- P's parser on path `p` with record `g` before these words. -/
def parsing (p : PathId) (g : GifPath) (ws : List Word) : State :=
  { setPath p g (openAt 0 0) with pphase := .parsing { path := p, taken := [], rest := ws, half := .lower } }

/-- A record inside a tag of format `flag` with one selector. -/
def inTag (flag : BitVec 2) (nloop : BitVec 15) (eop : Bool) (sel : Byte) : GifPath :=
  { tag := { nloop := nloop, eop := eop, flag := flag, nreg := 1, regs0 := 0, regs1 := 0 }
    regs := Vector.replicate 16 sel
    curreg := 0 }

/-- What holds of the next state of an outcome. -/
def nextIs (r : Result) (f : State → Bool) : Bool :=
  match r with
  | .next t => f t
  | .fault _ => false
  | .refused _ => false

/-- The outcome is a latched fault of this code, agent and info. -/
def raises (r : Result) (code : ErrCode) (agent : Agent) (info : W64) : Bool :=
  nextIs r fun t => decide (t.fault = some { code := code, agent := agent, info := info })

/-! ### WellFormed: each check refuses an ill-formed term -/

theorem test_wf_unrecognised_refuses_a_known_id : Instr.wf none (.unrecognised 15) = false := by decide
theorem test_wf_unrecognised_accepts : Instr.wf none (.unrecognised 16) = true := by decide
theorem test_wf_packed_ad_refuses_a_notification : Instr.wf none (.packedAd (0x62#128 <<< 64)) = false := by decide
theorem test_wf_packed_ad_accepts : Instr.wf none (.packedAd (0x63#128 <<< 64)) = true := by decide
theorem test_wf_packed_other_refuses_ad : Instr.wf none (.packedOther 0xE 0) = false := by decide
theorem test_wf_reglist_unit_refuses_a_notification : Instr.wf (some 0xC) (.giftagReglist (.unit 0xD 0)) = false := by decide
theorem test_wf_reglist_unit_accepts : Instr.wf (some 0xC) (.giftagReglist (.unit 0xF 0)) = true := by decide
theorem test_wf_reglist_signal_refuses_no_base : Instr.wf none (.reglistSignal 0) = false := by decide
theorem test_wf_reglist_finish_refuses_no_base : Instr.wf none (.reglistFinish 0) = false := by decide
theorem test_wf_reglist_label_refuses_no_base : Instr.wf none (.reglistLabel 0) = false := by decide

/-! ### Decode: every constructor from a word written out (95_test_vectors.md section 2.1; R93, R95, R101, R106, R112) -/

theorem test_decode_p1 : decodeHeader 0x00000000000000000000000200000000#128 = .p1 2 := by decide
theorem test_decode_p2 : decodeHeader 0x00000000000000000000000500000001#128 = .p2 5 := by decide
theorem test_decode_p3 : decodeHeader 0x00000000000000000000000300000002#128 = .p3 3 := by decide
theorem test_decode_vsync : decodeHeader 0x00000000000000000000000100000003#128 = .vsync 1 := by decide
theorem test_decode_softreset : decodeHeader 0x00000000000000000000000500000004#128 = .softreset 5 := by decide
theorem test_decode_reset : decodeHeader 0x00000000000000000000000000000005#128 = .reset := by decide
theorem test_decode_writecsr : decodeHeader 0x00000000000000000000020000000006#128 = .writecsr 0x200 := by decide
theorem test_decode_memwrite8 : decodeHeader 0x00000000000001FF0000000300000007#128 = .memwrite8 3 0xFF := by decide
theorem test_decode_memwrite16 : decodeHeader 0x000000000001BEEF0000000600000008#128 = .memwrite16 6 0xBEEF := by decide
theorem test_decode_memwrite32 :
    decodeHeader 0x00000000CAFEBABE0000001000000009#128 = .memwrite32 0x10 0xCAFEBABE := by decide
theorem test_decode_memwrite64 :
    decodeHeader 0x1122334455667788000000180000000A#128 = .memwrite64 0x18 0x1122334455667788 := by decide
theorem test_decode_modechange : decodeHeader 0x0000000000000003000000020000000B#128 = .modechange 2 3 := by decide
theorem test_decode_freeze :
    decodeHeader 0x0123456789ABCDEF000000010000000C#128 = .freeze 1 0x0123456789ABCDEF := by decide
theorem test_decode_record : decodeHeader 0x0000000000000000000000000000000D#128 = .record := by decide
theorem test_decode_restart : decodeHeader 0x0000000000000000000000000000000E#128 = .restart := by decide
theorem test_decode_quit : decodeHeader 0x0000000000000000000000000000000F#128 = .quit := by decide
theorem test_decode_unrecognised : decodeHeader 0x00000000000000000000000000000010#128 = .unrecognised 16 := by decide
/-- All 32 command bits are compared: bit 16 set beside id 0 (R93). -/
theorem test_decode_compares_all_bits :
    decodeHeader 0x00000000000000000000000000010000#128 = .unrecognised 0x10000 := by decide
theorem test_decode_giftag_packed :
    decodeTag 0x00000000000000E12000000000000002#128 =
      .giftagPacked { nloop := 2, eop := false, pad := 0, nreg := 2, regs0 := 0xE1, regs1 := 0 } := by decide
theorem test_decode_giftag_reglist :
    decodeTag 0x00000000000005D23400000000008001#128 =
      .giftagReglist (.tag { nloop := 1, eop := true, pad := 0, nreg := 3, regs0 := 0x5D2, regs1 := 0 }) := by decide
theorem test_decode_giftag_image :
    decodeTag 0x00000000000000000800000000008005#128 =
      .giftagImage (.tag { nloop := 5, eop := true, pad := 0, nreg := 0, regs0 := 0, regs1 := 0 }) := by decide
/-- FLG bits 59:58 both set (R103). -/
theorem test_decode_giftag_image3 :
    decodeTag 0x00000000000000000C00000000000001#128 =
      .giftagImage3 (.tag { nloop := 1, eop := false, pad := 0, nreg := 0, regs0 := 0, regs1 := 0 }) := by decide
theorem test_decode_packed_ad :
    decodePacked 0xE 0x00000000000000630000000000000001#128 = .packedAd 0x00000000000000630000000000000001#128 := by decide
/-- An in-range index under another selector is opaque (V2c). -/
theorem test_decode_packed_other :
    decodePacked 0x1 0x00000000000000610000000000000009#128 = .packedOther 1 0x00000000000000610000000000000009#128 := by
  decide
theorem test_decode_ad_signal :
    decodePacked 0xE 0x0000000000000060BBBB0002AAAA0001#128 = .adSignal 0xAAAA0001 0xBBBB0002 0 := by decide
theorem test_decode_ad_finish :
    decodePacked 0xE 0x000000000000006111111111DEADBEEF#128 = .adFinish 0xDEADBEEF 0x11111111 0 := by decide
theorem test_decode_ad_label :
    decodePacked 0xE 0x00000000000000620000000D0000000C#128 = .adLabel 0xC 0xD 0 := by decide
/-- Bits 79:64 = 0x0161 give index 0x61 (V2b). -/
theorem test_decode_ad_ignores_upper_bits :
    decodePacked 0xE 0x00000000000001610000000000000003#128 = .adFinish 3 0 1 := by decide
theorem test_decode_reglist_signal : decodeReglist (some 0xC) 0xC 0x2222222211111111#64 = .reglistSignal 0x2222222211111111 := by
  decide
theorem test_decode_reglist_finish : decodeReglist (some 0xC) 0xD 0x2222222211111111#64 = .reglistFinish 0x2222222211111111 := by
  decide
theorem test_decode_reglist_label : decodeReglist (some 0xC) 0xE 0x2222222211111111#64 = .reglistLabel 0x2222222211111111 := by
  decide
theorem test_decode_reglist_unit : decodeReglist none 0xD 0xAA#64 = .giftagReglist (.unit 0xD 0xAA) := by decide
theorem test_decode_open : decodeRequest { op := 0 } = .hostOpen := by decide
theorem test_decode_close : decodeRequest { op := 1 } = .hostClose := by decide
theorem test_decode_host_reset : decodeRequest { op := 2 } = .hostReset := by decide
theorem test_decode_prepare : decodeRequest { op := 3, path := 2, data := [7] } = .hostPrepareData 2 [7] := by decide
theorem test_decode_send : decodeRequest { op := 4 } = .hostSendData := by decide
theorem test_decode_simple :
    decodeRequest { op := 5, command := 16, d0 := 1, d1 := 2, d2 := 3 } = .hostSendSimple 16 1 2 3 := by decide
theorem test_decode_pointer :
    decodeRequest { op := 6, command := 12, d0 := 1, ptr := 0x0123456789ABCDEF } =
      .hostSendPointer 12 1 0x0123456789ABCDEF := by decide
theorem test_decode_drain : decodeRequest { op := 7 } = .hostWaitDrain := by decide
theorem test_decode_post_vsync : decodeRequest { op := 8, fieldflag := 1 } = .hostPostVsync 1 := by decide
theorem test_decode_save : decodeRequest { op := 9 } = .hostSavestateSave := by decide
theorem test_decode_load : decodeRequest { op := 10, image := [3] } = .hostSavestateLoad [3] := by decide
theorem test_decode_reserved :
    decodeRequest { op := 11 } = .hostReserved11 ∧ decodeRequest { op := 12 } = .hostReserved12 ∧
      decodeRequest { op := 13 } = .hostReserved13 ∧ decodeRequest { op := 14 } = .hostReserved14 ∧
      decodeRequest { op := 15 } = .hostReserved15 := by decide
/-- A header as sixteen bytes of memory, least significant first (R66). -/
theorem test_decode_bytes :
    (decodeHeaderBytes [0x03, 0, 0, 0, 0x01, 0, 0, 0, 0, 0, 0, 0, 0, 0, 0, 0]).toOption = some (.vsync 1) := by decide
theorem test_decode_bytes_rejects :
    wordOfBytes [1, 2, 3] = .error (.notSixteenBytes 3) := by rfl

/-! ### Ring guards (95_test_vectors.md V-G) -/

theorem test_guards_case1 :
    [4, 2, 7, 8, 5].map (fun r => reserveCase 16 4 r 3) = [.place, .place, .wait, .place, .wait] := by decide
theorem test_guards_case3 :
    [12, 3, 0, 13].map (fun r => reserveCase 16 12 r 4) = [.place, .place, .wait, .wait] := by decide
theorem test_guards_case2 : [12, 5, 14].map (fun r => reserveCase 16 12 r 6) = [.restart, .restart, .wait] := by decide
theorem test_guards_retry : [12, 5, 0].map (fun r => reserveCase 16 0 r 6) = [.place, .wait, .place] := by decide
theorem test_guards_oversize : reserveCase 16 0 0 16 = .oversize ∧ reserveCase 16 0 0 15 = .place := by decide
theorem test_guards_one_slot : slotGuard (openAt 0 15) = false ∧ slotGuard (openAt 1 15) = true := by decide
/-- The wake decision with WAKE_CMDS = 2 (V-G, last paragraph). -/
theorem test_wake_decision :
    let s : State := { openAt 0 0 with cfg := { Config.conventional with wakeCmds := 2 } }
    let a := wakeWith false 3 s
    let b := wakeWith false 1 a
    let c := wakeWith true 1 a
    (a.tallyCmds, a.tallyWords, a.wakePending) = (1, 3, false) ∧
      (b.tallyCmds, b.tallyWords, b.wakePending) = (0, 0, true) ∧
      (c.tallyCmds, c.tallyWords, c.wakePending) = (2, 4, false) := by decide

/-! ### Ring commands (95_test_vectors.md section 2.5) -/

theorem test_p1_empty :
    nextIs (execTimes 2 (.p1 0) (headerAt 4 5 0)) fun t =>
      decide (t.readPos = 5 ∧ t.backendTrace = [.transfer .p0 [] 0]) := by decide
theorem test_p2 :
    nextIs (execTimes 2 (.p2 1) { headerAt 4 6 0 with ring := [(4, 0x0000000100000001#128), (5, 7)] }) fun t =>
      decide (t.readPos = 6 ∧ t.backendTrace = [.transfer .p1 [7] 1]) := by decide
theorem test_p3_wraps :
    nextIs (execTimes 2 (.p3 3)
        { headerAt 12 0 0 with ring := [(12, 0x0000000300000002#128), (13, 1), (14, 2), (15, 3)] }) fun t =>
      decide (t.readPos = 0 ∧ t.backendTrace = [.transfer .p2 [1, 2, 3] 3]) := by decide
/-- A payload past the top: ERR_OVERTAKE with `read_pos`, C halts (R262). -/
theorem test_p3_overtake : raises (exec (.p3 4) (headerAt 12 0 0)) .errOvertake .c 12 := by decide
theorem test_vsync :
    nextIs (execTimes 5 (.vsync 1) { headerAt 4 5 0 with vsyncQueued := 3 }) fun t =>
      decide (t.readPos = 5 ∧ t.vsyncQueued = 2 ∧ t.backendTrace = [.vsync 1] ∧ t.periphTrace = [.a, .b]) := by decide
theorem test_softreset :
    nextIs (execTimes 2 (.softreset 5) (headerAt 4 5 0)) fun t =>
      decide (t.readPos = 5 ∧ t.backendTrace = [.softReset 5]) := by decide
theorem test_reset :
    nextIs (execTimes 2 .reset (headerAt 4 5 0)) fun t => decide (t.readPos = 5 ∧ t.backendTrace = [.reset]) := by decide
theorem test_writecsr :
    nextIs (execTimes 2 (.writecsr 0x200) (headerAt 4 5 0)) fun t =>
      decide (t.readPos = 5 ∧ t.backendTrace = [.writeControlRegister 0x200]) := by decide
theorem test_memwrite8_last_byte :
    nextIs (execTimes 2 (.memwrite8 0x3F 0xAB) (headerAt 4 5 0)) fun t =>
      decide (t.readPos = 5 ∧ t.mirror = [(0x3F, 0xAB)]) := by decide
theorem test_memwrite8_out_of_range : raises (exec (.memwrite8 0x40 0) (headerAt 4 5 0)) .errMemwrite .c 0x40 := by decide
theorem test_memwrite16 :
    nextIs (execTimes 2 (.memwrite16 6 0xBEEF) (headerAt 4 5 0)) fun t =>
      decide (t.readPos = 5 ∧ t.mirror = [(6, 0xEF), (7, 0xBE)]) := by decide
theorem test_memwrite32 :
    nextIs (execTimes 2 (.memwrite32 0x10 0xCAFEBABE) (headerAt 4 5 0)) fun t =>
      decide (t.mirror = [(0x10, 0xBE), (0x11, 0xBA), (0x12, 0xFE), (0x13, 0xCA)]) := by decide
theorem test_memwrite32_misaligned : raises (exec (.memwrite32 2 1) (headerAt 4 5 0)) .errMemwrite .c 2 := by decide
theorem test_memwrite64 :
    nextIs (execTimes 2 (.memwrite64 0x18 0x1122334455667788) (headerAt 4 5 0)) fun t =>
      decide (t.mirror = [(0x18, 0x88), (0x19, 0x77), (0x1A, 0x66), (0x1B, 0x55), (0x1C, 0x44), (0x1D, 0x33), (0x1E, 0x22),
        (0x1F, 0x11)]) := by decide
theorem test_modechange :
    nextIs (execTimes 2 (.modechange 2 3) (headerAt 4 5 0)) fun t =>
      decide (t.readPos = 5 ∧ t.backendTrace = [.modeChange 2 3]) := by decide
theorem test_freeze :
    nextIs (execTimes 2 (.freeze 1 0x0123456789ABCDEF) (headerAt 4 5 0)) fun t =>
      decide (t.readPos = 5 ∧ t.backendTrace = [.freeze 1 0x0123456789ABCDEF]) := by decide
theorem test_record :
    nextIs (execTimes 2 .record (headerAt 4 5 0)) fun t =>
      decide (t.readPos = 5 ∧ t.backendTrace = [] ∧ t.unkCmdSeen = false) := by decide
theorem test_restart :
    nextIs (execTimes 3 .restart (headerAt 12 0 0)) fun t =>
      decide (t.readPos = 0 ∧ t.writePos = 0 ∧ t.restartLock = .free) := by decide
theorem test_restart_blocks :
    nextIs (exec .restart { headerAt 12 13 0 with restartLock := .heldP }) fun t =>
      decide (t.readPos = 12 ∧ t.restartLock = .heldP ∧ t.cphase = .dispatch) := by decide
theorem test_quit :
    nextIs (execTimes 2 .quit (headerAt 4 5 0)) fun t =>
      decide (t.readPos = 4 ∧ t.backendTrace = [.close] ∧ t.cstate = .halted ∧ t.busy = false) := by decide
theorem test_unrecognised_strict :
    raises (exec (.unrecognised 16) (headerAt 4 5 0)) .errUnknownCmd .c 16 := by decide
theorem test_unrecognised_skipped :
    nextIs (execTimes 2 (.unrecognised 16) { headerAt 4 5 0 with cfg := { Config.conventional with strict := false } })
      fun t => decide (t.readPos = 5 ∧ t.unkCmdSeen = true ∧ t.fault = none) := by decide

/-- Inside a call that never returns C's step is a pause, and outside one it is the advance (U11, R242). -/
theorem test_endless_call :
    nextIs (stepC { headerAt 4 5 0 with cphase := .advance 1, endlessCall := true }) (fun t => decide (t.readPos = 4)) ∧
      nextIs (stepC { headerAt 4 5 0 with cphase := .advance 1 }) (fun t => decide (t.readPos = 5)) := by decide

/-! ### GIF words (95_test_vectors.md section 2.3) -/

/-- V2b's tag, up to the unpacked selector. -/
theorem test_giftag_packed :
    nextIs (stepP (parsing .p1 GifPath.zero [0x000000000000000E1000000000008003#128, 0])) fun t =>
      decide ((t.path .p1).tag = ⟨3, true, 0, 1, 0xE, 0⟩ ∧ (t.path .p1).regs[0] = 14 ∧
        t.pphase = .parsing ⟨.p1, [0x000000000000000E1000000000008003#128], [0], .lower⟩) := by decide
/-- V5, one-word overflow: the clip leaves the tag unconsumed. -/
theorem test_giftag_packed_clips :
    nextIs (stepP (parsing .p0 GifPath.zero [0x00000000000000212000000000008002#128, 1, 2, 3])) fun t =>
      decide ((t.path .p0).tag = ⟨0, true, 0, 2, 0x21, 0⟩ ∧ t.pphase = .reserve ⟨.p0, []⟩) := by decide
/-- R162's worked example. -/
theorem test_giftag_reglist :
    nextIs (stepP (parsing .p1 GifPath.zero [0x00000000000005D23400000000008001#128, 0, 0])) fun t =>
      decide ((t.path .p1).tag = ⟨1, true, 1, 3, 0x5D2, 0⟩ ∧
        ((t.path .p1).regs[0], (t.path .p1).regs[1], (t.path .p1).regs[2]) = (2, 0xD, 5)) := by decide
theorem test_giftag_image :
    nextIs (stepP (parsing .p1 GifPath.zero [0x00000000000000000800000000008005#128, 1])) fun t =>
      decide ((t.path .p1).tag.nloop = 5 ∧ (t.path .p1).tag.flag = 2) := by decide
theorem test_giftag_image3 :
    nextIs (stepP (parsing .p1 (inTag 3 2 true 0) [1, 2])) fun t => decide ((t.path .p1).tag.nloop = 1) := by decide
/-- V1: FINISH with its two words; the packet ends. -/
theorem test_ad_finish :
    nextIs (stepP (parsing .p1 (inTag 0 1 true 0xE) [0x000000000000006111111111DEADBEEF#128])) fun t =>
      decide (t.sflTrace = [⟨.finish, 0xDEADBEEF, 0x11111111⟩] ∧ (t.path .p1).tag.nloop = 0 ∧
        t.pphase = .reserve ⟨.p1, [0x000000000000006111111111DEADBEEF#128]⟩) := by decide
theorem test_ad_signal :
    nextIs (stepP (parsing .p1 (inTag 0 2 false 0xE) [0x0000000000000060BBBB0002AAAA0001#128])) fun t =>
      decide (t.sflTrace = [⟨.signal, 0xAAAA0001, 0xBBBB0002⟩]) := by decide
theorem test_ad_label :
    nextIs (stepP (parsing .p1 (inTag 0 2 false 0xE) [0x00000000000000620000000D0000000C#128])) fun t =>
      decide (t.sflTrace = [⟨.label, 0xC, 0xD⟩]) := by decide
theorem test_packed_ad_out_of_range :
    nextIs (stepP (parsing .p1 (inTag 0 2 false 0xE) [0x000000000000005F0000000000000002#128])) fun t =>
      decide (t.sflTrace = [] ∧ (t.path .p1).tag.nloop = 1) := by decide
theorem test_packed_other :
    nextIs (stepP (parsing .p1 (inTag 0 1 true 1) [0x00000000000000610000000000000009#128])) fun t =>
      decide (t.sflTrace = [] ∧ (t.path .p1).tag.nloop = 0) := by decide
/-- V3's whole call and V3b's, in the reference loop: one FINISH each, from the right half. -/
theorem test_parse_v3 :
    let out := parse (some 0xC) .p0 GifPath.zero false
      [0x00000000000005D23400000000008001#128, 0x222222221111111100000000000000AA#128,
        0xFFFFFFFFEEEEEEEE4444444433333333#128]
    out.left = [] ∧ out.sfl = [⟨.finish, 0x11111111, 0x22222222⟩] ∧ out.path.tag = ⟨0, true, 1, 3, 0x5D2, 0⟩ := by decide
theorem test_parse_v3b :
    let out := parse (some 0xC) .p0 GifPath.zero false
      [0x000000000000002D2400000000008001#128, 0x222222221111111199999999000000AA#128, 0x77]
    out.left = [0x77] ∧ out.sfl = [⟨.finish, 0xAA, 0x99999999⟩] := by decide
theorem test_reglist_lower_half_then_upper :
    nextIs (stepP { parsing .p1 (inTag 1 2 true 0xC) [0x2222222211111111_00000000000000AA#128] with
        cfg := { Config.conventional with rlSflBase := some 0xC } }) fun t =>
      decide (t.sflTrace = [⟨.signal, 0xAA, 0⟩] ∧
        t.pphase = .parsing ⟨.p1, [], [0x222222221111111100000000000000AA#128], .upper⟩) := by decide
theorem test_reglist_label_and_padding :
    nextIs (stepP { parsing .p1 (inTag 1 1 true 0xE) [0xAA] with
        cfg := { Config.conventional with rlSflBase := some 0xC } }) fun t =>
      decide (t.sflTrace = [⟨.label, 0xAA, 0⟩] ∧ t.pphase = .reserve ⟨.p1, [0xAA]⟩) := by decide
/-- V6: NREG = 0 unpacks all sixteen selectors. -/
theorem test_fetch_tag_sixteen :
    (fetchTag 0 (tagFields 0xFEDCBA98765432100000000000008001#128) GifPath.zero).regs.toList =
      [0, 1, 2, 3, 4, 5, 6, 7, 8, 9, 10, 11, 12, 13, 14, 15] := by decide
/-- V7 and V8: the end-of-packet stop, and tags without data. -/
theorem test_parse_stops :
    (parse none .p1 GifPath.zero false [0x00000000000000001800000000008001#128, 5,
      0x00000000000000212000000000008002#128, 6]).left.length = 2 ∧
      (parse none .p1 GifPath.zero false [0, 0, 0x00000000000000000000000000008000#128, 5]).left = [5] := by decide

/-! ### Host operations (95_test_vectors.md section 2.4) -/

theorem test_open_ok :
    let t := openWith true { State.reset with port := [{ op := 0 }] }
    (t.session, t.cstate, t.readPos, t.writePos, t.replies, t.backendTrace) =
      (.opened, .waiting, 0, 0, [.ok], [.init true]) := by decide
theorem test_open_fails :
    let t := openWith false { State.reset with port := [{ op := 0 }] }
    (t.session, t.cstate, t.replies, t.backendTrace, t.fault) = (.closed, .off, [.errInit], [.init false], none) := by
  decide
/-- R202's worked example: QUIT at slot 9. -/
theorem test_close :
    nextIs (execTimes 3 .hostClose (openAt 9 9)) fun t => decide (t.ring = [(9, 0xF)] ∧ t.writePos = 10) := by decide
theorem test_host_reset :
    nextIs (execTimes 3 .hostReset (setPath .p1 (inTag 0 3 false 1) (openAt 2 2))) fun t =>
      decide (t.paths = GifPaths.zero ∧ t.ring = [(2, 5)] ∧ t.writePos = 3) := by decide
/-- V-P1. -/
theorem test_prepare_data :
    nextIs (execTimes 4 (.hostPrepareData 0 [0x00000000000000001800000000000001#128, 0xA1]) (openAt 0 0)) fun t =>
      decide (t.replies = [.committed 2] ∧ t.resv = some ⟨0, 3⟩ ∧ t.writePos = 0 ∧
        t.ring = [(0, 0x00000000000000000000000200000000#128), (1, 0x00000000000000001800000000000001#128), (2, 0xA1)]) := by
  decide
theorem test_prepare_data_bad_path :
    raises (exec (.hostPrepareData 3 []) (openAt 0 0)) .errApi .p 0x0000000300000003 := by decide
theorem test_send_data :
    nextIs (execTimes 2 .hostSendData { openAt 0 0 with resv := some ⟨0, 3⟩ }) fun t => decide (t.writePos = 3) := by decide
theorem test_send_data_nothing_prepared : raises (exec .hostSendData (openAt 0 0)) .errApi .p 4 := by decide
/-- R206's worked example. -/
theorem test_send_simple :
    nextIs (execTimes 3 (.hostSendSimple 6 0x200 0 0) (openAt 6 6)) fun t =>
      decide (t.ring = [(6, 0x00000000000000000000020000000006#128)] ∧ t.writePos = 7) := by decide
theorem test_send_simple_refused :
    raises (exec (.hostSendSimple 14 0 0 0) (openAt 6 6)) .errApi .p 0x0000000E00000005 := by decide
/-- V-P6. -/
theorem test_send_pointer :
    nextIs (execTimes 3 (.hostSendPointer 12 1 0x0123456789ABCDEF) (openAt 2 2)) fun t =>
      decide (t.ring = [(2, 0x0123456789ABCDEF000000010000000C#128)] ∧ t.writePos = 3) := by decide
/-- V-D1. -/
theorem test_wait_drain_empty :
    nextIs (execTimes 2 .hostWaitDrain (openAt 7 7)) fun t =>
      decide (t.wakePending = false ∧ t.replies = [.done] ∧ t.pphase = .idle) := by decide
theorem test_wait_drain_waits :
    nextIs (execTimes 3 .hostWaitDrain (openAt 3 9)) fun t => decide (t.wakePending = true ∧ t.replies = []) := by decide
/-- R209's worked example. -/
theorem test_post_vsync :
    nextIs (execTimes 5 (.hostPostVsync 1) { openAt 0 7 with vsyncQueued := 7 }) fun t =>
      decide (t.vsyncQueued = 8 ∧ t.ring = [(7, 0x00000000000000000000000100000003#128)] ∧ t.writePos = 8) := by decide
theorem test_post_vsync_backpressure :
    nextIs (execTimes 3 (.hostPostVsync 0) { openAt 0 8 with vsyncQueued := 8 }) fun t =>
      decide (t.vsyncQueued = 8 ∧ t.wakePending = true ∧ t.pphase = .vsyncWait 0) := by decide
theorem test_save_returns_an_image :
    nextIs (execTimes 2 .hostSavestateSave (openAt 3 3)) fun t => decide (t.replies.length = 1 ∧ t.pphase = .idle) := by decide
theorem test_load_on_a_closed_block :
    nextIs (exec (.hostSavestateLoad [1, 2]) State.reset) fun t =>
      decide (t.paths = GifPaths.zero ∧ t.replies = [.done]) := by decide
/-- 95_test_vectors.md section 2.6: the path-1 record of V9 call a in the default format. -/
theorem test_default_codec_bytes :
    recordBytes { tag := ⟨2, true, 0, 3, 0xE21, 0⟩, regs := (Vector.replicate 16 0).set 0 1 |>.set 1 2 |>.set 2 14, curreg := 2 } =
      [0x02, 0x80, 0, 0, 0, 0, 0, 0x30, 0x21, 0x0E, 0, 0, 0, 0, 0, 0, 1, 2, 0x0E, 0, 0, 0, 0, 0, 0, 0, 0, 0, 0, 0, 0, 0, 2, 0, 0, 0] := by
  decide
theorem test_reserved_ops :
    raises (exec .hostReserved11 (openAt 0 0)) .errApi .p 11 ∧ raises (exec .hostReserved12 (openAt 0 0)) .errApi .p 12 ∧
      raises (exec .hostReserved13 (openAt 0 0)) .errApi .p 13 ∧ raises (exec .hostReserved14 (openAt 0 0)) .errApi .p 14 ∧
      raises (exec .hostReserved15 (openAt 0 0)) .errApi .p 15 := by decide

/-! ### The shared steps -/

/-- R136's worked example, `W = 15`: the publish wraps to 0. -/
theorem test_restart_sequence :
    nextIs (producerTimes 3 { openAt 15 15 with pphase := .lockAcquire ⟨.p1, []⟩ }) fun t =>
      decide (t.ring = [(15, 0xE)] ∧ t.writePos = 0 ∧ t.restartLock = .heldP) := by decide
theorem test_wake_begins_a_drain :
    nextIs (stepC { openAt 0 3 with wakePending := true }) fun t =>
      decide (t.wakePending = false ∧ t.busy = true ∧ t.cstate = .draining) := by decide
/-- A dead block has no step (R292). -/
theorem test_dead_block :
    step { openAt 0 0 with fault := some ⟨.errApi, .p, 4⟩ } = .fault .deadBlock := by rfl
/-- C meets a slot that nothing has written. -/
theorem test_unwritten_slot :
    stepC { headerAt 4 5 0 with ring := [] } = .fault (.unwrittenSlot 4) := by rfl

/-! ### Witnesses: the hypotheses of the statements can be met, clause by clause -/

theorem witness_DecodeEncodeRoundTrip :
    Instr.wf none (.memwrite16 6 0xBEEF) = true ∧ Instr.wf none (.unrecognised 16) = true ∧
      Instr.wf none (.packedAd (0x5F#128 <<< 64)) = true ∧ Instr.wf (some 13) (.reglistLabel 7) = true := by decide

theorem witness_HeaderSelectsCommand :
    (List.range 17).all (fun k => decide (((BitVec.ofNat 128 k).extractLsb' 0 32).toNat = k)) = true := by decide

theorem witness_BytesOfWordsRoundTrip :
    wordOfBytes (List.replicate 16 1) = .ok 0x01010101010101010101010101010101 ∧ ([] : List Byte).length ≠ 16 := by
  constructor
  · rfl
  · decide

theorem witness_StepRunsDecoded_consumer :
    let s : State := { headerAt 4 5 0xD with turn := .c }
    s.fault = none ∧ Instr.wf s.cfg.rlSflBase .record = true ∧ s.turn = .c ∧ s.cstate = .draining ∧
      s.cphase = .dispatch ∧ Memory.read s.ring s.readPos = some 0xD ∧ decode s.cfg.rlSflBase (.header 0xD) = .record := by
  decide

theorem witness_StepRunsDecoded_port :
    let s : State := { openAt 0 0 with port := [{ op := 7 }] }
    s.fault = none ∧ s.turn = .p ∧ s.producerIdle ∧ s.port = [{ op := 7 }] ∧
      decode s.cfg.rlSflBase (.request { op := 7 }) = .hostWaitDrain := by decide

theorem witness_StepRunsDecoded_parser :
    let run : ParseRun := ⟨.p1, [], [5], .lower⟩
    let s := parsing .p1 (inTag 0 1 true 1) [5]
    s.fault = none ∧ s.turn = .p ∧ s.pSignal = false ∧ s.parserAt run 5 [] ∧
      Instr.wf s.cfg.rlSflBase (.packedOther 1 5) = true ∧
      decode s.cfg.rlSflBase (gifCode (s.path run.path) run.half 5) = .packedOther 1 5 := by decide

/-- A transfer that ends exactly at the top, and one that is one slot too long. -/
theorem witness_PathTransfers :
    let s : State := { headerAt 12 0 0 with ring := [(13, 1), (14, 2), (15, 3)] }
    s.atDispatch ∧ s.readPos + 1 + (3 : W32).toNat ≤ s.capacity ∧
      Memory.readSpan s.ring (s.readPos + 1) (3 : W32).toNat = some [1, 2, 3] ∧
      s.capacity < s.readPos + 1 + (4 : W32).toNat := by decide

theorem witness_dispatch : (headerAt 4 5 0).atDispatch := by decide

/-- The last byte of the mirror, the first offset past it, and a misaligned offset. -/
theorem witness_MemoryWrites :
    let s := headerAt 4 5 0
    s.atDispatch ∧ ((0x3F : W32).toNat % 1 = 0 ∧ (0x3F : W32).toNat + 1 ≤ s.cfg.mirrorBytes) ∧
      ¬ ((0x40 : W32).toNat % 1 = 0 ∧ (0x40 : W32).toNat + 1 ≤ s.cfg.mirrorBytes) ∧
      ¬ ((2 : W32).toNat % 4 = 0 ∧ (2 : W32).toNat + 4 ≤ s.cfg.mirrorBytes) := by decide

theorem witness_RestartCommand :
    (headerAt 12 0 0).atDispatch ∧ (headerAt 12 0 0).restartLock = .free ∧
      State.atDispatch { headerAt 12 0 0 with restartLock := .heldP } ∧
      ({ headerAt 12 0 0 with restartLock := .heldP } : State).restartLock ≠ .free := by decide

theorem witness_UnrecognisedCommand :
    let s := headerAt 4 5 0
    let u : State := { s with cfg := { s.cfg with strict := false } }
    s.atDispatch ∧ s.cfg.strict = true ∧ u.atDispatch ∧ u.cfg.strict = false ∧ 16 ≤ (16 : W32).toNat := by decide

theorem witness_ConsumerLoop :
    let wake : State := { openAt 0 3 with wakePending := true }
    let top : State := { headerAt 0 3 0xD with cphase := .top }
    let empty : State := { headerAt 3 3 0xD with cphase := .top }
    let called : State := { headerAt 0 3 0x5 with cphase := .advance 1 }
    let hung : State := { called with endlessCall := true }
    (wake.cstate = .waiting ∧ wake.wakePending = true) ∧
      ((openAt 0 3).cstate = .waiting ∧ (openAt 0 3).wakePending = false) ∧ State.reset.cstate = .off ∧
      (top.cstate = .draining ∧ top.cphase = .top ∧ top.readPos ≠ top.writePos) ∧
      (empty.cstate = .draining ∧ empty.cphase = .top ∧ empty.readPos = empty.writePos) ∧
      ((headerAt 0 3 0xD).cstate = .draining ∧ (headerAt 0 3 0xD).cphase = .dispatch ∧
        Memory.read (headerAt 0 3 0xD).ring (headerAt 0 3 0xD).readPos = some 0xD) ∧
      [called, hung].all (fun s => decide (s.fault = none ∧ s.cstate = .draining ∧ s.cphase = .advance 1 ∧
        Memory.read s.ring s.readPos = some 0x5)) = true ∧ called.endlessCall = false ∧ hung.endlessCall = true := by decide

/-- A parser at the word 7, inside a tag of each data format, with nothing after it. -/
theorem witness_units :
    [0, 1, 2, 3].all (fun f =>
      decide (State.parserAt (parsing .p1 (inTag f 1 true 0xE) [7]) ⟨.p1, [], [7], .lower⟩ 7 [] ∧
        (parsing .p1 (inTag f 1 true 0xE) [7]).pSignal = false ∧
        ((parsing .p1 (inTag f 1 true 0xE) [7]).path .p1).tag.nloop ≠ 0 ∧
        ((parsing .p1 (inTag f 1 true 0xE) [7]).path .p1).tag.flag = f)) = true := by decide

/-- Four units declared: three words after the tag clip it, four do not. -/
theorem witness_TagItems :
    let t : TagFields := { nloop := 2, eop := true, pad := 0, nreg := 2, regs0 := 0x21, regs1 := 0 }
    let declared := t.nloop.toNat * (if t.nreg = 0 then 16 else t.nreg.toNat)
    State.parserAt (parsing .p0 GifPath.zero [0, 1, 2, 3]) ⟨.p0, [], [0, 1, 2, 3], .lower⟩ 0 [1, 2, 3] ∧
      ([1, 2, 3] : List Word).length < declared ∧
      State.parserAt (parsing .p0 GifPath.zero [0, 1, 2, 3, 4]) ⟨.p0, [], [0, 1, 2, 3, 4], .lower⟩ 0 [1, 2, 3, 4] ∧
      ¬ ([1, 2, 3, 4] : List Word).length < declared := by decide

theorem witness_TagGovernsUnits :
    (inTag 0 2 true 1).curreg = 0 ∧ 1 < (inTag 0 2 true 1).tag.nloop.toNat * numregs (inTag 0 2 true 1).tag ∧
      1 + 1 = (inTag 0 2 true 1).tag.nloop.toNat * numregs (inTag 0 2 true 1).tag := by decide

theorem witness_PathsAreIndependent :
    (parsing .p1 (inTag 0 1 true 1) [7]).pphase = .parsing ⟨.p1, [], [7], .lower⟩ ∧
      (∃ t, stepP (parsing .p1 (inTag 0 1 true 1) [7]) = .next t) ∧ PathId.p0 ≠ PathId.p1 :=
  ⟨rfl, ⟨_, rfl⟩, by decide⟩

theorem witness_ParseConsumesPrefix :
    (parse none .p1 GifPath.zero false [0x00000000000000001800000000008001#128, 5, 6]).left ≠ [] := by decide

/-- The clip: a tag that declares two words before one word (R171). -/
theorem witness_ParseConsumesPrefix_clip :
    let out := parse none .p0 GifPath.zero false [0x00000000000000001000000000000002#128, 5]
    out.left = [0x00000000000000001000000000000002#128, 5] ∧ out.path.tag.eop = false := by decide

/-- Overflow by one word, and the exact fit. -/
theorem witness_ClippingRoundTrip :
    let w : Word := 0x00000000000000212000000000008002#128
    let t := (fetchTag 0 (tagFields w) GifPath.zero).tag
    GifPath.zero.tag.nloop = 0 ∧ tagFlg w = 0 ∧ ([1, 2, 3] : List Word).length < t.nloop.toNat * numregs t ∧
      t.nloop.toNat * numregs t = ([1, 2, 3, 4] : List Word).length := by decide

/-- V9: call a ends in the middle of a loop. -/
theorem witness_StreamsSplitAtWords :
    let a := parse none .p1 GifPath.zero false [0x0000000000000E213000000000008002#128, 1, 2]
    PathId.p1 ≠ PathId.p0 ∧ a.left = [] ∧ endOfPacket a.path = false ∧ a.path.curreg = 2 := by decide

/-- Each ground of refusal, and a dead block. -/
theorem witness_PortChecks :
    (openAt 0 0).producerIdle ∧ 11 ≤ (11 : BitVec 4).toNat ∧ (openAt 0 0).session = .opened ∧
      State.reset.producerIdle ∧ State.reset.session = .closed ∧
      ({ openAt 0 0 with resv := some ⟨0, 1⟩ } : State).resv ≠ none ∧ (openAt 0 0).resv = none ∧
      ({ openAt 0 0 with fault := some ⟨.errApi, .p, 4⟩ } : State).fault ≠ none := by decide

theorem witness_ReservedOpsRaise : (openAt 0 0).producerIdle ∧ State.reset.producerIdle := by decide

theorem witness_OpenCompletes :
    State.reset.producerIdle ∧ State.reset.session = .closed ∧ State.reset.resv = none := by decide

theorem witness_CloseCompletes :
    let s := openAt 9 9
    let wait : State := { s with pphase := .closeWait }
    s.acceptsOps ∧ 2 ≤ s.capacity ∧ (s.writePos + 1) % s.capacity ≠ s.readPos ∧
      (wait.fault = none ∧ wait.pphase = .closeWait ∧ wait.pSignal = false ∧ wait.cstate ≠ .halted) ∧
      ({ wait with cstate := .halted } : State).cstate = .halted := by decide

/-- The last free slot, and the commands at the ends of the accepted ranges. -/
theorem witness_SimplePackets :
    let s := openAt 1 15
    s.acceptsOps ∧ 2 ≤ s.capacity ∧ (s.writePos + 1) % s.capacity ≠ s.readPos ∧
      [4, 5, 13, 15, 16, 0xFFFFFFFF].all (fun c : W32 => decide (4 ≤ c.toNat ∧ c.toNat ≠ 14)) = true := by decide

theorem witness_ReservedCommandsRefused :
    (openAt 0 0).acceptsOps ∧ ((3 : W32).toNat ≤ 3 ∧ (14 : W32).toNat = 14) ∧
      (4 ≤ (4 : W32).toNat ∧ (4 : W32).toNat ≠ 14) ∧ (4 ≤ (15 : W32).toNat ∧ (15 : W32).toNat ≠ 14) := by decide

/-- No words from an empty ring at 0, three words that end exactly at the top, and path 3. -/
theorem witness_PrepareDataCompletes :
    (openAt 0 0).acceptsOps ∧ pathOfArg 0 = some .p0 ∧ 0 + 1 ≤ (openAt 0 0).capacity - 1 ∧
      (openAt 0 0).writePos + (0 + 1) < (openAt 0 0).capacity ∧ (openAt 0 0).readPos ≤ (openAt 0 0).writePos ∧
      (openAt 3 12).acceptsOps ∧ (parse none .p2 GifPath.zero false [0, 0, 0]).left = [] ∧
      (openAt 3 12).writePos + (3 + 1) = (openAt 3 12).capacity ∧ (0 < (openAt 3 12).readPos ∧
      (openAt 3 12).readPos < (openAt 3 12).writePos) ∧ 3 ≤ (3 : W32).toNat := by decide

/-- Fifteen words, sixteen slots (V-P3's bound). -/
theorem witness_OversizeAfterParsing :
    (openAt 0 0).acceptsOps ∧ pathOfArg 1 = some .p1 ∧
      (parse none .p1 GifPath.zero false (List.replicate 15 0)).left = [] ∧
      (openAt 0 0).capacity - 1 < (List.replicate 15 (0 : Word)).length + 1 := by decide

theorem witness_SendDataCompletes :
    let s : State := { openAt 0 0 with resv := some ⟨0, 3⟩ }
    s.producerIdle ∧ s.session = .opened ∧ s.resv = some ⟨0, 3⟩ := by decide

theorem witness_WaitDrain :
    (openAt 3 3).producerIdle ∧ (openAt 3 3).session = .opened ∧ (openAt 3 3).readPos = (openAt 3 3).writePos ∧
      (openAt 3 4).producerIdle ∧ (openAt 3 4).readPos ≠ (openAt 3 4).writePos := by decide

theorem witness_PostVsync :
    let s : State := { openAt 1 15 with vsyncQueued := 7 }
    let full : State := { s with vsyncQueued := 8 }
    s.acceptsOps ∧ s.vsyncQueued.toNat < 8 ∧ 2 ≤ s.capacity ∧ (s.writePos + 1) % s.capacity ≠ s.readPos ∧
      full.acceptsOps ∧ 8 ≤ full.vsyncQueued.toNat := by decide

theorem witness_Savestate :
    (openAt 3 3).acceptsOps ∧ (openAt 3 3).readPos = (openAt 3 3).writePos ∧
      ((openAt 3 4).producerIdle ∧ (openAt 3 4).resv = none ∧ (openAt 3 4).readPos ≠ (openAt 3 4).writePos) ∧
      (State.reset.producerIdle ∧ State.reset.resv = none ∧ State.reset.session = .closed) := by decide

/-- A packet of fifteen slots at 0, the largest; a wrap by one slot; an exact fit; and each with its guard false. -/
theorem witness_ReserveGuards :
    let at_ (r w n : Nat) : State := { openAt r w with pphase := .reserve ⟨.p1, List.replicate n 0⟩ }
    (at_ 0 0 14).pSignal = false ∧ (at_ 0 0 14).pphase = .reserve ⟨.p1, List.replicate 14 0⟩ ∧
      (at_ 0 0 15).capacity - 1 < 15 + 1 ∧
      (14 + 1 ≤ (at_ 0 0 14).capacity - 1 ∧ 0 + (14 + 1) < (at_ 0 0 14).capacity) ∧
      ¬ ((at_ 7 4 2).readPos ≤ (at_ 7 4 2).writePos ∨ (at_ 7 4 2).writePos + (2 + 1) < (at_ 7 4 2).readPos) ∧
      ((at_ 12 12 4).capacity < 12 + (4 + 1) ∧ (at_ 12 12 4).readPos = (at_ 12 12 4).writePos) ∧
      ¬ ((at_ 0 12 4).readPos = (at_ 0 12 4).writePos ∨ (0 < (at_ 0 12 4).readPos ∧ (at_ 0 12 4).readPos < 12)) ∧
      ((at_ 3 12 3).writePos + (3 + 1) = (at_ 3 12 3).capacity ∧ (0 < 3 ∧ 3 < 12)) ∧
      ¬ ((at_ 13 12 3).readPos = (at_ 13 12 3).writePos ∨ (0 < (at_ 13 12 3).readPos ∧ (at_ 13 12 3).readPos < 12)) := by
  decide

theorem witness_OneSlotGuardAgrees : 2 ≤ 2 ∧ 1 < 2 ∧ 0 < 2 ∧ (1 + 1) % 2 = 0 ∧ (1 + 1) % 2 ≠ 1 := by decide

theorem witness_RestartSequence :
    let s : State := { openAt 12 12 with pphase := .lockAcquire ⟨.p1, [0, 0, 0, 0, 0]⟩ }
    s.pSignal = false ∧ s.restartLock = .free ∧ ({ s with restartLock := .heldC } : State).restartLock ≠ .free := by decide

theorem witness_CommitAndWake :
    let s : State := { openAt 0 12 with pphase := .publish 12 4 .sendData }
    s.pSignal = false ∧ s.pphase = .publish 12 4 .sendData := by decide

theorem witness_WaitsSignal :
    State.waits { openAt 7 4 with pphase := .reserve ⟨.p1, [0, 0]⟩ } ∧
      State.waits { openAt 0 15 with pphase := .slot 0xD .retire } ∧
      State.waits { openAt 0 8 with pphase := .vsyncWait 0, vsyncQueued := 8 } ∧
      State.waits { openAt 0 1 with pphase := .closeWait } ∧ State.waits { openAt 0 1 with pphase := .drain .retire } := by
  refine ⟨?_, ?_, ?_, ?_, ?_⟩ <;> unfold State.waits <;> decide

theorem witness_HaltedConsumerHoldsDrain :
    let s : State := { openAt 4 9 with cstate := .halted, pphase := .drain .retire }
    s.cstate = .halted ∧ s.readPos ≠ s.writePos ∧ s.pphase = .drain .retire ∧ ∃ t, step s = .next t :=
  ⟨rfl, by decide, rfl, _, rfl⟩

theorem witness_RaisingStepIsPrecise :
    let s : State := { headerAt 4 5 0x10 with turn := .c }
    ∃ t, step s = .next t ∧ t.fault = some ⟨.errUnknownCmd, .c, 16⟩ := ⟨_, rfl, rfl⟩

theorem witness_SingleWriter :
    (∃ t, stepC (headerAt 4 5 0xD) = .next t) ∧
      (∃ t, stepP { openAt 4 5 with port := [{ op := 7 }] } = .next t) ∧ (openAt 4 5).session = .opened :=
  ⟨⟨_, rfl⟩, ⟨_, rfl⟩, rfl⟩

/-- OPEN empties the traces of an earlier session but for its own call (R37, R201). -/
theorem test_open_empties_traces :
    let s : State := { State.reset with backendTrace := [.init true, .close], periphTrace := [.a, .b] }
    (openWith true s).backendTrace = [.init true] ∧ (openWith true s).periphTrace = [] := by decide

/-- A refused operation of an idle P on a closed block: no acceptance of OPEN. -/
theorem witness_SingleWriter_closed :
    let s : State := { State.reset with port := [{ op := 7 }] }
    s.producerIdle ∧ s.session = .closed ∧ (∃ t, stepP s = .next t) ∧ ∀ r ∈ s.port, r.op ≠ 0 :=
  ⟨by decide, rfl, ⟨_, rfl⟩, by decide⟩

theorem witness_ParametersFixedTracesGrow :
    ∃ t, step { headerAt 4 5 0x5 with turn := .c } = .next t ∧ t.backendTrace = [.reset] := ⟨_, rfl, rfl⟩

theorem witness_StepKeepsInv :
    State.Inv { openAt 4 9 with pphase := .drain .retire } ∧
      ∃ t, step { openAt 4 9 with pphase := .drain .retire } = .next t :=
  ⟨by decide, _, rfl⟩

theorem witness_StepKeepsRanges :
    (∀ p, GifPath.InRange ((parsing .p1 (inTag 0 2 true 0xE) [7]).path p)) ∧
      (∀ image, (parsing .p1 (inTag 0 2 true 0xE) [7]).pphase ≠ .drain (.load image)) ∧
      ∃ t, step (parsing .p1 (inTag 0 2 true 0xE) [7]) = .next t := by
  refine ⟨?_, ?_, _, rfl⟩
  · decide
  · intro image h
    cases h

/-- Four slots, two packets in the ring, and a third, in the last slot, about to be published: the store wraps to 0. -/
def liveAtTop : State :=
  { openAt 1 3 with
    cfg := { Config.conventional with ringLog2 := 2 }
    ring := [(1, 0xD), (2, 0xD), (3, 0xD)]
    pphase := .publish 3 1 .retire }

theorem witness_LiveInv_publish :
    liveAtTop.LiveInv ∧ liveAtTop.session = .opened ∧ liveAtTop.turn = .p ∧ liveAtTop.readPos ≠ liveAtTop.writePos ∧
      ∃ t, step liveAtTop = .next t ∧ t.writePos = 0 := by
  have h : liveAtTop.liveHeaders = some [0xD, 0xD] := by decide
  refine ⟨⟨by decide, by decide, rfl, ?_⟩, rfl, rfl, by decide, _, rfl, rfl⟩
  rw [h]
  refine ⟨⟨by decide, rfl, by decide⟩, fun hd => absurd hd (by decide), by decide, by decide⟩

/-- An empty ring of two slots, and the reserved packet of one slot about to be published by SEND_DATA. -/
def liveAtEmpty : State :=
  { openAt 1 1 with
    cfg := { Config.conventional with ringLog2 := 1 }
    ring := [(1, 0)]
    resv := some { offset := 1, size := 1 }
    pphase := .publish 1 1 .sendData }

theorem witness_LiveInv_publish_empty :
    liveAtEmpty.LiveInv ∧ liveAtEmpty.session = .opened ∧ liveAtEmpty.turn = .p ∧ liveAtEmpty.pSignal = false ∧
      liveAtEmpty.readPos = liveAtEmpty.writePos ∧ ∃ t, step liveAtEmpty = .next t ∧ t.writePos = 0 ∧ t.resv = none := by
  have h : liveAtEmpty.liveHeaders = some [] := by decide
  refine ⟨⟨by decide, by decide, rfl, ?_⟩, rfl, rfl, rfl, rfl, _, rfl, rfl, rfl⟩
  rw [h]
  exact ⟨⟨by decide, rfl, by decide⟩, fun hd => absurd hd (by decide), by decide, by decide⟩

/-- The parameters at the lower bounds of R7. -/
theorem witness_InvariantsAtReset :
    Params.wf { ringLog2 := 1, mirrorBytes := 16, wakeWords := 1, wakeCmds := 1, strict := false, rlSflBase := some 13 } =
      true := by decide

/-- P about to write a simple packet's header into slot 5, with a packet in slot 4. -/
def liveAtSlot : State := { openAt 4 5 with ring := [(4, 0xD)], pphase := .slot 0xD .retire }

theorem witness_DataRaceFreedom :
    liveAtSlot.LiveInv ∧ liveAtSlot.session = .opened ∧ liveAtSlot.turn = .p ∧
      ∃ t, step liveAtSlot = .next t ∧ Memory.read t.ring 5 ≠ Memory.read liveAtSlot.ring 5 := by
  have h : liveAtSlot.liveHeaders = some [0xD] := by decide
  refine ⟨⟨by decide, by decide, rfl, ?_⟩, rfl, rfl, _, rfl, by decide⟩
  rw [h]
  exact ⟨⟨.inl rfl, rfl, by decide, by decide⟩, fun hd => absurd hd (by decide), by decide, by decide⟩

/-- C at the first of two packets. -/
def liveAtHead : State := { headerAt 4 6 0 with ring := [(4, 0x5), (5, 0xD)], turn := .c }

theorem witness_FirstInFirstOut_consumer :
    liveAtHead.LiveInv ∧ liveAtHead.fault = none ∧ liveAtHead.session = .opened ∧ liveAtHead.cstate = .draining ∧
      liveAtHead.cphase = .dispatch ∧ ∃ t, step liveAtHead = .next t := by
  have h : liveAtHead.liveHeaders = some [0x5, 0xD] := by decide
  refine ⟨⟨by decide, by decide, rfl, ?_⟩, rfl, rfl, rfl, rfl, _, rfl⟩
  rw [h]
  exact ⟨True.intro, fun _ => List.cons_ne_nil _ _, by decide, by decide⟩

end Sys2Proof.Tests
end

section
/-! The ring as a queue of packets (10_state.md R38, R40). The live region is described by relations that recurse on the
list of headers, `segmentHeaders`, `topHeaders` and `State.liveHeaders` are tied to them, and the queue's laws are
stated of them: what a publish adds at the end, what an advance takes from the front. -/

namespace Sys2Proof.Machine

/-! ### Packets -/

/-- A packet with this header stands at slot `a`, every slot of it written. -/
def PacketAt (ring : Memory Word) (a : Nat) (h : Word) : Prop :=
  Memory.read ring a = some h ∧ (Memory.readSpan ring (a + 1) (packetLength h - 1)).isSome = true

theorem packetLength_pos (h : Word) : 1 ≤ packetLength h := by
  unfold packetLength
  split <;> omega

theorem isRestart_iff {h : Word} : isRestart h = true ↔ decodeHeader h = .restart := decide_eq_true_iff

theorem packetLength_of_isRestart {h : Word} (hr : isRestart h = true) : packetLength h = 1 := by
  simp [packetLength, isRestart_iff.mp hr]

/-- A data packet is no RESTART marker: their ids differ (30_encoding.md R93). -/
theorem isRestart_of_isData {h : Word} (hd : isData h = true) : isRestart h = false := by
  have hlt : (headerCommand h).toNat < 3 := of_decide_eq_true hd
  refine Bool.eq_false_iff.mpr fun hr => ?_
  have hdec := isRestart_iff.mp hr
  interval_cases hc : (headerCommand h).toNat <;> simp [decodeHeader, hc] at hdec

theorem packetAt_of_isRestart {ring : Memory Word} {a : Nat} {h : Word} (hm : Memory.read ring a = some h)
    (hr : isRestart h = true) : PacketAt ring a h :=
  ⟨hm, by rw [packetLength_of_isRestart hr]; rfl⟩

/-- A packet is the same in every memory that agrees on its slots. -/
theorem PacketAt.congr {ring ring' : Memory Word} {a : Nat} {h : Word} (hp : PacketAt ring a h)
    (hag : ∀ i, a ≤ i → i < a + packetLength h → Memory.read ring' i = Memory.read ring i) : PacketAt ring' a h := by
  obtain ⟨hread, hspan⟩ := hp
  have hpos := packetLength_pos h
  refine ⟨by rw [hag a (by omega) (by omega), hread], ?_⟩
  rwa [Memory.readSpan_congr ring' ring _ _ fun k hk => hag _ (by omega) (by omega)]

/-! ### Segments -/

/-- The packets with these headers exactly fill the slots from `a` up to `b`, and none is a RESTART marker. -/
def Fills (ring : Memory Word) (a b : Nat) : List Word → Prop
  | [] => a = b
  | h :: hs => PacketAt ring a h ∧ isRestart h = false ∧ Fills ring (a + packetLength h) b hs

theorem Fills.le {ring : Memory Word} {a b : Nat} {hs : List Word} (h : Fills ring a b hs) : a + hs.length ≤ b := by
  induction hs generalizing a with
  | nil => exact Nat.le_of_eq h
  | cons w ws ih =>
    obtain ⟨-, -, hrest⟩ := h
    have := ih hrest
    have := packetLength_pos w
    rw [List.length_cons]
    omega

theorem Fills.congr {ring ring' : Memory Word} {a b : Nat} {hs : List Word} (h : Fills ring a b hs)
    (hag : ∀ i, a ≤ i → i < b → Memory.read ring' i = Memory.read ring i) : Fills ring' a b hs := by
  induction hs generalizing a with
  | nil => exact h
  | cons w ws ih =>
    obtain ⟨hp, hr, hrest⟩ := h
    have := hrest.le
    exact ⟨hp.congr fun i hi hi' => hag i hi (by omega), hr, ih hrest fun i hi hi' => hag i (by omega) hi'⟩

/-- One more packet after a segment. -/
theorem Fills.snoc {ring : Memory Word} {a b : Nat} {hs : List Word} {h : Word} (hf : Fills ring a b hs)
    (hp : PacketAt ring b h) (hr : isRestart h = false) : Fills ring a (b + packetLength h) (hs ++ [h]) := by
  induction hs generalizing a with
  | nil =>
    cases hf
    exact ⟨hp, hr, rfl⟩
  | cons w ws ih =>
    obtain ⟨hw, hrw, hrest⟩ := hf
    exact ⟨hw, hrw, ih hrest⟩

theorem segmentHeaders_eq_nil {ring : Memory Word} {fuel a b : Nat} :
    segmentHeaders ring fuel a b = some [] ↔ a = b := by
  by_cases hab : a = b
  · cases fuel <;> simp [segmentHeaders, hab]
  · cases fuel with
    | zero => simp [segmentHeaders, hab]
    | succ n =>
      simp only [segmentHeaders, hab, if_false, iff_false]
      cases Memory.read ring a with
      | none => simp
      | some h => dsimp only; split <;> simp

theorem segmentHeaders_eq_cons {ring : Memory Word} {n a b : Nat} {h : Word} {hs : List Word} :
    segmentHeaders ring (n + 1) a b = some (h :: hs) ↔
      a ≠ b ∧ PacketAt ring a h ∧ isRestart h = false ∧ a + packetLength h ≤ b ∧
        segmentHeaders ring n (a + packetLength h) b = some hs := by
  by_cases hab : a = b
  · simp [segmentHeaders, hab]
  · simp only [segmentHeaders, hab, if_false, PacketAt]
    cases Memory.read ring a with
    | none => simp
    | some w =>
      dsimp only
      split
      · simp only [Option.map_eq_some_iff, List.cons.injEq, Option.some.injEq]
        constructor
        · rintro ⟨_, hrest, rfl, rfl⟩
          tauto
        · rintro ⟨-, ⟨rfl, -⟩, -, -, hrest⟩
          exact ⟨hs, hrest, rfl, rfl⟩
      · simp only [reduceCtorEq, Option.some.injEq, false_iff]
        rename_i hunfit
        rintro ⟨-, ⟨rfl, hspan⟩, hr, hle, -⟩
        exact hunfit ⟨hr, hle, hspan⟩

/-- What `segmentHeaders` finds, whenever its fuel covers the segment. -/
theorem segmentHeaders_eq_some {ring : Memory Word} {fuel a b : Nat} {hs : List Word} (hb : b ≤ a + fuel) :
    segmentHeaders ring fuel a b = some hs ↔ Fills ring a b hs := by
  induction hs generalizing fuel a with
  | nil => exact segmentHeaders_eq_nil
  | cons h hs ih =>
    have hpos := packetLength_pos h
    cases fuel with
    | zero =>
      have hnone : segmentHeaders ring 0 a b ≠ some (h :: hs) := by
        unfold segmentHeaders
        split <;> simp
      refine iff_of_false hnone fun hf => ?_
      have := hf.le
      rw [List.length_cons] at this
      omega
    | succ n =>
      rw [segmentHeaders_eq_cons, ih (by omega)]
      constructor
      · rintro ⟨-, hp, hr, -, hrest⟩
        exact ⟨hp, hr, hrest⟩
      · rintro ⟨hp, hr, hrest⟩
        have := hrest.le
        exact ⟨by omega, hp, hr, by omega, hrest⟩

/-! ### The segment that ends at the top -/

/-- The packets with these headers reach from `a` to the top of the ring: up to and with a RESTART marker, or filling it
exactly. -/
def FillsToTop (ring : Memory Word) (top a : Nat) : List Word → Prop
  | [] => a = top
  | h :: hs =>
    a < top ∧ PacketAt ring a h ∧
      if isRestart h = true then hs = [] else FillsToTop ring top (a + packetLength h) hs

theorem FillsToTop.le {ring : Memory Word} {top a : Nat} {hs : List Word} (h : FillsToTop ring top a hs) : a ≤ top := by
  cases hs with
  | nil => exact Nat.le_of_eq h
  | cons w ws => exact Nat.le_of_lt h.1

theorem FillsToTop.congr {ring ring' : Memory Word} {top a : Nat} {hs : List Word} (h : FillsToTop ring top a hs)
    (hag : ∀ i, a ≤ i → i < top → Memory.read ring' i = Memory.read ring i) : FillsToTop ring' top a hs := by
  induction hs generalizing a with
  | nil => exact h
  | cons w ws ih =>
    obtain ⟨hlt, hp, hrest⟩ := h
    by_cases hr : isRestart w = true
    · rw [if_pos hr] at hrest
      have hlen := packetLength_of_isRestart hr
      exact ⟨hlt, hp.congr fun i hi hi' => hag i hi (by omega), by rwa [if_pos hr]⟩
    · rw [if_neg hr] at hrest
      have hle := hrest.le
      refine ⟨hlt, hp.congr fun i hi hi' => hag i hi (by omega), ?_⟩
      rw [if_neg hr]
      exact ih hrest fun i hi hi' => hag i (by omega) hi'

/-- A segment that fills the ring to its top. -/
theorem Fills.toTop {ring : Memory Word} {a top : Nat} {hs : List Word} (h : Fills ring a top hs) :
    FillsToTop ring top a hs := by
  induction hs generalizing a with
  | nil => exact h
  | cons w ws ih =>
    have hle := h.le
    rw [List.length_cons] at hle
    obtain ⟨hp, hr, hrest⟩ := h
    exact ⟨by omega, hp, by simpa [hr] using ih hrest⟩

/-- A RESTART marker after a segment ends the way to the top. -/
theorem Fills.snoc_restart {ring : Memory Word} {a b top : Nat} {hs : List Word} {m : Word} (h : Fills ring a b hs)
    (hb : b < top) (hp : PacketAt ring b m) (hm : isRestart m = true) : FillsToTop ring top a (hs ++ [m]) := by
  induction hs generalizing a with
  | nil =>
    cases h
    exact ⟨hb, hp, by rw [if_pos hm]⟩
  | cons w ws ih =>
    have hle := h.le
    rw [List.length_cons] at hle
    obtain ⟨hw, hr, hrest⟩ := h
    exact ⟨by omega, hw, by simpa [hr] using ih hrest⟩

theorem topHeaders_eq_nil {ring : Memory Word} {fuel a top : Nat} :
    topHeaders ring fuel a top = some [] ↔ a = top := by
  by_cases hab : a = top
  · cases fuel <;> simp [topHeaders, hab]
  · cases fuel with
    | zero => simp [topHeaders, hab]
    | succ n =>
      simp only [topHeaders, hab, if_false, iff_false]
      cases Memory.read ring a with
      | none => simp
      | some h => dsimp only; split <;> [simp; split <;> simp]

theorem topHeaders_eq_cons {ring : Memory Word} {n a top : Nat} {h : Word} {hs : List Word} :
    topHeaders ring (n + 1) a top = some (h :: hs) ↔
      a ≠ top ∧ PacketAt ring a h ∧
        if isRestart h = true then hs = []
        else a + packetLength h ≤ top ∧ topHeaders ring n (a + packetLength h) top = some hs := by
  by_cases hab : a = top
  · simp [topHeaders, hab]
  · simp only [topHeaders, hab, if_false]
    cases hread : Memory.read ring a with
    | none => simp [PacketAt, hread]
    | some w =>
      dsimp only
      by_cases hr : isRestart w = true
      · rw [if_pos hr]
        constructor
        · rintro ⟨⟩
          exact ⟨hab, packetAt_of_isRestart hread hr, by rw [if_pos hr]⟩
        · rintro ⟨-, ⟨hw, -⟩, hrest⟩
          cases hread.symm.trans hw
          rw [if_pos hr] at hrest
          rw [hrest]
      · rw [if_neg hr]
        constructor
        · intro hsome
          split at hsome
          · rename_i hfit
            obtain ⟨_, hrest, hcons⟩ := Option.map_eq_some_iff.mp hsome
            cases hcons
            exact ⟨hab, ⟨hread, hfit.2⟩, by rw [if_neg hr]; exact ⟨hfit.1, hrest⟩⟩
          · cases hsome
        · rintro ⟨-, ⟨hw, hspan⟩, hrest⟩
          cases hread.symm.trans hw
          rw [if_neg hr] at hrest
          rw [if_pos ⟨hrest.1, hspan⟩, hrest.2]
          rfl

/-- What `topHeaders` finds, whenever its fuel covers the way to the top. -/
theorem topHeaders_eq_some {ring : Memory Word} {fuel a top : Nat} {hs : List Word} (ha : a ≤ top)
    (hfuel : top ≤ a + fuel) : topHeaders ring fuel a top = some hs ↔ FillsToTop ring top a hs := by
  induction hs generalizing fuel a with
  | nil => exact topHeaders_eq_nil
  | cons h hs ih =>
    have hpos := packetLength_pos h
    cases fuel with
    | zero =>
      have hnone : topHeaders ring 0 a top ≠ some (h :: hs) := by
        unfold topHeaders
        split <;> simp
      refine iff_of_false hnone ?_
      rintro ⟨hlt, -⟩
      omega
    | succ n =>
      rw [topHeaders_eq_cons, FillsToTop, show a ≠ top ↔ a < top by omega]
      refine and_congr_right fun _ => and_congr_right fun _ => ?_
      by_cases hr : isRestart h = true
      · simp only [if_pos hr]
      · simp only [if_neg hr]
        constructor
        · rintro ⟨hle, hrest⟩
          exact (ih hle (by omega)).mp hrest
        · intro hrest
          exact ⟨hrest.le, (ih hrest.le (by omega)).mpr hrest⟩

/-! ### The queue -/

/-- The packets with these headers are the live region of a ring of `n` slots from `r` to `e`: one segment, or one to
the top and one from slot 0. -/
def Queued (ring : Memory Word) (n r e : Nat) (hs : List Word) : Prop :=
  if r ≤ e then Fills ring r e hs
  else ∃ xs ys, hs = xs ++ ys ∧ FillsToTop ring n r xs ∧ Fills ring 0 e ys

theorem queued_of_le {ring : Memory Word} {n r e : Nat} {hs : List Word} (h : r ≤ e) :
    Queued ring n r e hs ↔ Fills ring r e hs := by rw [Queued, if_pos h]

theorem queued_of_lt {ring : Memory Word} {n r e : Nat} {hs : List Word} (h : e < r) :
    Queued ring n r e hs ↔ ∃ xs ys, hs = xs ++ ys ∧ FillsToTop ring n r xs ∧ Fills ring 0 e ys := by
  rw [Queued, if_neg (by omega)]

/-- The live headers of a state are its queue. -/
theorem liveHeaders_eq_some {s : State} {hs : List Word} (hr : s.readPos ≤ s.capacity) (he : s.liveEnd ≤ s.capacity) :
    s.liveHeaders = some hs ↔ Queued s.ring s.capacity s.readPos s.liveEnd hs := by
  unfold State.liveHeaders
  split
  · rw [queued_of_le ‹_›, segmentHeaders_eq_some (by omega)]
  · rw [queued_of_lt (by omega)]
    simp only [← topHeaders_eq_some hr (Nat.le_add_left _ _),
      ← segmentHeaders_eq_some (ring := s.ring) (show s.liveEnd ≤ 0 + s.capacity by omega)]
    cases topHeaders s.ring s.capacity s.readPos s.capacity with
    | none => simp
    | some xs =>
      cases segmentHeaders s.ring s.capacity 0 s.liveEnd with
      | none => simp
      | some ys => simp [eq_comm]

/-- The queue depends on the slots of the live region alone. -/
theorem Queued.congr {ring ring' : Memory Word} {n r e : Nat} {hs : List Word} (h : Queued ring n r e hs)
    (hag : ∀ i, inRegion r e i → i < n ∨ i < e → Memory.read ring' i = Memory.read ring i) : Queued ring' n r e hs := by
  by_cases hre : r ≤ e
  · rw [queued_of_le hre] at h ⊢
    exact h.congr fun i hi hi' => hag i (by rw [inRegion, if_pos hre]; exact ⟨hi, hi'⟩) (.inr hi')
  · rw [queued_of_lt (by omega)] at h ⊢
    obtain ⟨xs, ys, rfl, hx, hy⟩ := h
    exact ⟨xs, ys, rfl, hx.congr fun i hi hi' => hag i (by rw [inRegion, if_neg hre]; exact .inl hi) (.inl hi'),
      hy.congr fun i _ hi' => hag i (by rw [inRegion, if_neg hre]; exact .inr hi') (.inr hi')⟩

/-- A publish at the end of the queue under the guards of `reserve` adds its packet at the end (40_ring.md R132 to R135,
R137). -/
theorem Queued.publish {ring : Memory Word} {n r w : Nat} {hs : List Word} {h : Word} (hq : Queued ring n r w hs)
    (hp : PacketAt ring w h) (hr : isRestart h = false) (hfit : w + packetLength h ≤ n)
    (hguard : if r ≤ w then w + packetLength h < n ∨ 0 < r else w + packetLength h < r) (hrn : r < n) :
    Queued ring n r ((w + packetLength h) % n) (hs ++ [h]) := by
  by_cases hrw : r ≤ w
  · rw [queued_of_le hrw] at hq
    have hq' := hq.snoc hp hr
    rw [if_pos hrw] at hguard
    rcases Nat.lt_or_eq_of_le hfit with hlt | htop
    · rw [Nat.mod_eq_of_lt hlt, queued_of_le (by omega)]
      exact hq'
    · rw [htop] at hq' ⊢
      rw [Nat.mod_self, queued_of_lt (by omega)]
      exact ⟨_, [], by simp, hq'.toTop, rfl⟩
  · rw [if_neg hrw] at hguard
    rw [queued_of_lt (by omega)] at hq
    obtain ⟨xs, ys, rfl, hx, hy⟩ := hq
    rw [Nat.mod_eq_of_lt (by omega), queued_of_lt hguard]
    exact ⟨xs, ys ++ [h], by simp, hx, hy.snoc hp hr⟩

/-- The publish of a RESTART marker adds it at the end, and the live region then ends at slot 0 (R136). -/
theorem Queued.publish_restart {ring : Memory Word} {n r w : Nat} {hs : List Word} {m : Word}
    (hq : Queued ring n r w hs) (hp : PacketAt ring w m) (hm : isRestart m = true) (hr : 0 < r) (hrw : r ≤ w)
    (hw : w < n) : Queued ring n r 0 (hs ++ [m]) := by
  rw [queued_of_le hrw] at hq
  rw [queued_of_lt hr]
  exact ⟨_, [], by simp, hq.snoc_restart hw hp hm, rfl⟩

/-- The first header of the queue stands at its start. -/
theorem Queued.packetAt {ring : Memory Word} {n r e : Nat} {h : Word} {hs : List Word}
    (hq : Queued ring n r e (h :: hs)) (hrn : r < n) : PacketAt ring r h := by
  by_cases hre : r ≤ e
  · exact ((queued_of_le hre).mp hq).1
  · obtain ⟨xs, ys, hcons, hx, -⟩ := (queued_of_lt (by omega)).mp hq
    cases xs with
    | nil => exact absurd hx (Nat.ne_of_lt hrn)
    | cons x xs =>
      cases hcons
      exact hx.2.1

/-- The advance past the first packet takes it from the queue (43_consumer.md R248). -/
theorem Queued.advance {ring : Memory Word} {n r e : Nat} {h : Word} {hs : List Word}
    (hq : Queued ring n r e (h :: hs)) (hrn : r < n) (hen : e < n) (hr : isRestart h = false) :
    Queued ring n ((r + packetLength h) % n) e hs := by
  by_cases hre : r ≤ e
  · rw [queued_of_le hre] at hq
    obtain ⟨-, -, hrest⟩ := hq
    have := hrest.le
    rw [Nat.mod_eq_of_lt (by omega), queued_of_le (by omega)]
    exact hrest
  · rw [queued_of_lt (by omega)] at hq
    obtain ⟨xs, ys, hcons, hx, hy⟩ := hq
    cases xs with
    | nil => exact absurd hx (Nat.ne_of_lt hrn)
    | cons x xs =>
      cases hcons
      obtain ⟨-, -, hrest⟩ := hx
      rw [if_neg (by simp [hr])] at hrest
      rcases Nat.lt_or_eq_of_le hrest.le with hlt | htop
      · rw [Nat.mod_eq_of_lt hlt, queued_of_lt (by omega)]
        exact ⟨xs, ys, rfl, hrest, hy⟩
      · cases xs with
        | nil =>
          rw [htop, Nat.mod_self, queued_of_le (Nat.zero_le e)]
          exact hy
        | cons y xs => exact absurd hrest.1 (by omega)

/-- Going back to slot 0 at a RESTART marker takes it from the queue (43_consumer.md R246). -/
theorem Queued.restart {ring : Memory Word} {n r e : Nat} {m : Word} {hs : List Word}
    (hq : Queued ring n r e (m :: hs)) (hrn : r < n) (hm : isRestart m = true) : Queued ring n 0 e hs := by
  rw [queued_of_le (Nat.zero_le e)]
  by_cases hre : r ≤ e
  · obtain ⟨-, hr, -⟩ := (queued_of_le hre).mp hq
    exact absurd hm (by simp [hr])
  · obtain ⟨xs, ys, hcons, hx, hy⟩ := (queued_of_lt (by omega)).mp hq
    cases xs with
    | nil => exact absurd hx (Nat.ne_of_lt hrn)
    | cons x xs =>
      cases hcons
      obtain ⟨-, -, hrest⟩ := hx
      rw [if_pos hm] at hrest
      subst hrest
      exact hy

end Sys2Proof.Machine
end

section
/-! What a step does to the queue's place: one lemma for each agent that says every way in which its step can touch the
ring, the cursors and the end of the live region. -/

namespace Sys2Proof.Machine

/-! ### Steps that leave the queue's place alone -/

/-- The ring, the cursors, the ring's size and the end of the live region are the same. -/
structure SameRing (s t : State) : Prop where
  ring : t.ring = s.ring
  readPos : t.readPos = s.readPos
  writePos : t.writePos = s.writePos
  cfg : t.cfg = s.cfg
  marker : t.pphase.markerPublished = s.pphase.markerPublished

theorem SameRing.refl (s : State) : SameRing s s := ⟨rfl, rfl, rfl, rfl, rfl⟩

theorem SameRing.trans {s t u : State} (h : SameRing s t) (h' : SameRing t u) : SameRing s u :=
  ⟨h'.ring.trans h.ring, h'.readPos.trans h.readPos, h'.writePos.trans h.writePos, h'.cfg.trans h.cfg,
    h'.marker.trans h.marker⟩

theorem SameRing.capacity {s t : State} (h : SameRing s t) : t.capacity = s.capacity := by
  rw [State.capacity, State.capacity, h.cfg]

theorem SameRing.liveEnd {s t : State} (h : SameRing s t) : t.liveEnd = s.liveEnd := by
  rw [State.liveEnd, State.liveEnd, h.marker, h.writePos]

theorem SameRing.liveHeaders {s t : State} (h : SameRing s t) : t.liveHeaders = s.liveHeaders := by
  rw [State.liveHeaders, State.liveHeaders, h.ring, h.capacity, h.readPos, h.liveEnd]

/-- P goes from one place to another, and the marker is published in neither or in both. -/
theorem sameRing_toPPhase {s : State} {p : PPhase} (h : p.markerPublished = s.pphase.markerPublished) :
    SameRing s (toPPhase p s) := ⟨rfl, rfl, rfl, rfl, h⟩

theorem sameRing_retire {s : State} (r : Reply) (h : s.pphase.markerPublished = false) : SameRing s (retire r s) :=
  ⟨rfl, rfl, rfl, rfl, h.symm⟩

theorem sameRing_raise {s t : State} {a : Agent} {code : ErrCode} {info : W64} (h : raise a code info s = .next t) :
    SameRing s t := by
  cases h
  exact ⟨rfl, rfl, rfl, rfl, rfl⟩

theorem sameRing_wakeDecide (size : Nat) (s : State) : SameRing s (wakeDecide size s) :=
  ⟨wakeDecide_ring s size, wakeDecide_readPos s size, wakeDecide_writePos s size, wakeDecide_cfg s size,
    congrArg _ (wakeDecide_pphase s size)⟩

/-! ### P's steps -/

/-- Everything a step of P can do to the ring, the cursors and the end of the live region: nothing, a write at `write_pos`
outside the live region, a publish, or the store of 0 after a published marker (40_ring.md R136, R137, R140). -/
inductive ProducerMove (s t : State) : Prop where
  | quiet (same : SameRing s t)
  | write (ws : List Word)
      (free : s.readPos ≤ s.writePos ∨ s.writePos + ws.length ≤ s.readPos)
      (marker : s.pphase.markerPublished = false)
      (same : SameRing (ringWriteSpan s.writePos ws s) t)
  | publish (offset size : Nat) (after : AfterCommit)
      (phase : s.pphase = .publish offset size after)
      (same : SameRing (toPPhase (.wakeDecision size after) (storeWritePos (s.wrap (offset + size)) s)) t)
  | origin (pkt : Packet)
      (phase : s.pphase = .originStore pkt)
      (same : SameRing (toPPhase (.lockRelease pkt) (storeWritePos 0 s)) t)

/-- Any next state of this result has the ring and the cursors of `s`. -/
def QuietResult (s : State) (r : Result) : Prop := ∀ t, r = .next t → SameRing s t

theorem quietResult_next {s t : State} (h : SameRing s t) : QuietResult s (.next t) := by
  rintro _ ⟨⟩
  exact h

theorem quietResult_raise (s : State) (a : Agent) (code : ErrCode) (info : W64) : QuietResult s (raise a code info s) :=
  fun _ => sameRing_raise

/-! #### The parser -/

/-- The run's end and its going on leave P inside PREPARE_DATA, before any marker. -/
theorem sameRing_continueParse {s t : State} {run run' : ParseRun} (hp : s.pphase = .parsing run) (h : SameRing s t) :
    SameRing s (continueParse run' t) := by
  refine h.trans ?_
  rw [continueParse_eq]
  refine sameRing_toPPhase ?_
  rw [h.marker, hp]
  split <;> rfl

theorem sameRing_endParse {s t : State} {run run' : ParseRun} (hp : s.pphase = .parsing run) (h : SameRing s t) :
    SameRing s (endParse run' t) :=
  h.trans (sameRing_toPPhase (by rw [h.marker, hp]; rfl))

theorem sameRing_setPath (p : PathId) (g : GifPath) (s : State) : SameRing s (setPath p g s) :=
  ⟨rfl, rfl, rfl, rfl, rfl⟩

theorem sameRing_raiseIf (k : Option Sfl) (w0 w1 : W32) (s : State) : SameRing s (raiseIf k w0 w1 s) := by
  cases k <;> exact ⟨rfl, rfl, rfl, rfl, rfl⟩

theorem quietResult_tagItem (flg : BitVec 2) (f : TagFields) (s : State) : QuietResult s (tagItem flg f s) := by
  intro t h
  obtain ⟨-, run, hp, hb⟩ := tagItem_next h
  split at hb <;> subst hb
  · exact sameRing_endParse hp ⟨rfl, rfl, rfl, rfl, rfl⟩
  · exact sameRing_continueParse hp ⟨rfl, rfl, rfl, rfl, rfl⟩

theorem quietResult_packedItem (k : Option Sfl) (w0 w1 : W32) (s : State) : QuietResult s (packedItem k w0 w1 s) := by
  intro t h
  obtain ⟨-, run, hp, -, rfl⟩ := packedItem_next h
  exact sameRing_continueParse hp ((sameRing_raiseIf _ _ _ s).trans (sameRing_setPath _ _ _))

theorem quietResult_reglistItem (k : Option Sfl) (u : W64) (s : State) : QuietResult s (reglistItem k u s) := by
  intro t h
  obtain ⟨-, run, hp, -, rfl⟩ := reglistItem_next h
  exact sameRing_continueParse hp ((sameRing_raiseIf _ _ _ s).trans (sameRing_setPath _ _ _))

theorem quietResult_imageItem (s : State) : QuietResult s (imageItem s) := by
  intro t h
  obtain ⟨-, run, hp, -, rfl⟩ := imageItem_next h
  exact sameRing_continueParse hp (sameRing_setPath _ _ s)

theorem quietResult_decodeTag (w : Word) (s : State) : QuietResult s (exec (decodeTag w) s) := by
  unfold decodeTag
  split <;> exact quietResult_tagItem _ _ s

theorem quietResult_decodePacked (sel : Byte) (u : PackedUnit) (s : State) :
    QuietResult s (exec (decodePacked sel u) s) := by
  unfold decodePacked
  split
  · split <;> exact quietResult_packedItem _ _ _ s
  · exact quietResult_packedItem _ _ _ s

theorem quietResult_decodeReglist (rl : Option (Fin 14)) (sel : Byte) (u : ReglistUnit) (s : State) :
    QuietResult s (exec (decodeReglist rl sel u) s) := by
  unfold decodeReglist
  split <;> exact quietResult_reglistItem _ _ s

/-- The parser's next word, whatever it decodes to. -/
theorem quietResult_gifCode (rl : Option (Fin 14)) (g : GifPath) (h : Half) (w : Word) (s : State) :
    QuietResult s (exec (decode rl (gifCode g h w)) s) := by
  unfold gifCode
  split
  · exact quietResult_decodeTag w s
  · split
    · exact quietResult_decodePacked _ _ s
    · exact quietResult_decodeReglist rl _ _ s
    · exact quietResult_imageItem s
    · exact quietResult_imageItem s

theorem quietResult_parserFetch {run : ParseRun} {i : Instr} {s : State} (h : parserFetch run s = some i) :
    QuietResult s (exec i s) := by
  unfold parserFetch at h
  split at h
  · cases h
  · cases h
    exact quietResult_gifCode _ _ _ _ s

/-! #### The acceptance of an operation -/

theorem quietResult_hostOp {s : State} (op : BitVec 4) {accept : Result} (hi : s.pphase = .idle)
    (h : apiCheck op s = true → QuietResult s accept) : QuietResult s (hostOp op s accept) := by
  intro t ht
  obtain ⟨-, ⟨-, hc, ha⟩ | ⟨-, -, hr⟩ | ⟨hbusy, -⟩⟩ := hostOp_next ht
  · exact h hc t ha
  · exact sameRing_raise hr
  · exact absurd hi hbusy

/-- An idle P that goes to a place before any marker. -/
theorem quietResult_enter {s : State} {p : PPhase} (hi : s.pphase = .idle) (h : p.markerPublished = false) :
    QuietResult s (.next (toPPhase p s)) :=
  quietResult_next (sameRing_toPPhase (by rw [hi]; exact h))

theorem quietResult_sendSimple {s : State} (hi : s.pphase = .idle) (op : BitVec 4) (command d0 d1 d2 : W32) :
    QuietResult s (sendSimple op command d0 d1 d2 s) := by
  have hzero : SameRing s (zeroPathsFor command d0 s) := by
    unfold zeroPathsFor
    split
    · exact ⟨rfl, rfl, rfl, rfl, rfl⟩
    · split <;> exact ⟨rfl, rfl, rfl, rfl, rfl⟩
  unfold sendSimple
  split
  · exact quietResult_raise _ _ _ _
  · exact quietResult_next (hzero.trans (sameRing_toPPhase (by rw [hzero.marker, hi]; rfl)))

/-- In an open session no acceptance touches the ring or a cursor: OPEN, which would, is refused. -/
theorem quietResult_decodeRequest {s : State} (hi : s.pphase = .idle) (ho : s.session = .opened) (r : HostRequest) :
    QuietResult s (exec (decodeRequest r) s) := by
  have hm : s.pphase.markerPublished = false := by rw [hi]; rfl
  unfold decodeRequest
  split
  case h_1 => exact quietResult_hostOp 0 hi fun hc => by simp [apiCheck, ho] at hc
  case h_2 => exact quietResult_hostOp 1 hi fun _ => quietResult_enter hi rfl
  case h_3 => exact quietResult_hostOp 2 hi fun _ => quietResult_sendSimple hi _ _ _ _ _
  case h_4 =>
    refine quietResult_hostOp 3 hi fun _ => ?_
    split
    · exact quietResult_raise _ _ _ _
    · rw [startParse_eq]
      exact quietResult_enter hi (by split <;> rfl)
  case h_5 =>
    refine quietResult_hostOp 4 hi fun _ => ?_
    split
    · exact quietResult_raise _ _ _ _
    · exact quietResult_enter hi rfl
  case h_6 => exact quietResult_hostOp 5 hi fun _ => quietResult_sendSimple hi _ _ _ _ _
  case h_7 => exact quietResult_hostOp 6 hi fun _ => quietResult_sendSimple hi _ _ _ _ _
  case h_8 => exact quietResult_hostOp 7 hi fun _ => quietResult_enter hi rfl
  case h_9 => exact quietResult_hostOp 8 hi fun _ => quietResult_enter hi rfl
  case h_10 =>
    refine quietResult_hostOp 9 hi fun _ => ?_
    split
    · exact quietResult_enter hi rfl
    · exact quietResult_next (sameRing_retire _ hm)
  case h_11 =>
    refine quietResult_hostOp 10 hi fun _ => ?_
    split
    · exact quietResult_enter hi rfl
    · exact quietResult_next ⟨rfl, rfl, rfl, rfl, hm.symm⟩
  all_goals exact quietResult_hostOp _ hi fun _ => quietResult_raise _ _ _ _

/-! #### P's steps in an operation -/

/-- The guard of `reserve` keeps the reserved slots out of the live region (R132, R134). -/
theorem place_free {n w r size : Nat} (h : reserveCase n w r size = .place) : r ≤ w ∨ w + size ≤ r := by
  unfold reserveCase at h
  split at h
  · cases h
  · split at h
    · split at h <;> cases h
    · split at h
      · split at h
        · rename_i hfit
          simp only [fitGuard, Bool.or_eq_true, decide_eq_true_eq] at hfit
          omega
        · cases h
      · split at h
        · rename_i hwrap
          simp only [wrapGuard, Bool.or_eq_true, Bool.and_eq_true, decide_eq_true_eq] at hwrap
          omega
        · cases h

theorem reserveStep_move {pkt : Packet} {s t : State} (hp : s.pphase = .reserve pkt) (h : reserveStep pkt s = .next t) :
    ProducerMove s t := by
  have hm : s.pphase.markerPublished = false := by rw [hp]; rfl
  obtain ⟨-, hraise⟩ | ⟨-, rfl⟩ | ⟨hplace, rfl⟩ | ⟨-, rfl⟩ := reserveStep_next h
  · exact .quiet (sameRing_raise hraise)
  · exact .quiet ⟨rfl, rfl, rfl, rfl, rfl⟩
  · exact .write (dataHeader pkt.path pkt.payload.length :: pkt.payload) (place_free hplace) hm
      ⟨rfl, rfl, rfl, rfl, hm.symm⟩
  · exact .quiet (sameRing_toPPhase hm.symm)

theorem slotStep_move {header : Word} {after : AfterCommit} {s t : State} (hp : s.pphase = .slot header after)
    (h : slotStep header after s = .next t) : ProducerMove s t := by
  have hm : s.pphase.markerPublished = false := by rw [hp]; rfl
  obtain ⟨-, hraise⟩ | ⟨-, -, rfl⟩ | ⟨-, -, rfl⟩ := slotStep_next h
  · exact .quiet (sameRing_raise hraise)
  · exact .write [header] (le_or_gt _ _) hm ⟨rfl, rfl, rfl, rfl, hm.symm⟩
  · exact .quiet ⟨rfl, rfl, rfl, rfl, rfl⟩

theorem sameRing_afterCommit {size : Nat} {after : AfterCommit} {s : State} (hp : s.pphase = .wakeDecision size after) :
    SameRing s (afterCommit after (wakeDecide size s)) := by
  refine (sameRing_wakeDecide size s).trans ?_
  have hm : (wakeDecide size s).pphase.markerPublished = after.isRestart := by rw [wakeDecide_pphase, hp]; rfl
  cases after with
  | retire => exact sameRing_retire _ hm
  | sendData => exact sameRing_retire _ hm
  | close => exact sameRing_toPPhase hm.symm
  | restart pkt => exact sameRing_toPPhase hm.symm

theorem sameRing_afterDrain {after : AfterDrain} {s : State} (hp : s.pphase = .drain after) :
    SameRing s (afterDrain after s) := by
  have hm : s.pphase.markerPublished = false := by rw [hp]; rfl
  cases after <;> exact ⟨rfl, rfl, rfl, rfl, hm.symm⟩

/-- A step of P in the operation it runs, outside the parser. -/
theorem producerContinue_move {s t : State} (hs : s.pSignal = false) (hparse : ∀ run, s.pphase ≠ .parsing run)
    (h : producerContinue s = .next t) : ProducerMove s t := by
  rw [producerContinue, hs, if_neg Bool.false_ne_true] at h
  cases hp : s.pphase <;> rw [hp] at h
  case idle => cases h; exact .quiet (.refl s)
  case parsing run => exact absurd hp (hparse run)
  case reserve => exact reserveStep_move hp h
  case lockAcquire =>
    dsimp only [lockAcquireStep] at h
    split at h <;> cases h
    · exact .quiet ⟨rfl, rfl, rfl, rfl, by rw [hp]; rfl⟩
    · exact .quiet (.refl s)
  case marker =>
    cases h
    have hm : s.pphase.markerPublished = false := by rw [hp]; rfl
    exact .write [restartHeader] (le_or_gt _ _) hm ⟨rfl, rfl, rfl, rfl, hm.symm⟩
  case originStore pkt => cases h; exact .origin pkt hp ⟨rfl, rfl, rfl, rfl, rfl⟩
  case lockRelease => cases h; exact .quiet ⟨rfl, rfl, rfl, rfl, by rw [hp]; rfl⟩
  case slot => exact slotStep_move hp h
  case publish offset size after => cases h; exact .publish offset size after hp ⟨rfl, rfl, rfl, rfl, rfl⟩
  case wakeDecision => cases h; exact .quiet (sameRing_afterCommit hp)
  case vsyncWait =>
    dsimp only [vsyncWaitStep] at h
    split at h <;> cases h
    · exact .quiet (sameRing_toPPhase (by rw [hp]; rfl))
    · exact .quiet ⟨rfl, rfl, rfl, rfl, rfl⟩
  case vsyncCount => cases h; exact .quiet ⟨rfl, rfl, rfl, rfl, by rw [hp]; rfl⟩
  case closeSignal => cases h; exact .quiet ⟨rfl, rfl, rfl, rfl, by rw [hp]; rfl⟩
  case closeWait =>
    dsimp only [closeWaitStep] at h
    split at h <;> cases h
    · exact .quiet ⟨rfl, rfl, rfl, rfl, by rw [hp]; rfl⟩
    · exact .quiet ⟨rfl, rfl, rfl, rfl, rfl⟩
  case drain =>
    dsimp only [drainStep] at h
    split at h <;> cases h
    · exact .quiet (sameRing_afterDrain hp)
    · exact .quiet ⟨rfl, rfl, rfl, rfl, rfl⟩

/-- A step of P in an open session. -/
theorem stepP_move {s t : State} (ho : s.session = .opened) (h : stepP s = .next t) : ProducerMove s t := by
  unfold stepP at h
  cases hs : s.pSignal with
  | true =>
    rw [if_pos hs, producerContinue_signal hs] at h
    cases h
    exact .quiet ⟨rfl, rfl, rfl, rfl, rfl⟩
  | false =>
    rw [if_neg (by simp [hs])] at h
    split at h
    case h_1 hi =>
      split at h
      · cases h
        exact .quiet (.refl s)
      · exact .quiet (quietResult_decodeRequest hi ho _ t h)
    case h_2 run hp =>
      split at h
      · exact .quiet (quietResult_parserFetch ‹_› t h)
      · cases h
        exact .quiet (sameRing_endParse hp (.refl s))
    case h_3 hparse => exact producerContinue_move hs hparse h

/-! ### C's steps -/

/-- Everything a step of C can do to the ring, the cursors and the end of the live region: nothing, an advance, or the
return to slot 0 at a RESTART marker (43_consumer.md R246, R248). -/
inductive ConsumerMove (s t : State) : Prop where
  | quiet (same : SameRing s t)
  | advance (k : Nat)
      (draining : s.cstate = .draining)
      (phase : s.cphase = .advance k)
      (same : SameRing (Machine.advance k s) t)
  | restart
      (draining : s.cstate = .draining)
      (phase : s.cphase = .restartStore)
      (same : SameRing { s with readPos := 0 } t)

theorem quietResult_ringCommand {s : State} {body : Result} (hd : s.cphase = .dispatch) (h : QuietResult s body) :
    QuietResult s (ringCommand s body) := by
  intro t ht
  obtain ⟨-, -, ⟨-, hb⟩ | ⟨hne, -⟩⟩ := ringCommand_next ht
  · exact h t hb
  · exact absurd hd hne

theorem quietResult_transfer (p : PathId) (size : W32) (s : State) : QuietResult s (transfer p size s) := by
  intro t ht
  obtain ⟨-, _, -, rfl⟩ | ⟨-, hr⟩ := transfer_next ht
  · exact ⟨rfl, rfl, rfl, rfl, rfl⟩
  · exact sameRing_raise hr

theorem quietResult_memoryWrite (off : W32) (n : Nat) (v : W64) (s : State) :
    QuietResult s (memoryWrite off n v s) := by
  intro t ht
  obtain ⟨-, -, rfl⟩ | ⟨-, hr⟩ := memoryWrite_next ht
  · exact ⟨rfl, rfl, rfl, rfl, rfl⟩
  · exact sameRing_raise hr

/-- No dispatch touches the ring or a cursor, whatever the header. -/
theorem quietResult_decodeHeader {s : State} (hd : s.cphase = .dispatch) (w : Word) :
    QuietResult s (exec (decodeHeader w) s) := by
  unfold decodeHeader
  dsimp only
  split
  case h_1 | h_2 | h_3 => exact quietResult_ringCommand hd (quietResult_transfer _ _ s)
  case h_8 | h_9 | h_10 | h_11 => exact quietResult_ringCommand hd (quietResult_memoryWrite _ _ _ s)
  case h_15 =>
    refine quietResult_ringCommand hd ?_
    split
    · exact quietResult_next ⟨rfl, rfl, rfl, rfl, rfl⟩
    · exact quietResult_next (.refl s)
  case h_17 =>
    refine quietResult_ringCommand hd ?_
    split
    · exact quietResult_raise _ _ _ _
    · exact quietResult_next ⟨rfl, rfl, rfl, rfl, rfl⟩
  all_goals exact quietResult_ringCommand hd (quietResult_next ⟨rfl, rfl, rfl, rfl, rfl⟩)

theorem consumerContinue_move {s t : State} (hc : s.cstate = .draining) (h : consumerContinue s = .next t) :
    ConsumerMove s t := by
  obtain ⟨k, hp, rfl⟩ | ⟨-, rfl⟩ | ⟨-, rfl⟩ | ⟨-, rfl⟩ | ⟨hp, rfl⟩ | ⟨-, rfl⟩ | ⟨-, rfl⟩ := consumerContinue_next h
  · exact .advance k hc hp ⟨rfl, rfl, rfl, rfl, rfl⟩
  · exact .quiet ⟨rfl, rfl, rfl, rfl, rfl⟩
  · exact .quiet ⟨rfl, rfl, rfl, rfl, rfl⟩
  · exact .quiet ⟨rfl, rfl, rfl, rfl, rfl⟩
  · exact .restart hc hp ⟨rfl, rfl, rfl, rfl, rfl⟩
  · exact .quiet ⟨rfl, rfl, rfl, rfl, rfl⟩
  · exact .quiet ⟨rfl, rfl, rfl, rfl, rfl⟩

/-- A step of C. -/
theorem stepC_move {s t : State} (h : stepC s = .next t) : ConsumerMove s t := by
  unfold stepC at h
  cases hc : s.cstate <;> rw [hc] at h
  case off => cases h; exact .quiet (.refl s)
  case halted => cases h; exact .quiet (.refl s)
  case waiting =>
    dsimp only [consumerWait] at h
    split at h <;> cases h
    · exact .quiet ⟨rfl, rfl, rfl, rfl, rfl⟩
    · exact .quiet (.refl s)
  case draining =>
    dsimp only at h
    split at h
    case h_1 =>
      unfold consumerTest at h
      split at h <;> cases h <;> exact .quiet ⟨rfl, rfl, rfl, rfl, rfl⟩
    case h_2 => cases h; exact .quiet ⟨rfl, rfl, rfl, rfl, rfl⟩
    case h_3 hd =>
      split at h
      · rename_i hfetch
        obtain ⟨w, -, rfl⟩ := Option.map_eq_some_iff.mp hfetch
        exact .quiet (quietResult_decodeHeader hd w t h)
      · cases h
    case h_4 =>
      split at h
      · cases h
        exact .quiet (.refl s)
      · exact consumerContinue_move hc h

end Sys2Proof.Machine
end

section
/-! The live-region invariant at the two moves of the queue: what a publish meets at `write_pos`, what an advance meets
at `read_pos`, and the two statements of 10_state.md R38 and R40 that follow. -/

namespace Sys2Proof.Machine

/-! ### What the invariant says -/

theorem State.LiveInv.cursors {s : State} (h : s.LiveInv) : s.readPos < s.capacity ∧ s.writePos < s.capacity := by
  obtain ⟨⟨-, hr, hw, -⟩, -⟩ := h
  exact ⟨hr, hw⟩

theorem State.LiveInv.promises {s : State} (h : s.LiveInv) :
    s.producerPromise ∧ ∃ hs, s.liveHeaders = some hs ∧ (s.cstate = .draining → s.consumerPromise hs) := by
  obtain ⟨-, -, -, hlive⟩ := h
  split at hlive
  · exact hlive.elim
  · rename_i hs hh
    obtain ⟨hp, hc, -⟩ := hlive
    exact ⟨hp, hs, hh, hc⟩

theorem liveEnd_lt {s : State} (hw : s.writePos < s.capacity) : s.liveEnd < s.capacity := by
  unfold State.liveEnd
  split
  · exact Nat.zero_lt_of_lt hw
  · exact hw

theorem liveEnd_of_not_marker {s : State} (h : s.pphase.markerPublished = false) : s.liveEnd = s.writePos := by
  simp [State.liveEnd, h]

theorem liveEnd_of_marker {s : State} (h : s.pphase.markerPublished = true) : s.liveEnd = 0 := by
  simp [State.liveEnd, h]

theorem liveEnd_wakeDecision (size : Nat) (after : AfterCommit) (s : State) :
    (toPPhase (.wakeDecision size after) s).liveEnd = if after.isRestart then 0 else s.writePos := rfl

/-- The live headers of a state whose cursors are slot indices. -/
theorem liveHeaders_iff {s : State} {hs : List Word} (hr : s.readPos < s.capacity) (hw : s.writePos < s.capacity) :
    s.liveHeaders = some hs ↔ Queued s.ring s.capacity s.readPos s.liveEnd hs :=
  liveHeaders_eq_some hr.le (liveEnd_lt hw).le

/-- The live headers of a state that has the ring and the cursors of `s`. -/
theorem SameRing.liveHeaders_of_queued {s t : State} {hs : List Word} (same : SameRing s t)
    (hr : s.readPos < s.capacity) (hw : s.writePos < s.capacity)
    (hq : Queued s.ring s.capacity s.readPos s.liveEnd hs) : t.liveHeaders = some hs :=
  same.liveHeaders.trans ((liveHeaders_iff hr hw).mpr hq)

theorem reschedule_liveHeaders (s : State) : (reschedule s).liveHeaders = s.liveHeaders := rfl

/-! ### The packet about to be published -/

theorem producerPromise_publish {s : State} {offset size : Nat} {after : AfterCommit} (h : s.producerPromise)
    (hp : s.pphase = .publish offset size after) :
    s.readyToPublish offset size ∧
      (after.isRestart = false ∧ s.pendingHeader offset (fun h => !isRestart h) ∨
        after.isRestart = true ∧ s.wrapGuardHolds ∧ s.pendingHeader offset isRestart) := by
  unfold State.producerPromise at h
  rw [hp] at h
  obtain ⟨hready, hafter⟩ := h
  refine ⟨hready, ?_⟩
  cases after with
  | retire => exact .inl ⟨rfl, hafter.2⟩
  | close => exact .inl ⟨rfl, hafter.2⟩
  | restart pkt => exact .inr ⟨rfl, hafter⟩
  | sendData =>
    refine .inl ⟨rfl, ?_⟩
    have hdata : s.pendingHeader offset isData := hafter.2
    cases hread : Memory.read s.ring offset with
    | none => simp [State.pendingHeader, hread]
    | some p =>
      have hp : isData p = true := by simpa [State.pendingHeader, hread] using hdata
      simp [State.pendingHeader, hread, isRestart_of_isData hp]

theorem producerPromise_originStore {s : State} {pkt : Packet} (h : s.producerPromise)
    (hp : s.pphase = .originStore pkt) : 0 < s.readPos := by
  unfold State.producerPromise at h
  rw [hp] at h
  obtain ⟨-, hpos, -⟩ := h
  exact hpos

/-- A packet that is ready to publish stands written at its offset. -/
theorem packetAt_of_ready {s : State} {offset size : Nat} (h : s.readyToPublish offset size) :
    ∃ p, PacketAt s.ring offset p ∧ packetLength p = size := by
  obtain ⟨-, hpos, -, -, hspan, hlen, -⟩ := h
  obtain ⟨k, rfl⟩ : ∃ k, size = k + 1 := ⟨size - 1, by omega⟩
  cases hread : Memory.read s.ring offset with
  | none => simp [Memory.readSpan, hread] at hspan
  | some p =>
    have hp : packetLength p = k + 1 := by simpa [hread] using hlen
    exact ⟨p, ⟨hread, by simpa [Memory.readSpan, hread, hp] using hspan⟩, hp⟩

theorem pendingHeader_of_packetAt {s : State} {offset : Nat} {p : Word} {f : Word → Bool}
    (hp : PacketAt s.ring offset p) (h : s.pendingHeader offset f) : f p = true := by
  obtain ⟨hread, -⟩ := hp
  simpa [State.pendingHeader, hread] using h

/-- The publish of a ready packet does not bring `write_pos` to `read_pos` (40_ring.md R143). -/
theorem wrap_ne_of_ready {s : State} {offset size : Nat} (h : s.readyToPublish offset size)
    (hr : s.readPos < s.capacity) : s.readPos ≠ s.wrap (offset + size) := by
  obtain ⟨-, hpos, -, hfit, -, -, hguard⟩ := h
  unfold State.wrap
  rcases Nat.lt_or_eq_of_le hfit with hlt | htop
  · rw [Nat.mod_eq_of_lt hlt]
    split at hguard <;> omega
  · rw [htop, Nat.mod_self]
    split at hguard <;> omega

/-! ### P never overtakes (R38) -/

/-- A step of P keeps the cursors apart, and after a publish they are apart. -/
theorem stepP_cursors_ne {s t : State} (h : s.LiveInv) (ho : s.session = .opened) (hstep : stepP s = .next t) :
    (s.readPos ≠ s.writePos → t.readPos ≠ t.writePos) ∧
      (∀ offset size after, s.pSignal = false → s.pphase = .publish offset size after → t.readPos ≠ t.writePos) := by
  obtain ⟨hr, -⟩ := h.cursors
  obtain ⟨hprom, -⟩ := h.promises
  refine ⟨fun hne => ?_, fun offset size after hs hp => ?_⟩
  · cases stepP_move ho hstep with
    | quiet same => rwa [same.readPos, same.writePos]
    | write ws _ _ same => rwa [same.readPos, same.writePos]
    | publish offset size after hp same =>
      rw [same.readPos, same.writePos]
      exact wrap_ne_of_ready (s := s) (producerPromise_publish hprom hp).1 hr
    | origin pkt hp same =>
      rw [same.readPos, same.writePos]
      exact (producerPromise_originStore hprom hp).ne'
  · have hpub : publishStep offset size after s = .next t := by
      simpa [stepP, producerContinue, hs, hp] using hstep
    cases hpub
    exact wrap_ne_of_ready (s := s) (producerPromise_publish hprom hp).1 hr

/-! ### First in, first out (R40) -/

/-- Slots written at `write_pos` outside the live region leave the queue as it is. -/
theorem queued_writeSpan {s : State} {hs : List Word} {ws : List Word} (hm : s.pphase.markerPublished = false)
    (hfree : s.readPos ≤ s.writePos ∨ s.writePos + ws.length ≤ s.readPos)
    (hq : Queued s.ring s.capacity s.readPos s.liveEnd hs) :
    Queued (Memory.writeSpan s.ring s.writePos ws) s.capacity s.readPos s.liveEnd hs := by
  refine hq.congr fun i hi _ => Memory.read_writeSpan_outside _ _ _ _ ?_
  rw [liveEnd_of_not_marker hm, inRegion] at hi
  split at hi <;> omega

/-- A publish adds the packet at `write_pos` at the end of the queue. -/
theorem liveHeaders_publish {s t : State} {hs : List Word} {offset size : Nat} {after : AfterCommit} (h : s.LiveInv)
    (hh : s.liveHeaders = some hs) (hp : s.pphase = .publish offset size after)
    (same : SameRing (toPPhase (.wakeDecision size after) (storeWritePos (s.wrap (offset + size)) s)) t) :
    ∃ p, Memory.read s.ring s.writePos = some p ∧ t.liveHeaders = some (hs ++ [p]) := by
  obtain ⟨hr, hw⟩ := h.cursors
  obtain ⟨hprom, -⟩ := h.promises
  obtain ⟨hready, hkind⟩ := producerPromise_publish hprom hp
  obtain ⟨p, hpkt, rfl⟩ := packetAt_of_ready hready
  obtain ⟨rfl, -, -, hfit, -, -, hguard⟩ := hready
  have hq := (liveHeaders_iff hr hw).mp hh
  rw [liveEnd_of_not_marker (by rw [hp]; rfl)] at hq
  refine ⟨p, hpkt.1, ?_⟩
  refine same.liveHeaders_of_queued hr (Nat.mod_lt _ (Nat.zero_lt_of_lt hw)) ?_
  obtain ⟨hafter, hnot⟩ | ⟨hafter, ⟨-, hpos, hle⟩, hmarker⟩ := hkind
  · rw [liveEnd_wakeDecision, if_neg (by simp [hafter])]
    have hplain : isRestart p = false := by simpa using pendingHeader_of_packetAt hpkt hnot
    exact hq.publish hpkt hplain hfit hguard hr
  · rw [liveEnd_wakeDecision, if_pos hafter]
    exact hq.publish_restart hpkt (pendingHeader_of_packetAt hpkt hmarker) hpos hle hw

/-- A step of P leaves the queue alone or adds the packet at `write_pos` at its end. -/
theorem stepP_enqueues {s t : State} {hs : List Word} (h : s.LiveInv) (ho : s.session = .opened)
    (hh : s.liveHeaders = some hs) (hstep : stepP s = .next t) :
    t.liveHeaders = some hs ∨
      ∃ p, Memory.read s.ring s.writePos = some p ∧ t.liveHeaders = some (hs ++ [p]) := by
  obtain ⟨hr, hw⟩ := h.cursors
  have hq := (liveHeaders_iff hr hw).mp hh
  cases stepP_move ho hstep with
  | quiet same => exact .inl (same.liveHeaders.trans hh)
  | write ws free marker same =>
    exact .inl (same.liveHeaders_of_queued hr hw (queued_writeSpan marker free hq))
  | publish offset size after hp same => exact .inr (liveHeaders_publish h hh hp same)
  | origin pkt hp same =>
    rw [liveEnd_of_marker (by rw [hp]; rfl)] at hq
    exact .inl (same.liveHeaders_of_queued hr (Nat.zero_lt_of_lt hw) hq)

theorem consumerPromise_advance {s : State} {hs : List Word} {k : Nat} (h : s.consumerPromise hs)
    (hp : s.cphase = .advance k) : ∃ p rest, hs = p :: rest ∧ packetLength p = k ∧ isRestart p = false := by
  unfold State.consumerPromise at h
  rw [hp] at h
  cases hs with
  | nil => cases h
  | cons p rest => exact ⟨p, rest, rfl, by simpa using h⟩

theorem consumerPromise_restartStore {s : State} {hs : List Word} (h : s.consumerPromise hs)
    (hp : s.cphase = .restartStore) : ∃ p rest, hs = p :: rest ∧ isRestart p = true := by
  unfold State.consumerPromise at h
  rw [hp] at h
  cases hs with
  | nil => cases h
  | cons p rest => exact ⟨p, rest, rfl, by simpa using h⟩

theorem consumerPromise_dispatch {s : State} {hs : List Word} (h : s.consumerPromise hs)
    (hp : s.cphase = .dispatch) : ∃ p rest, hs = p :: rest := by
  unfold State.consumerPromise at h
  rw [hp] at h
  exact List.exists_cons_of_ne_nil h

/-- A step of C leaves the queue alone or takes its first packet. -/
theorem stepC_dequeues {s t : State} {hs : List Word} (h : s.LiveInv) (hh : s.liveHeaders = some hs)
    (hc : s.cstate = .draining → s.consumerPromise hs) (hstep : stepC s = .next t) :
    t.liveHeaders = some hs ∨ ∃ p rest, hs = p :: rest ∧ t.liveHeaders = some rest := by
  obtain ⟨hr, hw⟩ := h.cursors
  have hq := (liveHeaders_iff hr hw).mp hh
  have hcap := Nat.zero_lt_of_lt hw
  cases stepC_move hstep with
  | quiet same => exact .inl (same.liveHeaders.trans hh)
  | advance k draining phase same =>
    obtain ⟨p, rest, rfl, rfl, hplain⟩ := consumerPromise_advance (hc draining) phase
    exact .inr ⟨p, rest, rfl, same.liveHeaders_of_queued (Nat.mod_lt _ hcap) hw (hq.advance hr (liveEnd_lt hw) hplain)⟩
  | restart draining phase same =>
    obtain ⟨p, rest, rfl, hmarker⟩ := consumerPromise_restartStore (hc draining) phase
    exact .inr ⟨p, rest, rfl, same.liveHeaders_of_queued hcap hw (hq.restart hr hmarker)⟩

/-- The packet that C dispatches is the first of the queue (R40, R247). -/
theorem consumerFetch_of_liveHeaders {s : State} {p : Word} {rest : List Word} (h : s.LiveInv)
    (hh : s.liveHeaders = some (p :: rest)) : consumerFetch s = some (decodeHeader p) := by
  obtain ⟨hr, hw⟩ := h.cursors
  obtain ⟨hread, -⟩ := ((liveHeaders_iff hr hw).mp hh).packetAt hr
  rw [consumerFetch, hread]
  rfl

/-! ### The statements -/

/-- Settles O57: P publishes only what the guards of `reserve` have let through, and stores 0 only while C is above
it. -/
theorem producerNeverOvertakes : Obligations.ProducerNeverOvertakes := by
  intro s t hinv ho hturn hstep
  obtain ⟨-, u, hagent, rfl⟩ := step_next.mp hstep
  rw [agentStep, hturn] at hagent
  simpa only [reschedule_readPos, reschedule_writePos] using stepP_cursors_ne hinv ho hagent

/-- Settles O58, by the agent that moves: P's step adds at the end, C's takes from the front. -/
theorem firstInFirstOut : Obligations.FirstInFirstOut := by
  intro s t hinv ho hstep
  obtain ⟨-, u, hagent, rfl⟩ := step_next.mp hstep
  obtain ⟨-, hs, hh, hc⟩ := hinv.promises
  have hfetch : s.cstate = .draining → s.cphase = .dispatch →
      ∃ h rest, hs = h :: rest ∧ consumerFetch s = some (decodeHeader h) := fun hd hp => by
    obtain ⟨p, rest, rfl⟩ := consumerPromise_dispatch (hc hd) hp
    exact ⟨p, rest, rfl, consumerFetch_of_liveHeaders hinv hh⟩
  have hlive := reschedule_liveHeaders u
  rw [agentStep] at hagent
  cases hturn : s.turn with
  | p =>
    rw [hturn] at hagent
    obtain hsame | ⟨p, hread, hadd⟩ := stepP_enqueues hinv ho hh hagent
    · exact ⟨hs, hs, hh, hlive.trans hsame, fun _ => .inl rfl, nofun, hfetch⟩
    · exact ⟨hs, hs ++ [p], hh, hlive.trans hadd, fun _ => .inr ⟨p, hread, rfl⟩, nofun, hfetch⟩
  | c =>
    rw [hturn] at hagent
    obtain hsame | ⟨p, rest, rfl, htail⟩ := stepC_dequeues hinv hh hc hagent
    · exact ⟨hs, hs, hh, hlive.trans hsame, nofun, fun _ => .inl rfl, hfetch⟩
    · exact ⟨p :: rest, rest, hh, hlive.trans htail, nofun, fun _ => .inr ⟨p, rfl⟩, hfetch⟩

end Sys2Proof.Machine
end

section
/-! The live region against P's writes (20_memory.md R79): what P writes in a step lies outside the slots C may read. -/

namespace Sys2Proof.Machine

/-- A write at `write_pos` that does not run into `read_pos` from below leaves every live slot as it is: before the marker
is published the live region ends at `write_pos`. -/
theorem read_ringWriteSpan_live {s : State} {ws : List Word} {i : Nat} (hm : s.pphase.markerPublished = false)
    (hfree : s.readPos ≤ s.writePos ∨ s.writePos + ws.length ≤ s.readPos) (hi : inRegion s.readPos s.liveEnd i) :
    Memory.read (ringWriteSpan s.writePos ws s).ring i = Memory.read s.ring i := by
  refine Memory.read_writeSpan_outside _ _ _ _ ?_
  rw [liveEnd_of_not_marker hm, inRegion] at hi
  split at hi <;> omega

/-- A step of P in an open session leaves every live slot as it is. -/
theorem stepP_read_live {s t : State} {i : Nat} (ho : s.session = .opened) (hstep : stepP s = .next t)
    (hi : inRegion s.readPos s.liveEnd i) : Memory.read t.ring i = Memory.read s.ring i := by
  cases stepP_move ho hstep with
  | quiet same => rw [same.ring]
  | write ws free marker same => rw [same.ring, read_ringWriteSpan_live marker free hi]
  | publish offset size after hp same => exact congrArg (Memory.read · i) same.ring
  | origin pkt hp same => exact congrArg (Memory.read · i) same.ring

/-- Settles O59, by the moves of P: only a write at `write_pos` changes the ring. A packet is written in the step that
evaluates the guard of `reserve`, and one slot alone never reaches `read_pos`, so the step itself keeps off the live
slots and the invariant of the state before is not needed. -/
theorem dataRaceFreedom : Obligations.DataRaceFreedom := by
  intro s t i _ ho hturn hstep hchanged hlive
  obtain ⟨-, u, hagent, rfl⟩ := step_next.mp hstep
  rw [agentStep, hturn] at hagent
  apply hchanged
  rw [reschedule_ring]
  exact stepP_read_live ho hagent hlive

end Sys2Proof.Machine
end

section
/-! The decoder of ring headers, an equation per command id, grouped by the use of the auxiliary words
(30_encoding.md R93, R95, R97). -/

namespace Sys2Proof

variable {w : Word}

/-- The commands that use no auxiliary word. -/
theorem decodeHeader_no_operand :
    (headerCommand w = 5 → decodeHeader w = .reset) ∧ (headerCommand w = 13 → decodeHeader w = .record) ∧
    (headerCommand w = 14 → decodeHeader w = .restart) ∧ (headerCommand w = 15 → decodeHeader w = .quit) := by
  refine ⟨?reset, ?record, ?restart, ?quit⟩ <;> intro h <;> simp [decodeHeader, h]

/-- The commands whose one operand is `data[0]`: the transfers of the three paths, VSYNC, SOFTRESET and WRITECSR. -/
theorem decodeHeader_data0 :
    (headerCommand w = 0 → decodeHeader w = .p1 (headerData 0 w)) ∧
    (headerCommand w = 1 → decodeHeader w = .p2 (headerData 0 w)) ∧
    (headerCommand w = 2 → decodeHeader w = .p3 (headerData 0 w)) ∧
    (headerCommand w = 3 → decodeHeader w = .vsync (headerData 0 w)) ∧
    (headerCommand w = 4 → decodeHeader w = .softreset (headerData 0 w)) ∧
    (headerCommand w = 6 → decodeHeader w = .writecsr (headerData 0 w)) := by
  refine ⟨?p1, ?p2, ?p3, ?vsync, ?softreset, ?writecsr⟩ <;> intro h <;> simp [decodeHeader, h]

/-- The memory writes: the offset in `data[0]`, and as much of `data[2] ++ data[1]` as the width takes. -/
theorem decodeHeader_memwrite :
    (headerCommand w = 7 →
      decodeHeader w = .memwrite8 (headerData 0 w) ((headerData 1 w).extractLsb' 0 8)) ∧
    (headerCommand w = 8 →
      decodeHeader w = .memwrite16 (headerData 0 w) ((headerData 1 w).extractLsb' 0 16)) ∧
    (headerCommand w = 9 → decodeHeader w = .memwrite32 (headerData 0 w) (headerData 1 w)) ∧
    (headerCommand w = 10 →
      decodeHeader w = .memwrite64 (headerData 0 w) (headerData 2 w ++ headerData 1 w)) := by
  refine ⟨fun h => ?w8, fun h => ?w16, fun h => ?w32, fun h => ?w64⟩
  case w8 => simp [decodeHeader, h, memWriteValue_w8]
  case w16 => simp [decodeHeader, h, memWriteValue_w16]
  case w32 => simp [decodeHeader, h, memWriteValue_w32]
  case w64 => simp [decodeHeader, h, memWriteValue_w64]

theorem decodeHeader_modechange (h : headerCommand w = 11) :
    decodeHeader w = .modechange (headerData 0 w) (headerData 1 w) := by simp [decodeHeader, h]

/-- FREEZE carries a pointer, the low half in `data[1]` (R96). -/
theorem decodeHeader_freeze (h : headerCommand w = 12) :
    decodeHeader w = .freeze (headerData 0 w) (headerData 2 w ++ headerData 1 w) := by
  simp [decodeHeader, h, pair64_eq_append]

/-- No id from 16 on selects a command: the comparison is of all 32 bits. -/
theorem decodeHeader_unrecognised (h : 16 ≤ (headerCommand w).toNat) :
    decodeHeader w = .unrecognised (headerCommand w) := by
  unfold decodeHeader
  dsimp only
  split
  case h_17 => rfl
  all_goals omega

/-- Settles O4: the clauses are the decoder's equations in the order of the ids, the words of the statement being
`headerCommand` and `headerData` written out. -/
theorem headerSelectsCommand : Obligations.HeaderSelectsCommand := by
  intro w
  obtain ⟨reset, record, restart, quit⟩ := decodeHeader_no_operand (w := w)
  obtain ⟨p1, p2, p3, vsync, softreset, writecsr⟩ := decodeHeader_data0 (w := w)
  obtain ⟨memwrite8, memwrite16, memwrite32, memwrite64⟩ := decodeHeader_memwrite (w := w)
  exact ⟨p1, p2, p3, vsync, softreset, reset, writecsr, memwrite8, memwrite16, memwrite32, memwrite64,
    decodeHeader_modechange, decodeHeader_freeze, record, restart, quit, decodeHeader_unrecognised⟩

end Sys2Proof
end

section
/-! The primitives of the ring as P runs them (40_ring.md R131 to R139): what one evaluation of `reserve`'s guard answers,
which step P takes at each of its places, the RESTART sequence as a run, and the waits. -/

namespace Sys2Proof.Machine

/-! ### The guard of `reserve`, case by case -/

section Guard

variable {n w r size : Nat}

/-- More slots than the ring can ever have free (R131). -/
theorem reserveCase_oversize (h : n - 1 < size) : reserveCase n w r size = .oversize := by
  rw [reserveCase, if_pos h]

/-- Case 1: the packet ends before the top (R132). -/
theorem reserveCase_contiguous (hsize : size ≤ n - 1) (htop : w + size < n) :
    reserveCase n w r size = if r ≤ w ∨ w + size < r then .place else .wait := by
  rw [reserveCase, if_neg hsize.not_gt, if_neg htop.not_gt, if_pos htop]
  simp only [fitGuard, Bool.or_eq_true, decide_eq_true_eq]

/-- Case 2: the packet runs past the top (R133). -/
theorem reserveCase_wrap (hsize : size ≤ n - 1) (htop : n < w + size) :
    reserveCase n w r size = if r = w ∨ (0 < r ∧ r < w) then .restart else .wait := by
  rw [reserveCase, if_neg hsize.not_gt, if_pos htop]
  simp only [wrapGuard, Bool.or_eq_true, Bool.and_eq_true, decide_eq_true_eq]

/-- Case 3: the packet ends exactly at the top (R134). -/
theorem reserveCase_exact (hsize : size ≤ n - 1) (htop : w + size = n) :
    reserveCase n w r size = if r = w ∨ (0 < r ∧ r < w) then .place else .wait := by
  rw [reserveCase, if_neg hsize.not_gt, if_neg htop.not_gt, if_neg htop.not_lt]
  simp only [wrapGuard, Bool.or_eq_true, Bool.and_eq_true, decide_eq_true_eq]

/-- For one slot the cases are decided by whether the next slot is `read_pos`, and the wrap case is not among the answers:
below the top case 1 applies, at the top case 3 (R135). -/
theorem reserveCase_one (hn : 2 ≤ n) (hw : w < n) (hr : r < n) :
    reserveCase n w r 1 = if (w + 1) % n ≠ r then .place else .wait := by
  rcases Nat.lt_or_eq_of_le (Nat.succ_le_of_lt hw) with hbelow | htop
  · rw [reserveCase_contiguous (by omega) hbelow, Nat.mod_eq_of_lt hbelow]
    exact if_congr (by omega) rfl rfl
  · rw [reserveCase_exact (by omega) htop, show w + 1 = n from htop, Nat.mod_self]
    exact if_congr (by omega) rfl rfl

end Guard

/-! ### P's step at each of its places (R142) -/

section Places

variable {s : State} {pkt : Packet}

theorem stepP_reserve (hs : s.pSignal = false) (hp : s.pphase = .reserve pkt) : stepP s = reserveStep pkt s := by
  simp [stepP, producerContinue, hs, hp]

theorem stepP_lockAcquire (hs : s.pSignal = false) (hp : s.pphase = .lockAcquire pkt) :
    stepP s = lockAcquireStep pkt s := by
  simp [stepP, producerContinue, hs, hp]

theorem stepP_marker (hs : s.pSignal = false) (hp : s.pphase = .marker pkt) : stepP s = markerStep pkt s := by
  simp [stepP, producerContinue, hs, hp]

theorem stepP_publish {offset size : Nat} {after : AfterCommit} (hs : s.pSignal = false)
    (hp : s.pphase = .publish offset size after) : stepP s = publishStep offset size after s := by
  simp [stepP, producerContinue, hs, hp]

theorem stepP_wakeDecision {size : Nat} {after : AfterCommit} (hs : s.pSignal = false)
    (hp : s.pphase = .wakeDecision size after) : stepP s = wakeDecisionStep size after s := by
  simp [stepP, producerContinue, hs, hp]

theorem stepP_originStore (hs : s.pSignal = false) (hp : s.pphase = .originStore pkt) :
    stepP s = originStoreStep pkt s := by
  simp [stepP, producerContinue, hs, hp]

theorem stepP_lockRelease (hs : s.pSignal = false) (hp : s.pphase = .lockRelease pkt) :
    stepP s = lockReleaseStep pkt s := by
  simp [stepP, producerContinue, hs, hp]

theorem stepP_slot {header : Word} {after : AfterCommit} (hs : s.pSignal = false) (hp : s.pphase = .slot header after) :
    stepP s = slotStep header after s := by
  simp [stepP, producerContinue, hs, hp]

theorem stepP_vsyncWait {fieldflag : W32} (hs : s.pSignal = false) (hp : s.pphase = .vsyncWait fieldflag) :
    stepP s = vsyncWaitStep fieldflag s := by
  simp [stepP, producerContinue, hs, hp]

theorem stepP_closeWait (hs : s.pSignal = false) (hp : s.pphase = .closeWait) : stepP s = closeWaitStep s := by
  simp [stepP, producerContinue, hs, hp]

theorem stepP_drain {after : AfterDrain} (hs : s.pSignal = false) (hp : s.pphase = .drain after) :
    stepP s = drainStep after s := by
  simp [stepP, producerContinue, hs, hp]

/-- A due signal comes before anything else P does (R139). -/
theorem stepP_signal (hs : s.pSignal = true) : stepP s = .next { signalWake s with pSignal := false } := by
  rw [stepP, if_pos hs, producerContinue_signal hs]

/-- The lock is Free: P takes it and goes on to the marker (R136 step 1). -/
theorem lockAcquireStep_of_free (h : s.restartLock = .free) :
    lockAcquireStep pkt s = .next (toPPhase (.marker pkt) (setLock .heldP s)) := by
  rw [lockAcquireStep, h]

/-- The lock is held: P has no step (R29). -/
theorem lockAcquireStep_of_not_free (h : s.restartLock ≠ .free) : lockAcquireStep pkt s = .next s := by
  rw [lockAcquireStep]
  split
  · exact absurd ‹_› h
  · rfl

end Places

/-! ### One evaluation of `reserve` (R131 to R134) -/

section Reserve

variable {s : State} {pkt : Packet}

theorem reserveStep_of_oversize
    (h : reserveCase s.capacity s.writePos s.readPos (pkt.payload.length + 1) = .oversize) :
    reserveStep pkt s = raise .p .errOversize (saturate64 (pkt.payload.length + 1)) s := by
  rw [reserveStep, h]

theorem reserveStep_of_wait
    (h : reserveCase s.capacity s.writePos s.readPos (pkt.payload.length + 1) = .wait) :
    reserveStep pkt s = .next (guardFailed s) := by
  rw [reserveStep, h]

/-- Cases 1 and 3: the packet is placed, or P signals next. -/
theorem reserveStep_of_place_or_wait {guard : Prop} [Decidable guard]
    (h : reserveCase s.capacity s.writePos s.readPos (pkt.payload.length + 1) = if guard then .place else .wait) :
    (guard → reserveStep pkt s = .next (fillPacket pkt s)) ∧
      (¬ guard → reserveStep pkt s = .next (guardFailed s)) :=
  ⟨fun hg => by rw [reserveStep, h, if_pos hg], fun hg => reserveStep_of_wait (h.trans (if_neg hg))⟩

/-- Case 2: the RESTART sequence comes next, or P signals. -/
theorem reserveStep_of_restart_or_wait {guard : Prop} [Decidable guard]
    (h : reserveCase s.capacity s.writePos s.readPos (pkt.payload.length + 1) = if guard then .restart else .wait) :
    (guard → reserveStep pkt s = .next (toPPhase (.lockAcquire pkt) s)) ∧
      (¬ guard → reserveStep pkt s = .next (guardFailed s)) :=
  ⟨fun hg => by rw [reserveStep, h, if_pos hg], fun hg => reserveStep_of_wait (h.trans (if_neg hg))⟩

end Reserve

/-! ### The RESTART sequence as a run (R136) -/

/-- What step `k` of the sequence does: it takes the lock, writes the marker, publishes it, makes the wake decision, stores
0 into `write_pos`, and last releases the lock. -/
def restartMove (pkt : Packet) (k : Nat) (s : State) : State :=
  match k with
  | 0 => toPPhase (.marker pkt) (setLock .heldP s)
  | 1 => toPPhase (.publish s.writePos 1 (.restart pkt)) (ringWrite s.writePos restartHeader s)
  | 2 => toPPhase (.wakeDecision 1 (.restart pkt)) (storeWritePos (s.wrap (s.writePos + 1)) s)
  | 3 => toPPhase (.originStore pkt) (wakeDecide 1 s)
  | 4 => toPPhase (.lockRelease pkt) (storeWritePos 0 s)
  | _ => toPPhase (.reserve pkt) (setLock .free s)

/-- The state after the first `k` steps of the sequence that begins in `s`. -/
def restartRun (pkt : Packet) (s : State) : Nat → State
  | 0 => s
  | k + 1 => restartMove pkt k (restartRun pkt s k)

/-- States that follow one another by steps of P are the states that P runs through. -/
theorem producerTimes_of_steps {f : Nat → State} {n : Nat} (h : ∀ k < n, stepP (f k) = .next (f (k + 1))) :
    producerTimes n (f 0) = .next (f n) := by
  induction n generalizing f with
  | zero => rfl
  | succ n ih =>
    rw [producerTimes, h 0 n.succ_pos]
    exact ih (f := fun k => f (k + 1)) fun k hk => h (k + 1) (Nat.succ_lt_succ hk)

section Restart

variable {s : State} {pkt : Packet}

theorem restartMove_pSignal (k : Nat) : (restartMove pkt k s).pSignal = s.pSignal := by
  unfold restartMove
  split <;> simp

/-- No guard is evaluated in the sequence, so no signal of a failed evaluation is ever due: "P never waits while it holds
the lock". -/
theorem restartRun_pSignal (hs : s.pSignal = false) (k : Nat) : (restartRun pkt s k).pSignal = false := by
  induction k with
  | zero => exact hs
  | succ k ih => rw [restartRun, restartMove_pSignal, ih]

/-- Each state of the sequence follows the one before by one step of P. -/
theorem stepP_restartRun (hs : s.pSignal = false) (hp : s.pphase = .lockAcquire pkt) (hfree : s.restartLock = .free)
    {k : Nat} (hk : k < 6) : stepP (restartRun pkt s k) = .next (restartRun pkt s (k + 1)) := by
  have hsig := restartRun_pSignal (pkt := pkt) hs k
  match k with
  | 0 => rw [stepP_lockAcquire hsig hp, restartRun, lockAcquireStep_of_free hfree]; rfl
  | 1 => rw [stepP_marker hsig rfl]; rfl
  | 2 => rw [stepP_publish hsig rfl]; rfl
  | 3 => rw [stepP_wakeDecision hsig rfl]; rfl
  | 4 => rw [stepP_originStore hsig rfl]; rfl
  | 5 => rw [stepP_lockRelease hsig rfl]; rfl

theorem producerTimes_restartRun (hs : s.pSignal = false) (hp : s.pphase = .lockAcquire pkt)
    (hfree : s.restartLock = .free) {n : Nat} (hn : n ≤ 6) : producerTimes n s = .next (restartRun pkt s n) :=
  producerTimes_of_steps (f := restartRun pkt s) fun _ hk => stepP_restartRun hs hp hfree (Nat.lt_of_lt_of_le hk hn)

/-- The lock is held from its acquire to its release. -/
theorem restartRun_restartLock {k : Nat} (hlow : 1 ≤ k) (hhigh : k ≤ 5) :
    (restartRun pkt s k).restartLock = .heldP := by
  match k with
  | 1 | 2 | 3 => rfl
  | 4 | 5 => simp [restartRun, restartMove]

/-- `write_pos` moves twice: to the slot after the marker, and to 0. -/
theorem restartRun_writePos {k : Nat} (hlow : 1 ≤ k) (hhigh : k ≤ 5) :
    (restartRun pkt s k).writePos =
      if k ≤ 2 then s.writePos else if k ≤ 4 then (s.writePos + 1) % s.capacity else 0 := by
  match k with
  | 1 | 2 | 3 | 5 => rfl
  | 4 => simp [restartRun, restartMove, State.wrap, State.capacity]

/-- The end of the sequence: the marker at the old `write_pos`, its commit's wake part, `write_pos` 0, the lock Free, and
the placement to be evaluated anew. -/
theorem restartRun_six :
    restartRun pkt s 6 = { afterWake (Config.drawBusy s.draws) 1 s with
      ring := Memory.write s.ring s.writePos (headerWord 14 0 0 0)
      writePos := 0
      restartLock := .free
      pphase := .reserve pkt
      draws := s.draws + 1 } := by
  simp only [restartRun, restartMove, wakeDecide_eq]
  rfl

end Restart

/-! ### Waits (R139) -/

section Waits

variable {s : State}

/-- No free slot: the next slot is `read_pos` (R135). -/
theorem slotStep_of_full {header : Word} {after : AfterCommit} (hcap : 2 ≤ s.capacity)
    (hfull : (s.writePos + 1) % s.capacity = s.readPos) : slotStep header after s = .next (guardFailed s) := by
  have hguard : slotGuard s = false := decide_eq_false (not_not_intro hfull)
  rw [slotStep, if_neg (by omega), hguard]
  rfl

/-- As many VSYNCs are queued as may be (42_producer.md R209). -/
theorem vsyncWaitStep_of_limit {fieldflag : W32} (h : Config.vsyncLimit.toNat ≤ s.vsyncQueued.toNat) :
    vsyncWaitStep fieldflag s = .next (guardFailed s) :=
  if_neg (not_lt.mpr h)

/-- C has not halted yet (42_producer.md R202). -/
theorem closeWaitStep_of_not_halted (h : s.cstate ≠ .halted) : closeWaitStep s = .next (guardFailed s) := if_neg h

/-- The ring is not drained yet (42_producer.md R207). -/
theorem drainStep_of_ne {after : AfterDrain} (h : s.readPos ≠ s.writePos) :
    drainStep after s = .next (guardFailed s) := if_neg h

/-- A failed evaluation, at whichever of the five awaits, only notes that a signal is due. -/
theorem stepP_of_waits (hs : s.pSignal = false) (hw : s.waits) : stepP s = .next (guardFailed s) := by
  unfold State.waits at hw
  cases hp : s.pphase <;> rw [hp] at hw
  case reserve => rw [stepP_reserve hs hp, reserveStep_of_wait hw]
  case slot =>
    obtain ⟨hcap, hfull⟩ := hw
    rw [stepP_slot hs hp, slotStep_of_full hcap hfull]
  case vsyncWait => rw [stepP_vsyncWait hs hp, vsyncWaitStep_of_limit hw]
  case closeWait => rw [stepP_closeWait hs hp, closeWaitStep_of_not_halted hw]
  case drain => rw [stepP_drain hs hp, drainStep_of_ne hw]
  all_goals exact absurd hw id

end Waits

/-! ### The statements -/

/-- Settles O43, by the one-slot form of the guard. -/
theorem oneSlotGuardAgrees : Obligations.OneSlotGuardAgrees := by
  intro n w r hn hw hr
  rw [reserveCase_one hn hw hr]
  by_cases h : (w + 1) % n = r <;> simp [h]

/-- Settles O42, by the guard's equation in each of the three cases. -/
theorem reserveGuards : Obligations.ReserveGuards := by
  intro s pkt hs hp
  dsimp only
  rw [stepP_reserve hs hp]
  refine ⟨fun hbig => ?oversize, fun hsize htop => ?contiguous, fun hsize htop => ?wrap, fun hsize htop => ?exactFit⟩
  case oversize => rw [reserveStep_of_oversize (reserveCase_oversize hbig)]; rfl
  case contiguous => exact reserveStep_of_place_or_wait (reserveCase_contiguous hsize htop)
  case wrap => exact reserveStep_of_restart_or_wait (reserveCase_wrap hsize htop)
  case exactFit => exact reserveStep_of_place_or_wait (reserveCase_exact hsize htop)

/-- Settles O44, by the run of the sequence. -/
theorem restartSequence : Obligations.RestartSequence := by
  intro s pkt hs hp
  refine ⟨fun hfree => ⟨?finish, fun k hlow hhigh => ?between⟩, fun hheld => ?blocked⟩
  case finish => rw [producerTimes_restartRun hs hp hfree le_rfl, restartRun_six]
  case between =>
    exact ⟨_, producerTimes_restartRun hs hp hfree (by omega), restartRun_restartLock hlow hhigh,
      restartRun_writePos hlow hhigh⟩
  case blocked => rw [stepP_lockAcquire hs hp, lockAcquireStep_of_not_free hheld]

/-- Settles O46: at each await the failed evaluation sets the signal due, and the signal clears it again. -/
theorem waitsSignal : Obligations.WaitsSignal := by
  intro s hs hw
  refine ⟨stepP_of_waits hs hw, ?_⟩
  rw [stepP_signal rfl, signalWake, ← hs]

end Sys2Proof.Machine
end

section
/-! The parser's items at a word of a run, an equation each (41_gifpath.md R160 to R168, R171): what a tag word loads,
and the next state after a tag, a PACKED word and a REGLIST unit. -/

namespace Sys2Proof.Machine

/-! ### One record -/

/-- Selector `j` of a tag word, by the word's bits (30_encoding.md R105). -/
theorem tagSelector_loadedTag {flg : BitVec 2} (w : Word) {j : Nat} (hj : j < 16) :
    tagSelector (loadedTag flg (tagFields w)) j = (w.extractLsb' (64 + 4 * j) 4).setWidth 8 := by
  have hregs : pair64 (w.extractLsb' 96 32) (w.extractLsb' 64 32) = w.extractLsb' 64 64 := by
    rw [pair64_eq_append]
    exact BitVec.extractLsb'_append_extractLsb'_eq_extractLsb' rfl
  have hnibble : (w.extractLsb' 64 64).extractLsb' (4 * j) 4 = w.extractLsb' (64 + 4 * j) 4 := by
    refine BitVec.eq_of_getLsbD_eq fun i hi => ?_
    have hlt : 4 * j + i < 64 := by omega
    simp [hi, hlt, Nat.add_assoc]
  exact congrArg (BitVec.setWidth 8) ((congrArg (BitVec.extractLsb' (4 * j) 4) hregs).trans hnibble)

theorem fetchTag_regs (flg : BitVec 2) (t : TagFields) (g : GifPath) (j : Fin 16) :
    (fetchTag flg t g).regs[j] =
      if j.val < numregs (loadedTag flg t) then tagSelector (loadedTag flg t) j.val else g.regs[j] := by
  simp [fetchTag]

/-- The clipping test by the tag's declared units (R171). -/
theorem clips_fetchTag {p : PathId} {flg : BitVec 2} {t : TagFields} {g : GifPath} {n : Nat} :
    clips p (fetchTag flg t g).tag n = true ↔
      p = .p0 ∧ (if flg = 1 then n * 2 else n) < t.nloop.toNat * (if t.nreg = 0 then 16 else t.nreg.toNat) := by
  rw [clips, Bool.and_eq_true, decide_eq_true_eq, decide_eq_true_eq]
  rfl

/-- Inside a tag the packet goes on (R170). -/
theorem endOfPacket_of_ne_zero {g : GifPath} (hn : g.tag.nloop ≠ 0) : endOfPacket g = false := by
  rw [endOfPacket, decide_eq_false hn, Bool.false_and]

/-- While a register step says `more`, the tag goes on (R164). -/
theorem stepReg_nloop_ne_zero {g : GifPath} (hn : g.tag.nloop ≠ 0) (hmore : (stepReg g).more = true) :
    (stepReg g).path.tag.nloop ≠ 0 := by
  unfold stepReg at hmore ⊢
  split at hmore
  · rw [if_pos ‹_›]
    exact of_decide_eq_true hmore
  · rw [if_neg ‹_›]
    exact hn

/-! ### Notifications -/

/-- The notifications of a unit of kind `k` with these two payload words: one, or none. -/
def unitNotes (k : Option Sfl) (w0 w1 : W32) : List Notification :=
  match k with
  | none => []
  | some k => [{ kind := k, w0 := w0, w1 := w1 }]

theorem raiseIf_eq (k : Option Sfl) (w0 w1 : W32) (s : State) :
    raiseIf k w0 w1 s = { s with sflTrace := s.sflTrace ++ unitNotes k w0 w1 } := by
  cases k with
  | none => simp [raiseIf, unitNotes]
  | some k => rfl

theorem unitNotes_ite (p : Prop) [Decidable p] (k : Sfl) (w0 w1 : W32) :
    unitNotes (if p then some k else none) w0 w1 = if p then [{ kind := k, w0 := w0, w1 := w1 }] else [] := by
  split <;> rfl

/-- The notification a code selects, by comparing it with the base (30_encoding.md R109). -/
theorem sflOf_eq (base c : Nat) :
    sflOf base c =
      if base ≤ c ∧ c ≤ base + 2 then
        some (if c = base then .signal else if c = base + 1 then .finish else .label)
      else none := by
  unfold sflOf
  refine if_ctx_congr Iff.rfl (fun ⟨hlow, hhigh⟩ => ?_) fun _ => rfl
  obtain rfl | rfl | rfl : c = base ∨ c = base + 1 ∨ c = base + 2 := by omega
  all_goals simp

/-! ### The run after a word -/

section Items

variable {s : State} {run : ParseRun} {w : Word} {ws : List Word}

theorem State.parserAt.rest (h : s.parserAt run w ws) : run.rest = w :: ws := h.2.2

/-- Once the word is consumed whole, the stop rule decides where P stands (R160, R170). -/
theorem continueParse_take (hrest : run.rest = w :: ws) (s : State) :
    continueParse run.take s = toPPhase (afterWord run w ws (s.path run.path)) s := by
  have htake : run.take = { path := run.path, taken := run.taken ++ [w], rest := ws, half := .lower } := by
    simp [ParseRun.take, hrest]
  rw [continueParse_eq, htake, afterWord]
  congr 1
  exact if_congr (by simp [parserStops, endOfPacket]) rfl rfl

theorem parserItem_at (h : s.parserAt run w ws) (body : ParseRun → Result) : parserItem s body = body run := by
  obtain ⟨hf, hp, -⟩ := h
  rw [parserItem, alive_of_live hf, hp]

theorem dataItem_at (h : s.parserAt run w ws) (hn : (s.path run.path).tag.nloop ≠ 0) (body : ParseRun → Result) :
    dataItem s body = body run := by
  rw [dataItem, parserItem_at h, if_neg hn]

/-- A tag item that the clip of R171 ends. -/
theorem tagItem_of_clips {flg : BitVec 2} {t : TagFields} (h : s.parserAt run w ws)
    (hc : clips run.path (fetchTag flg t (s.path run.path)).tag ws.length = true) :
    tagItem flg t s = .next { s with
      paths := GifPaths.set s.paths run.path (abortTag (fetchTag flg t (s.path run.path)))
      p3Progress := progressAfter run.path (fetchTag flg t (s.path run.path)).tag s.p3Progress
      pphase := .reserve { path := run.path, payload := run.taken } } := by
  rw [tagItem, parserItem_at h, h.rest]
  exact if_pos hc

/-- A tag item that is consumed. -/
theorem tagItem_of_not_clips {flg : BitVec 2} {t : TagFields} (h : s.parserAt run w ws)
    (hc : ¬ clips run.path (fetchTag flg t (s.path run.path)).tag ws.length = true) :
    tagItem flg t s = .next { s with
      paths := GifPaths.set s.paths run.path (fetchTag flg t (s.path run.path))
      p3Progress := progressAfter run.path (fetchTag flg t (s.path run.path)).tag s.p3Progress
      pphase := afterWord run w ws (fetchTag flg t (s.path run.path)) } := by
  rw [tagItem, parserItem_at h]
  dsimp only
  rw [continueParse_take h.rest, setPath_path_self, h.rest]
  exact if_neg hc

/-- A word of a PACKED tag: what it raises, one register step, one word (R165, R166). -/
theorem packedItem_at (h : s.parserAt run w ws) (hn : (s.path run.path).tag.nloop ≠ 0) (k : Option Sfl)
    (w0 w1 : W32) :
    packedItem k w0 w1 s = .next { s with
      sflTrace := s.sflTrace ++ unitNotes k w0 w1
      paths := GifPaths.set s.paths run.path (stepReg (s.path run.path)).path
      pphase := afterWord run w ws (stepReg (s.path run.path)).path } := by
  rw [packedItem, dataItem_at h hn, continueParse_take h.rest, setPath_path_self, raiseIf_eq]
  rfl

/-- A unit of a REGLIST tag: what it raises, one register step, half a word, and the rest of the word with it when the
tag ends (R167, R168). -/
theorem reglistItem_at (h : s.parserAt run w ws) (hn : (s.path run.path).tag.nloop ≠ 0) (k : Option Sfl) (u : W64) :
    reglistItem k u s = .next { s with
      sflTrace := s.sflTrace ++ unitNotes k (u.extractLsb' 0 32) (u.extractLsb' 32 32)
      paths := GifPaths.set s.paths run.path (stepReg (s.path run.path)).path
      pphase :=
        if run.half = .lower ∧ (stepReg (s.path run.path)).more = true then .parsing { run with half := .upper }
        else afterWord run w ws (stepReg (s.path run.path)).path } := by
  rw [reglistItem, dataItem_at h hn, ParseRun.afterUnit_eq, raiseIf_eq]
  by_cases hmore : run.half = .lower ∧ (stepReg (s.path run.path)).more = true
  · have hnot : endOfPacket (stepReg (s.path run.path)).path = false :=
      endOfPacket_of_ne_zero (stepReg_nloop_ne_zero hn hmore.2)
    rw [if_pos hmore, if_pos hmore, continueParse_eq, setPath_path_self, hnot, h.rest]
    rfl
  · rw [if_neg hmore, if_neg hmore, continueParse_take h.rest, setPath_path_self]
    rfl

/-- The step P takes at a word of a run (30_encoding.md R98, R103). -/
theorem stepP_parserAt (h : s.parserAt run w ws) (hs : s.pSignal = false) :
    stepP s = exec (decode s.cfg.rlSflBase (gifCode (s.path run.path) run.half w)) s := by
  obtain ⟨-, hp, hrest⟩ := h
  simp [stepP, hs, hp, parserFetch, hrest]

end Items

/-! ### The words of a PACKED tag -/

theorem gifCode_packed {g : GifPath} (hn : g.tag.nloop ≠ 0) (hf : g.tag.flag = 0) (h : Half) (w : Word) :
    gifCode g h w = .packed (currentSelector g) w := by
  rw [gifCode, if_neg hn, hf, packedUnit_eq]
  rfl

/-- Whatever row a word of a PACKED tag belongs to, it is one PACKED item (R165, R166). -/
theorem exec_decodePacked (sel : Byte) (u : PackedUnit) (s : State) :
    exec (decodePacked sel u) s =
      packedItem (if sel = Config.adSel then sflOf Config.adSflBase (unitIndex u).toNat else none)
        (unitWord0 u) (unitWord1 u) s := by
  unfold decodePacked
  by_cases hsel : sel = Config.adSel
  · rw [if_pos hsel, if_pos hsel]
    cases sflOf Config.adSflBase (unitIndex u).toNat with
    | none => rfl
    | some k => cases k <;> rfl
  · rw [if_neg hsel, if_neg hsel]
    rfl

/-! ### The statements -/

/-- Settles O16, by the tag's selectors in bits of the word. -/
theorem fetchTagLoadsRecord : Obligations.FetchTagLoadsRecord := by
  intro w g
  refine ⟨rfl, rfl, rfl, rfl, rfl, rfl, rfl, fun j => ?_⟩
  rw [fetchTag_regs, tagSelector_loadedTag w j.isLt]
  rfl

/-- Settles O17: each FLG code's tag is the tag item of that code, which the clipping test divides. -/
theorem tagItems : Obligations.TagItems := by
  intro s flg t i run w ws h hi
  dsimp only
  have hexec : exec i s = tagItem flg t s := by
    obtain ⟨rfl, rfl⟩ | ⟨rfl, rfl⟩ | ⟨rfl, rfl⟩ | ⟨rfl, rfl⟩ := hi <;> rfl
  rw [hexec]
  refine ⟨fun hclip => ?clipped, fun hfits => ?consumed⟩
  case clipped =>
    have hpath : ∀ tag, progressAfter run.path tag s.p3Progress = s.p3Progress := fun tag => by
      rw [hclip.1]
      rfl
    rw [tagItem_of_clips h (clips_fetchTag.mpr hclip), hpath]
    rfl
  case consumed =>
    rw [tagItem_of_not_clips h (mt clips_fetchTag.mp hfits)]
    rfl

/-- Settles O19: the selector and the index decide what the word's one PACKED item raises. -/
theorem packedStepByBits : Obligations.PackedStepByBits := by
  intro s run u ws h hs hn hf
  dsimp only
  rw [stepP_parserAt h hs, gifCode_packed hn hf, decode, exec_decodePacked, sflOf_eq, ← ite_and, packedItem_at h hn,
    unitNotes_ite]
  rfl

/-- Settles O20: each row is the REGLIST item of its notification. -/
theorem reglistUnits : Obligations.ReglistUnits := by
  intro s i u kind run w ws h hn hi
  have hexec : exec i s = reglistItem kind u s := by
    obtain ⟨sel, rfl, rfl⟩ | ⟨rfl, rfl⟩ | ⟨rfl, rfl⟩ | ⟨rfl, rfl⟩ := hi <;> rfl
  rw [hexec, reglistItem_at h hn]
  rfl

end Sys2Proof.Machine
end

section
/-! How many units a tag governs (41_gifpath.md R164), and the clipping round trip that rests on it (R171, R178). -/

namespace Sys2Proof.Machine

/-! ### The register steps of a tag -/

/-- The record `k` register steps after the fresh record `g`: the index has gone round every `numregs` units, and
`nloop` has gone down by one each time. -/
def unitsDone (k : Nat) (g : GifPath) : GifPath :=
  { g with
    curreg := BitVec.ofNat 8 (k % numregs g.tag)
    tag := { g.tag with nloop := g.tag.nloop - BitVec.ofNat 15 (k / numregs g.tag) } }

theorem unitsDone_zero {g : GifPath} (hc : g.curreg = 0) : unitsDone 0 g = g := by
  obtain ⟨tag, regs, curreg⟩ := g
  cases hc
  simp [unitsDone]

theorem numregs_pos (t : GifTag) : 0 < numregs t := by
  unfold numregs
  split
  · exact Nat.zero_lt_succ _
  · exact BitVec.toNat_pos_of_ne_zero ‹_›

theorem numregs_le (t : GifTag) : numregs t ≤ 16 := by
  unfold numregs
  split
  · exact le_rfl
  · exact t.nreg.isLt.le

theorem unitsDone_curreg_toNat (k : Nat) (g : GifPath) : (unitsDone k g).curreg.toNat = k % numregs g.tag := by
  have hmod := Nat.mod_lt k (numregs_pos g.tag)
  have hle := numregs_le g.tag
  exact (BitVec.toNat_ofNat _ _).trans (Nat.mod_eq_of_lt (by omega))

theorem unitsDone_nloop_toNat {k : Nat} {g : GifPath} (hk : k ≤ g.tag.nloop.toNat * numregs g.tag) :
    (unitsDone k g).tag.nloop.toNat = g.tag.nloop.toNat - k / numregs g.tag := by
  have hdiv : k / numregs g.tag ≤ g.tag.nloop.toNat := Nat.div_le_of_le_mul (by rwa [Nat.mul_comm])
  have hlt := g.tag.nloop.isLt
  have hrounds : (BitVec.ofNat 15 (k / numregs g.tag)).toNat = k / numregs g.tag :=
    (BitVec.toNat_ofNat _ _).trans (Nat.mod_eq_of_lt (by omega))
  rw [unitsDone, BitVec.toNat_sub_of_le (by rwa [BitVec.le_def, hrounds]), hrounds]

/-- `nloop` reaches 0 with the last unit, and not before. -/
theorem unitsDone_nloop_eq_zero {k : Nat} {g : GifPath} (hk : k ≤ g.tag.nloop.toNat * numregs g.tag) :
    (unitsDone k g).tag.nloop = 0 ↔ k = g.tag.nloop.toNat * numregs g.tag := by
  have hrounds : g.tag.nloop.toNat ≤ k / numregs g.tag ↔ g.tag.nloop.toNat * numregs g.tag ≤ k :=
    Nat.le_div_iff_mul_le (numregs_pos g.tag)
  rw [← BitVec.toNat_inj, unitsDone_nloop_toNat hk]
  exact (Nat.sub_eq_zero_iff_le.trans hrounds).trans hk.ge_iff_eq

/-- A register step does one more unit. -/
theorem stepReg_unitsDone (k : Nat) (g : GifPath) : (stepReg (unitsDone k g)).path = unitsDone (k + 1) g := by
  have hpos := numregs_pos g.tag
  have hnext : ((unitsDone k g).curreg + 1).toNat = k % numregs g.tag + 1 := by
    have hmod := Nat.mod_lt k hpos
    have hle := numregs_le g.tag
    rw [BitVec.toNat_add, unitsDone_curreg_toNat]
    exact Nat.mod_eq_of_lt (by simp; omega)
  have hregs : numregs (unitsDone k g).tag = numregs g.tag := rfl
  rw [stepReg, hnext, hregs]
  split
  · rename_i hlast
    have hmod : (k + 1) % numregs g.tag = 0 := by rw [← Nat.mod_add_mod, hlast, Nat.mod_self]
    have hdiv : (k + 1) / numregs g.tag = k / numregs g.tag + 1 := Nat.succ_div_of_mod_eq_zero hmod
    simp [unitsDone, hmod, hdiv, BitVec.ofNat_add, BitVec.sub_sub]
  · rename_i hlast
    have hmod : (k + 1) % numregs g.tag = k % numregs g.tag + 1 := by
      have hlt := Nat.mod_lt k hpos
      rw [← Nat.mod_add_mod, Nat.mod_eq_of_lt (by omega)]
    have hdiv : (k + 1) / numregs g.tag = k / numregs g.tag := Nat.succ_div_of_mod_ne_zero (by omega)
    simp [unitsDone, hmod, hdiv, BitVec.ofNat_add]

theorem iterate_stepReg {g : GifPath} (hc : g.curreg = 0) (k : Nat) :
    (fun x => (stepReg x).path)^[k] g = unitsDone k g := by
  induction k with
  | zero => exact (unitsDone_zero hc).symm
  | succ k ih => rw [Function.iterate_succ_apply', ih, stepReg_unitsDone]

/-- The step that does unit `k + 1` says `more` unless that unit is the tag's last. -/
theorem stepReg_unitsDone_more {k : Nat} {g : GifPath} (hk : k < g.tag.nloop.toNat * numregs g.tag) :
    (stepReg (unitsDone k g)).more = true ↔ k + 1 < g.tag.nloop.toNat * numregs g.tag := by
  have hn : (unitsDone k g).tag.nloop ≠ 0 := mt (unitsDone_nloop_eq_zero hk.le).mp hk.ne
  have hc : (unitsDone k g).curreg.toNat < numregs (unitsDone k g).tag := by
    rw [unitsDone_curreg_toNat]
    exact Nat.mod_lt _ (numregs_pos g.tag)
  obtain ⟨-, -, hmore⟩ := stepReg_units _ hn hc
  rw [hmore, stepReg_unitsDone, Ne, unitsDone_nloop_eq_zero hk]
  exact (Nat.lt_iff_le_and_ne.trans (and_iff_right hk)).symm

/-! ### The parser on a PACKED tag -/

/-- Inside a PACKED tag an iteration of the parser takes one word and one unit (R165). -/
theorem parseIteration_packed {rl : Option (Fin 14)} {p : PathId} {x : ParseState} {w : Word} {ws : List Word}
    (hn : x.path.tag.nloop ≠ 0) (hf : x.path.tag.flag = 0) :
    parseIteration rl p x w ws =
      ({ path := (stepReg x.path).path, p3 := x.p3, sfl := x.sfl ++ packedNotes x.path w, left := ws }, false) := by
  rw [parseIteration, if_neg hn, hf, packedUnit_eq]
  rfl

/-- An iteration that ends the call (R171). -/
theorem parseLoop_of_clip {rl : Option (Fin 14)} {p : PathId} {x y : ParseState} {w : Word} {ws : List Word} (n : Nat)
    (hx : x.left = w :: ws) (h : parseIteration rl p x w ws = (y, true)) : parseLoop rl p (n + 1) x = y := by
  simp [parseLoop, hx, h]

/-- Any other iteration (R160, R170). -/
theorem parseLoop_of_item {rl : Option (Fin 14)} {p : PathId} {x y : ParseState} {w : Word} {ws : List Word} (n : Nat)
    (hx : x.left = w :: ws) (h : parseIteration rl p x w ws = (y, false)) :
    parseLoop rl p (n + 1) x = if endOfPacket y.path then y else parseLoop rl p n y := by
  simp [parseLoop, hx, h]

/-- The parser on exactly the words that a PACKED tag still has to come, after the stop test of the item before: all are
consumed, and the tag is done. -/
theorem parseLoop_packed {rl : Option (Fin 14)} {p : PathId} {g : GifPath} (hf : g.tag.flag = 0) {ws : List Word}
    {k : Nat} {x : ParseState} (hx : x.path = unitsDone k g) (hleft : x.left = ws)
    (hlen : k + ws.length = g.tag.nloop.toNat * numregs g.tag) :
    let y := if endOfPacket x.path then x else parseLoop rl p ws.length x
    y.path = unitsDone (k + ws.length) g ∧ y.left = [] := by
  induction ws generalizing k x with
  | nil =>
    rw [List.length_nil, parseLoop, ite_self]
    exact ⟨hx, hleft⟩
  | cons w ws ih =>
    rw [List.length_cons] at hlen
    have hn : x.path.tag.nloop ≠ 0 := by
      rw [hx]
      exact mt (unitsDone_nloop_eq_zero (by omega)).mp (by omega)
    have hflag : x.path.tag.flag = 0 := by
      rw [hx]
      exact hf
    rw [endOfPacket_of_ne_zero hn, List.length_cons,
      parseLoop_of_item ws.length hleft (parseIteration_packed hn hflag), ← Nat.succ_add_eq_add_succ]
    exact ih (by rw [hx, stepReg_unitsDone]) rfl (by omega)

/-! ### The parser at a tag word -/

/-- The parser's state after a tag word `w` that is consumed, with `ws` left. -/
def tagConsumed (p : PathId) (g : GifPath) (p3 : Bool) (w : Word) (ws : List Word) : ParseState :=
  { path := fetchTag (tagFlg w) (tagFields w) g
    p3 := progressAfter p (fetchTag (tagFlg w) (tagFields w) g).tag p3
    sfl := []
    left := ws }

section Tag

variable {rl : Option (Fin 14)} {p : PathId} {g : GifPath} {p3 : Bool} {w : Word} {ws : List Word}

/-- A call that begins with a tag that the clip aborts (R171). -/
theorem parse_of_clips (hn : g.tag.nloop = 0)
    (hc : clips p (fetchTag (tagFlg w) (tagFields w) g).tag ws.length = true) :
    parse rl p g p3 (w :: ws) =
      { path := abortTag (fetchTag (tagFlg w) (tagFields w) g)
        p3 := progressAfter p (fetchTag (tagFlg w) (tagFields w) g).tag p3
        sfl := []
        left := w :: ws } :=
  parseLoop_of_clip ws.length rfl (by simp [parseIteration, hn, hc])

/-- A call that begins with any other tag. -/
theorem parse_of_not_clips (hn : g.tag.nloop = 0)
    (hc : ¬ clips p (fetchTag (tagFlg w) (tagFields w) g).tag ws.length = true) :
    parse rl p g p3 (w :: ws) =
      if endOfPacket (tagConsumed p g p3 w ws).path then tagConsumed p g p3 w ws
      else parseLoop rl p ws.length (tagConsumed p g p3 w ws) :=
  parseLoop_of_item ws.length rfl (by simp [parseIteration, tagConsumed, hn, hc])

end Tag

/-- The clipping test on a PACKED tag: one unit a word (R171). -/
theorem clips_packed {t : GifTag} {n : Nat} (hf : t.flag = 0) :
    clips .p0 t n = true ↔ n < t.nloop.toNat * numregs t := by
  simp [clips, availableUnits, declaredUnits, hf]

/-! ### The statements -/

/-- Settles O23: the record after `k` steps is known in closed form. -/
theorem tagGovernsUnits : Obligations.TagGovernsUnits := by
  intro g k hc hk
  dsimp only
  rw [iterate_stepReg hc, iterate_stepReg hc]
  refine ⟨unitsDone_curreg_toNat k g, unitsDone_nloop_toNat hk.le, mt (unitsDone_nloop_eq_zero hk.le).mp hk.ne,
    stepReg_unitsDone_more hk, fun hlast => ⟨(unitsDone_nloop_eq_zero hlast.le).mpr hlast, ?_⟩⟩
  rw [← BitVec.toNat_inj, unitsDone_curreg_toNat, hlast, Nat.mul_mod_left]
  rfl

/-- Settles O26: the clipping test divides the calls, and an exact fit is the tag's run of units to its end. -/
theorem clippingRoundTrip : Obligations.ClippingRoundTrip := by
  intro rl g p3 w ws hn hf
  dsimp only
  rw [← hf]
  have hclips := clips_packed (t := (fetchTag (tagFlg w) (tagFields w) g).tag) (n := ws.length) hf
  refine ⟨fun hover => ?overflow, fun hfit => ?exactFit, rfl, rfl⟩
  case overflow =>
    rw [parse_of_clips hn (hclips.mpr hover)]
    exact ⟨rfl, rfl, rfl⟩
  case exactFit =>
    have hfresh : (tagConsumed .p0 g p3 w ws).path = unitsDone 0 (fetchTag (tagFlg w) (tagFields w) g) :=
      (unitsDone_zero rfl).symm
    have hunits := (Nat.zero_add ws.length).trans hfit.symm
    obtain ⟨hpath, hleft⟩ := parseLoop_packed (rl := rl) (p := .p0) (ws := ws) hf hfresh rfl hunits
    rw [parse_of_not_clips hn (mt hclips.mp hfit.not_gt), hpath]
    exact ⟨(unitsDone_nloop_eq_zero hunits.le).mpr hunits, hleft⟩

end Sys2Proof.Machine
end

section
/-! The host operations as P runs them (42_producer.md R200 to R210): what the port answers to a request, the steps that
the operations share (a commit, an enqueue, a wait), and each operation run to its end. -/

namespace Sys2Proof.Machine

/-! ### The port (R200) -/

/-- The instruction is the host operation of number `op`: its step is an acceptance behind the checks of R200, and P's
own step after that. -/
def IsHostOp (op : BitVec 4) (i : Instr) : Prop := ∀ s, ∃ accept, exec i s = hostOp op s accept

/-- Whatever the port presents is the operation of the request's own number, also from 11 on. -/
theorem isHostOp_decodeRequest (r : HostRequest) : IsHostOp r.op (decodeRequest r) := by
  intro s
  obtain ⟨⟨⟨k, hk : k < 16⟩⟩, _⟩ := r
  interval_cases k <;> exact ⟨_, rfl⟩

/-- The grounds of R200 on which a request is refused. -/
theorem apiCheck_eq_false {op : BitVec 4} {s : State}
    (h : 11 ≤ op.toNat ∨ (op.toNat = 0 ∧ s.session = .opened) ∨
      (op.toNat ≠ 0 ∧ op.toNat ≠ 9 ∧ op.toNat ≠ 10 ∧ s.session = .closed) ∨
      (op.toNat ≠ 4 ∧ op.toNat ≠ 7 ∧ s.resv ≠ none) ∨ (op.toNat = 4 ∧ s.resv = none)) :
    apiCheck op s = false := by
  unfold apiCheck
  rcases h with hop | ⟨hop, hs⟩ | ⟨h0, h9, h10, hs⟩ | ⟨h4, h7, hr⟩ | ⟨hop, hr⟩
  · rw [if_pos hop]
  · simp [hop, hs]
  · simp [h0, h9, h10, hs]
  · simp [h4, h7, Option.isNone_eq_false_iff.mpr (Option.isSome_iff_ne_none.mpr hr)]
  · simp [hop, hr]

/-- Without a value of its own, the info of ERR_API is the op code (R290). -/
theorem apiInfo_zero (op : BitVec 4) : apiInfo op 0 = op.setWidth 64 := by
  simp [apiInfo, pair64]

theorem IsHostOp.exec_dead {op : BitVec 4} {i : Instr} {s : State} (h : IsHostOp op i) (hf : s.fault ≠ none) :
    exec i s = .fault .deadBlock := by
  obtain ⟨accept, hexec⟩ := h s
  rw [hexec, hostOp, alive_of_dead hf]

theorem IsHostOp.exec_refused {op : BitVec 4} {i : Instr} {s : State} (h : IsHostOp op i) (hidle : s.producerIdle)
    (hcheck : apiCheck op s = false) :
    exec i s = .next { s with fault := some { code := .errApi, agent := .p, info := op.setWidth 64 } } := by
  obtain ⟨accept, hexec⟩ := h s
  obtain ⟨hf, hp, -⟩ := hidle
  rw [hexec, hostOp_idle op accept hf hp, hcheck, if_neg Bool.false_ne_true, raise_live hf, apiInfo_zero]

/-- A request that passes the checks is accepted. -/
theorem hostOp_accepted {op : BitVec 4} {s : State} {accept : Result} (hidle : s.producerIdle)
    (hcheck : apiCheck op s = true) : hostOp op s accept = accept := by
  obtain ⟨hf, hp, -⟩ := hidle
  rw [hostOp_idle op accept hf hp, if_pos hcheck]

/-- In an open block with no reservation every operation but OPEN and SEND_DATA passes them. -/
theorem hostOp_of_acceptsOps {op : BitVec 4} {s : State} {accept : Result} (h : s.acceptsOps)
    (hop : op = 1 ∨ op = 2 ∨ op = 3 ∨ op = 5 ∨ op = 6 ∨ op = 7 ∨ op = 8 ∨ op = 9 ∨ op = 10) :
    hostOp op s accept = accept := by
  obtain ⟨hidle, hopen, hresv⟩ := h
  exact hostOp_accepted hidle (apiCheck_of_accepts hopen hresv op hop)

/-! ### An accepted operation goes on by P's steps -/

/-- P is past the acceptance of an operation, and not in the parser. -/
def PPhase.midOperation (p : PPhase) : Bool :=
  match p with
  | .idle => false
  | .parsing _ => false
  | _ => true

theorem producerContinue_eq_stepP {s : State} (hmid : s.pphase.midOperation = true) : producerContinue s = stepP s := by
  unfold stepP
  split
  · rfl
  · split <;> rename_i hp
    · rw [hp] at hmid; cases hmid
    · rw [hp] at hmid; cases hmid
    · rfl

/-- Two states agree if they do once P's place is set to where the second one's P stands. -/
theorem eq_of_eq_toPPhase {s t : State} {p : PPhase} (hp : t.pphase = p) (h : s = toPPhase p t) : s = t := by
  rw [h, ← hp]
  rfl

section Run

variable {op : BitVec 4} {i : Instr} {s t : State} {n : Nat}

/-- After its acceptance the step of an operation is P's own. -/
theorem IsHostOp.exec_mid (h : IsHostOp op i) (hf : s.fault = none) (hmid : s.pphase.midOperation = true) :
    exec i s = stepP s := by
  obtain ⟨accept, hexec⟩ := h s
  have hidle : s.pphase ≠ .idle := fun hp => by rw [hp] at hmid; cases hmid
  rw [hexec, hostOp_busy op accept hf hidle, producerContinue_eq_stepP hmid]

theorem execTimes_succ (hexec : exec i s = .next t) : execTimes (n + 1) i s = execTimes n i t := by
  rw [execTimes, hexec]

theorem IsHostOp.execTimes_mid (h : IsHostOp op i) (hf : s.fault = none) (hmid : s.pphase.midOperation = true)
    (hstep : stepP s = .next t) : execTimes (n + 1) i s = execTimes n i t :=
  execTimes_succ ((h.exec_mid hf hmid).trans hstep)

/-! ### The parts that operations share -/

theorem stepP_vsyncCount {fieldflag : W32} (hs : s.pSignal = false) (hp : s.pphase = .vsyncCount fieldflag) :
    stepP s = vsyncCountStep fieldflag s := by
  simp [stepP, producerContinue, hs, hp]

theorem stepP_closeSignal (hs : s.pSignal = false) (hp : s.pphase = .closeSignal) : stepP s = closeSignalStep s := by
  simp [stepP, producerContinue, hs, hp]

/-- A free slot: the header is written and published next (40_ring.md R140). -/
theorem slotStep_of_free {header : Word} {after : AfterCommit} (hcap : 2 ≤ s.capacity)
    (hfree : (s.writePos + 1) % s.capacity ≠ s.readPos) :
    slotStep header after s = .next (toPPhase (.publish s.writePos 1 after) (ringWrite s.writePos header s)) := by
  have hguard : slotGuard s = true := decide_eq_true hfree
  rw [slotStep, if_neg (by omega), if_pos hguard]

/-- A commit takes two steps: the publish, and the wake decision (R137, R138). -/
theorem IsHostOp.commit {offset size : Nat} {after : AfterCommit} (h : IsHostOp op i) (hf : s.fault = none)
    (hs : s.pSignal = false) (hp : s.pphase = .publish offset size after) :
    execTimes (n + 2) i s = execTimes n i (afterCommit after
      { afterWake (Config.drawBusy s.draws) size s with
        writePos := (offset + size) % s.capacity
        resv := resvAfterPublish after s.resv
        pphase := .wakeDecision size after
        draws := s.draws + 1 }) := by
  refine Eq.trans (h.execTimes_mid hf (by rw [hp]; rfl) (stepP_publish hs hp)) ?_
  refine Eq.trans (h.execTimes_mid hf rfl (stepP_wakeDecision hs rfl)) ?_
  rw [wakeDecide_eq]
  rfl

/-- `enqueue_simple` with the slot free takes three steps: the slot write, and the commit of one slot (R140). -/
theorem IsHostOp.enqueue {header : Word} {after : AfterCommit} (h : IsHostOp op i) (hf : s.fault = none)
    (hs : s.pSignal = false) (hp : s.pphase = .slot header after) (hcap : 2 ≤ s.capacity)
    (hfree : (s.writePos + 1) % s.capacity ≠ s.readPos) :
    execTimes (n + 3) i s = execTimes n i (afterCommit after
      { enqueued (Config.drawBusy s.draws) header s with
        resv := resvAfterPublish after s.resv
        pphase := .wakeDecision 1 after
        draws := s.draws + 1 }) := by
  have hslot := (stepP_slot hs hp).trans (slotStep_of_free hcap hfree)
  exact Eq.trans (h.execTimes_mid hf (by rw [hp]; rfl) hslot) (h.commit hf hs rfl)

/-- An enqueue that nothing follows ends the operation. -/
theorem IsHostOp.enqueue_retire {header : Word} (h : IsHostOp op i) (hf : s.fault = none) (hs : s.pSignal = false)
    (hp : s.pphase = .slot header .retire) (hcap : 2 ≤ s.capacity)
    (hfree : (s.writePos + 1) % s.capacity ≠ s.readPos) :
    execTimes 3 i s = .next { enqueued (Config.drawBusy s.draws) header s with
      pphase := .idle
      port := s.port.tail
      replies := s.replies ++ [.done]
      draws := s.draws + 1 } :=
  h.enqueue hf hs hp hcap hfree

theorem State.waits.midOperation (hw : s.waits) : s.pphase.midOperation = true := by
  unfold State.waits at hw
  cases hp : s.pphase <;> rw [hp] at hw
  case idle => exact absurd hw id
  case parsing => exact absurd hw id
  all_goals rfl

/-- A failed evaluation at an await and its signal take two steps, and P stands at the await as before (R139). -/
theorem IsHostOp.await (h : IsHostOp op i) (hf : s.fault = none) (hs : s.pSignal = false) (hw : s.waits) :
    execTimes (n + 2) i s = execTimes n i { s with wakePending := true, tallyWords := 0, tallyCmds := 0 } := by
  have hmid := hw.midOperation
  refine Eq.trans (h.execTimes_mid hf hmid (stepP_of_waits hs hw)) ?_
  refine Eq.trans (h.execTimes_mid hf hmid (stepP_signal rfl)) ?_
  rw [signalWake, ← hs]
  rfl

end Run

/-! ### CLOSE (R202) -/

theorem isHostOp_close : IsHostOp 1 .hostClose := fun _ => ⟨_, rfl⟩

/-- The QUIT header is enqueued first. -/
theorem exec_hostClose {s : State} (h : s.acceptsOps) :
    exec .hostClose s = .next (toPPhase (.slot (headerWord 15 0 0 0) .close) s) :=
  hostOp_of_acceptsOps h (by decide)

/-- C has halted: the session ends. -/
theorem closeWaitStep_of_halted {s : State} (h : s.cstate = .halted) :
    closeWaitStep s = .next (retire .done { s with session := .closed, cstate := .off }) := if_pos h

/-! ### RESET, SEND_SIMPLE and SEND_POINTER (R203, R206, R208, R210) -/

/-- The records after `zero_paths_for` (R208). -/
def zeroedPaths (command d0 : W32) (s : State) : GifPaths :=
  if command = 5 then GifPaths.zero
  else if command = 4 then
    Vector.ofFn fun p : PathId => if d0.getLsbD p.val = true then GifPath.zero else s.path p
  else s.paths

theorem zeroPathsFor_eq (command d0 : W32) (s : State) :
    zeroPathsFor command d0 s = { s with paths := zeroedPaths command d0 s } := by
  unfold zeroPathsFor zeroedPaths
  split
  · rfl
  · split <;> rfl

theorem sendSimple_accepted {op : BitVec 4} {command d0 d1 d2 : W32} {s : State} (hlow : 4 ≤ command.toNat)
    (hrestart : command.toNat ≠ 14) :
    sendSimple op command d0 d1 d2 s = .next { s with
      paths := zeroedPaths command d0 s, pphase := .slot (headerWord command d0 d1 d2) .retire } := by
  have hfree : reservedCommand command = false := by simp [reservedCommand, hlow, hrestart]
  rw [sendSimple, hfree, if_neg Bool.false_ne_true, zeroPathsFor_eq]
  rfl

/-! ### POST_VSYNC (R209) -/

/-- Below the limit the counter goes up, and the enqueue of the VSYNC comes next. -/
theorem IsHostOp.countVsync {op : BitVec 4} {i : Instr} {s : State} {n : Nat} {fieldflag : W32} (h : IsHostOp op i)
    (hf : s.fault = none) (hs : s.pSignal = false) (hp : s.pphase = .vsyncWait fieldflag)
    (hbelow : s.vsyncQueued.toNat < 8) :
    execTimes (n + 2) i s = execTimes n i { s with
      vsyncQueued := s.vsyncQueued + 1, pphase := .slot (headerWord 3 fieldflag 0 0) .retire } := by
  have hwait := (stepP_vsyncWait hs hp).trans (if_pos hbelow)
  refine Eq.trans (h.execTimes_mid hf (by rw [hp]; rfl) hwait) ?_
  exact h.execTimes_mid hf rfl (stepP_vsyncCount hs rfl)

/-! ### SEND_DATA and WAIT_DRAIN (R205, R207) -/

/-- The pending reservation is published first. -/
theorem exec_hostSendData {s : State} {r : Reservation} (hidle : s.producerIdle) (hopen : s.session = .opened)
    (hresv : s.resv = some r) :
    exec .hostSendData s = .next (toPPhase (.publish r.offset r.size .sendData) s) := by
  refine Eq.trans (hostOp_accepted hidle (by simp [apiCheck, hopen, hresv])) ?_
  rw [hresv]

/-- No packet is left in the live region of an idle P with equal cursors (40_ring.md R38). -/
theorem liveHeaders_of_drained {s : State} (hp : s.pphase = .idle) (hd : s.readPos = s.writePos) :
    s.liveHeaders = some [] := by
  have hend : s.liveEnd = s.readPos := (liveEnd_of_not_marker (by rw [hp]; rfl)).trans hd.symm
  rw [State.liveHeaders, hend, if_pos le_rfl]
  unfold segmentHeaders
  exact if_pos rfl

/-! ### The statements -/

/-- Settles O28: a request is the operation of its own number, and the checks of R200 come before its acceptance. -/
theorem portChecks : Obligations.PortChecks := by
  intro s r
  have hop := isHostOp_decodeRequest r
  exact ⟨hop.exec_dead, fun hidle hmisuse => hop.exec_refused hidle (apiCheck_eq_false hmisuse)⟩

/-- Settles O31: the acceptance, the enqueue of QUIT and its own signal, and then the await of C's halt. -/
theorem closeCompletes : Obligations.CloseCompletes := by
  intro s
  refine ⟨fun hacc hcap hfree => ?send, fun hf hp hs => ⟨fun hhalt => ?halted, fun hrun => ?waiting⟩⟩
  case send =>
    have hexec := exec_hostClose hacc
    obtain ⟨⟨hf, -, hs⟩, -, -⟩ := hacc
    refine ⟨hexec, Eq.trans (execTimes_succ hexec) ?_⟩
    refine Eq.trans (isHostOp_close.enqueue hf hs rfl hcap hfree) ?_
    exact isHostOp_close.execTimes_mid hf rfl (stepP_closeSignal hs rfl)
  case halted =>
    rw [isHostOp_close.exec_mid hf (by rw [hp]; rfl), stepP_closeWait hs hp, closeWaitStep_of_halted hhalt]
    rfl
  case waiting => exact isHostOp_close.await hf hs (by rw [State.waits, hp]; exact hrun)

/-- Settles O32: the three operations differ in their op number only. -/
theorem simplePackets : Obligations.SimplePackets := by
  intro s i command d0 d1 d2 hacc hcap hfree hlow hrestart hi
  have hsend : ∃ op, IsHostOp op i ∧ exec i s = sendSimple op command d0 d1 d2 s := by
    rcases hi with ⟨rfl, rfl, rfl, rfl, rfl⟩ | rfl | ⟨ptr, rfl, rfl, rfl⟩
    · exact ⟨2, fun _ => ⟨_, rfl⟩, hostOp_of_acceptsOps hacc (by decide)⟩
    · exact ⟨5, fun _ => ⟨_, rfl⟩, hostOp_of_acceptsOps hacc (by decide)⟩
    · exact ⟨6, fun _ => ⟨_, rfl⟩, hostOp_of_acceptsOps hacc (by decide)⟩
  obtain ⟨op, hop, hexec⟩ := hsend
  have haccept := hexec.trans (sendSimple_accepted hlow hrestart)
  obtain ⟨⟨hf, -, hs⟩, -, -⟩ := hacc
  exact ⟨haccept, Eq.trans (execTimes_succ haccept) (hop.enqueue_retire hf hs rfl hcap hfree)⟩

/-- Settles O36: the acceptance and one commit. -/
theorem sendDataCompletes : Obligations.SendDataCompletes := by
  intro s r hidle hopen hresv
  have hop : IsHostOp 4 .hostSendData := fun _ => ⟨_, rfl⟩
  have hexec := exec_hostSendData hidle hopen hresv
  obtain ⟨hf, -, hs⟩ := hidle
  refine ⟨hexec, Eq.trans (execTimes_succ hexec) ?_⟩
  refine Eq.trans (hop.commit hf hs rfl) ?_
  rfl

/-- Settles O37: the acceptance, and then the drain's end or its await. -/
theorem waitDrain : Obligations.WaitDrain := by
  intro s hidle hopen
  have hop : IsHostOp 7 .hostWaitDrain := fun _ => ⟨_, rfl⟩
  have hexec : exec .hostWaitDrain s = .next (toPPhase (.drain .retire) s) :=
    hostOp_accepted hidle (by simp [apiCheck, hopen])
  obtain ⟨hf, hp, hs⟩ := hidle
  refine ⟨hexec, fun hd => ⟨liveHeaders_of_drained hp hd, ?drained⟩, fun hd => ?waiting⟩
  case drained =>
    refine Eq.trans (execTimes_succ hexec) ?_
    refine Eq.trans (hop.execTimes_mid hf rfl (Eq.trans (stepP_drain hs rfl) (if_pos hd))) ?_
    exact next_eq_next.mpr (eq_of_eq_toPPhase hp rfl)
  case waiting => exact Eq.trans (execTimes_succ hexec) (hop.await hf hs hd)

/-- Settles O38: the counter's limit is an await; below it the count comes before the enqueue. -/
theorem postVsync : Obligations.PostVsync := by
  intro s fieldflag hacc
  have hop : IsHostOp 8 (.hostPostVsync fieldflag) := fun _ => ⟨_, rfl⟩
  have hexec : exec (.hostPostVsync fieldflag) s = .next (toPPhase (.vsyncWait fieldflag) s) :=
    hostOp_of_acceptsOps hacc (by decide)
  obtain ⟨⟨hf, hp, hs⟩, -, -⟩ := hacc
  refine ⟨hexec, fun hbelow hcap hfree => ?counted, fun hlimit => ?waiting⟩
  case counted =>
    refine Eq.trans (execTimes_succ hexec) ?_
    refine Eq.trans (hop.countVsync hf hs rfl hbelow) ?_
    refine Eq.trans (hop.enqueue_retire hf hs rfl hcap hfree) ?_
    exact next_eq_next.mpr (eq_of_eq_toPPhase hp rfl)
  case waiting => exact Eq.trans (execTimes_succ hexec) (hop.await hf hs hlimit)

end Sys2Proof.Machine
end

section
/-! The ring commands as C runs them (43_consumer.md R243 to R264): the dispatch of a fetched command, the steps that go on
with it, the advance that ends most of them, and each command run to its end. -/

namespace Sys2Proof.Machine

/-! ### A dispatched command goes on by C's steps -/

/-- The instruction is a ring command: its step is a dispatch while C stands at the fetched header, and C's own step after
that. -/
def IsRingCommand (i : Instr) : Prop := ∀ s, ∃ dispatch, exec i s = ringCommand s dispatch

/-- C is past the dispatch of a command, in a live block. -/
abbrev State.midCommand (s : State) : Prop := s.fault = none ∧ s.cstate = .draining ∧ s.cphase ≠ .dispatch

section Run

variable {i : Instr} {s t : State} {k n : Nat}

theorem ringCommand_mid (dispatch : Result) (h : s.midCommand) : ringCommand s dispatch = consumerContinue s := by
  obtain ⟨hf, hc, hp⟩ := h
  rw [ringCommand, alive_of_live hf, hc]
  dsimp only
  split
  · exact absurd ‹_› hp
  · rfl

/-- After its dispatch the step of a command is C's own. -/
theorem IsRingCommand.exec_mid (h : IsRingCommand i) (hm : s.midCommand) : exec i s = consumerContinue s := by
  obtain ⟨dispatch, hexec⟩ := h s
  rw [hexec, ringCommand_mid dispatch hm]

theorem IsRingCommand.execTimes_mid (h : IsRingCommand i) (hm : s.midCommand) (hstep : consumerContinue s = .next t) :
    execTimes (n + 1) i s = execTimes n i t :=
  execTimes_succ ((h.exec_mid hm).trans hstep)

/-! ### C's step at each of its places (R246, R248, R261) -/

theorem consumerContinue_advance (hp : s.cphase = .advance k) :
    consumerContinue s = .next { s with readPos := (s.readPos + k) % s.capacity, cphase := .top } := by
  rw [consumerContinue, hp]
  rfl

theorem consumerContinue_restartStore (hp : s.cphase = .restartStore) :
    consumerContinue s = .next { s with readPos := 0, cphase := .restartRelease } := by
  rw [consumerContinue, hp]
  rfl

theorem consumerContinue_restartRelease (hp : s.cphase = .restartRelease) :
    consumerContinue s = .next { s with restartLock := .free, cphase := .top } := by
  rw [consumerContinue, hp]
  rfl

theorem consumerContinue_quitHalt (hp : s.cphase = .quitHalt) :
    consumerContinue s = .next { s with busy := false, cstate := .halted, cphase := .top } := by
  rw [consumerContinue, hp]
  rfl

/-- A dispatch that leaves the advance to do: the command is complete after one more step. -/
theorem IsRingCommand.advances (h : IsRingCommand i) (hexec : exec i s = .next t) (hf : t.fault = none)
    (hc : t.cstate = .draining) (hp : t.cphase = .advance k) :
    execTimes 2 i s = .next { t with readPos := (t.readPos + k) % t.capacity, cphase := .top } := by
  have hmid : t.midCommand := ⟨hf, hc, by simp [hp]⟩
  exact Eq.trans (execTimes_succ hexec) (h.execTimes_mid hmid (consumerContinue_advance hp))

end Run

/-! ### The path transfers (R243 to R245, R262) -/

section Transfer

variable {p : PathId} {size : W32} {s : State}

theorem isRingCommand_transferInstr : IsRingCommand (transferInstr p size) := by
  obtain rfl | rfl | rfl := p.cases_eq <;> exact fun _ => ⟨_, rfl⟩

theorem exec_transferInstr (hd : s.atDispatch) : exec (transferInstr p size) s = transfer p size s := by
  obtain rfl | rfl | rfl := p.cases_eq <;> exact ringCommand_dispatch _ hd

/-- `check_span` fails: the fault, and C halts. -/
theorem transfer_overtakes (hf : s.fault = none) (hover : s.capacity < s.readPos + 1 + size.toNat) :
    transfer p size s = .next { s with
      fault := some { code := .errOvertake, agent := .c, info := BitVec.ofNat 64 s.readPos }
      cstate := .halted } := by
  have hspan : spanFits size.toNat s = false := decide_eq_false (Nat.not_le.mpr hover)
  rw [transfer, hspan, if_neg Bool.false_ne_true, raise_live hf]

end Transfer

/-! ### The memory writes (R253 to R257) -/

section MemoryWrite

variable {off : W32} {n : Nat} {v : W64} {s : State}

theorem memFits_iff : memFits off.toNat n s = true ↔ off.toNat % n = 0 ∧ off.toNat + n ≤ s.cfg.mirrorBytes := by
  simp [memFits]

theorem memoryWrite_of_fits (h : off.toNat % n = 0 ∧ off.toNat + n ≤ s.cfg.mirrorBytes) :
    memoryWrite off n v s =
      .next { s with mirror := (memWrite off.toNat n v s).mirror, cphase := .advance 1 } := by
  rw [memoryWrite, if_pos (memFits_iff.mpr h)]
  rfl

/-- `check_mem` fails: the fault, and C halts. -/
theorem memoryWrite_of_not_fits (hf : s.fault = none)
    (h : ¬ (off.toNat % n = 0 ∧ off.toNat + n ≤ s.cfg.mirrorBytes)) :
    memoryWrite off n v s = .next { s with
      fault := some { code := .errMemwrite, agent := .c, info := off.setWidth 64 }, cstate := .halted } := by
  rw [memoryWrite, if_neg (memFits_iff.not.mpr h), raise_live hf]

/-- The four commands differ in the number of bytes and in the width of the value only. -/
theorem memwrite_dispatches {i : Instr} (hd : s.atDispatch)
    (hi : (∃ x : BitVec 8, i = .memwrite8 off x ∧ n = 1 ∧ v = x.setWidth 64) ∨
      (∃ x : BitVec 16, i = .memwrite16 off x ∧ n = 2 ∧ v = x.setWidth 64) ∨
      (∃ x : BitVec 32, i = .memwrite32 off x ∧ n = 4 ∧ v = x.setWidth 64) ∨
      (i = .memwrite64 off v ∧ n = 8)) :
    IsRingCommand i ∧ exec i s = memoryWrite off n v s := by
  rcases hi with ⟨x, rfl, rfl, rfl⟩ | ⟨x, rfl, rfl, rfl⟩ | ⟨x, rfl, rfl, rfl⟩ | ⟨rfl, rfl⟩
  case inr.inr.inr =>
    have hv : v.setWidth 64 = v := BitVec.setWidth_eq v
    refine ⟨fun _ => ⟨_, rfl⟩, Eq.trans (ringCommand_dispatch _ hd) ?_⟩
    exact congrArg (memoryWrite off 8 · s) hv
  all_goals exact ⟨fun _ => ⟨_, rfl⟩, ringCommand_dispatch _ hd⟩

end MemoryWrite

/-! ### RESTART and UNRECOGNISED (R246, R264) -/

theorem exec_restart_of_free {s : State} (hd : s.atDispatch) (hfree : s.restartLock = .free) :
    exec .restart s = .next { s with restartLock := .heldC, cphase := .restartStore } := by
  refine Eq.trans (ringCommand_dispatch _ hd) ?_
  rw [hfree]
  rfl

/-- C has no step at a lock that is not Free: its state stays. -/
theorem exec_restart_of_not_free {s : State} (hd : s.atDispatch) (hheld : s.restartLock ≠ .free) :
    exec .restart s = .next s := by
  refine Eq.trans (ringCommand_dispatch _ hd) ?_
  split
  · exact absurd ‹_› hheld
  · rfl

theorem exec_unrecognised {s : State} (command : W32) (hd : s.atDispatch) :
    exec (.unrecognised command) s =
      if s.cfg.strict then
        .next { s with
          fault := some { code := .errUnknownCmd, agent := .c, info := command.setWidth 64 }, cstate := .halted }
      else .next { s with unkCmdSeen := true, cphase := .advance 1 } := by
  refine Eq.trans (ringCommand_dispatch _ hd) ?_
  obtain ⟨hf, -, -⟩ := hd
  rw [raise_live hf]
  rfl

/-! ### The statements -/

/-- Settles O11: the dispatch checks and writes, and the bytes it wrote are those of `memWrite_read`. -/
theorem memoryWrites : Obligations.MemoryWrites := by
  intro s i off n v hd hi
  obtain ⟨hcmd, hexec⟩ := memwrite_dispatches hd hi
  obtain ⟨hf, hc, -⟩ := hd
  refine ⟨fun hfits => ?_, fun hmiss => hexec.trans (memoryWrite_of_not_fits hf hmiss)⟩
  have hwrite := hexec.trans (memoryWrite_of_fits hfits)
  exact ⟨_, hwrite, hcmd.advances hwrite hf hc rfl, fun a => memWrite_read off.toNat n a v s⟩

/-- Settles O8: both sides of `check_span`. -/
theorem pathTransfers : Obligations.PathTransfers := by
  intro s p size hd
  have hexec := exec_transferInstr (p := p) (size := size) hd
  obtain ⟨hf, hc, -⟩ := hd
  refine ⟨fun words hfit hread => ?_, fun hover => hexec.trans (transfer_overtakes hf hover)⟩
  have hcall := hexec.trans (transfer_completes hfit hread)
  exact ⟨hcall, isRingCommand_transferInstr.advances hcall hf hc rfl⟩

/-- Settles O10: whatever the call, the dispatch is that call and the advance of one slot. -/
theorem controlCommandsForward : Obligations.ControlCommandsForward := by
  intro s i calls hd hi
  have hforward : IsRingCommand i ∧
      exec i s = .next { s with backendTrace := s.backendTrace ++ calls, cphase := .advance 1 } := by
    rcases hi with ⟨_, rfl, rfl⟩ | ⟨rfl, rfl⟩ | ⟨_, rfl, rfl⟩ | ⟨_, _, rfl, rfl⟩ | ⟨_, _, rfl, rfl⟩ | ⟨rfl, rfl⟩
    case inr.inr.inr.inr.inr =>
      rw [List.append_nil]
      exact ⟨fun _ => ⟨_, rfl⟩, ringCommand_dispatch _ hd⟩
    all_goals exact ⟨fun _ => ⟨_, rfl⟩, ringCommand_dispatch _ hd⟩
  obtain ⟨hcmd, hexec⟩ := hforward
  obtain ⟨hf, hc, -⟩ := hd
  exact ⟨hexec, hcmd.advances hexec hf hc rfl⟩

/-- Settles O12: the acquire is the dispatch, and the store and the release are C's next two steps. -/
theorem restartCommand : Obligations.RestartCommand := by
  intro s hd
  have hcmd : IsRingCommand .restart := fun _ => ⟨_, rfl⟩
  refine ⟨fun hfree => ?_, exec_restart_of_not_free hd⟩
  have hacquire := exec_restart_of_free hd hfree
  obtain ⟨hf, hc, -⟩ := hd
  have hstore {n : Nat} : execTimes (n + 2) .restart s =
      execTimes n .restart { s with restartLock := .heldC, readPos := 0, cphase := .restartRelease } := by
    refine Eq.trans (execTimes_succ hacquire) ?_
    exact hcmd.execTimes_mid ⟨hf, hc, nofun⟩ (consumerContinue_restartStore rfl)
  refine ⟨hacquire, hstore, hstore.trans ?_⟩
  exact hcmd.execTimes_mid ⟨hf, hc, nofun⟩ (consumerContinue_restartRelease rfl)

/-- Settles O13: the call is the dispatch, and the halt is C's next step. -/
theorem quitHalts : Obligations.QuitHalts := by
  intro s hd
  have hcmd : IsRingCommand .quit := fun _ => ⟨_, rfl⟩
  have hexec : exec .quit s = .next { s with backendTrace := s.backendTrace ++ [.close], cphase := .quitHalt } :=
    ringCommand_dispatch _ hd
  obtain ⟨hf, hc, -⟩ := hd
  refine ⟨hexec, Eq.trans (execTimes_succ hexec) ?_⟩
  exact hcmd.execTimes_mid ⟨hf, hc, nofun⟩ (consumerContinue_quitHalt rfl)

/-- Settles O14: the two values of STRICT. That the id is 16 or more is what the decoder answers `unrecognised` for; the
dispatch does not look at it again. -/
theorem unrecognisedCommand : Obligations.UnrecognisedCommand := by
  intro s command hd _
  have hcmd : IsRingCommand (.unrecognised command) := fun _ => ⟨_, rfl⟩
  have hexec := exec_unrecognised command hd
  obtain ⟨hf, hc, -⟩ := hd
  refine ⟨fun hstrict => hexec.trans (if_pos hstrict), fun hlax => ?_⟩
  have hskip := hexec.trans (if_neg (by simp [hlax]))
  exact ⟨hskip, hcmd.advances hskip hf hc rfl⟩

end Sys2Proof.Machine
end

section
/-! The savestate operations as P runs them (44_savestate.md R281, R282): the session does not decide whether they are
accepted, with a session they are a drain and what follows it, and with none they end at their acceptance. -/

namespace Sys2Proof.Machine

/-! ### An operation that ends -/

/-- An operation that ends leaves an idle P idle: the request is taken and the result is written, nothing else. -/
theorem retire_of_idle {s : State} (reply : Reply) (hp : s.pphase = .idle) :
    retire reply s = { s with port := s.port.tail, replies := s.replies ++ [reply] } :=
  eq_of_eq_toPPhase hp rfl

/-- What follows a drain ends the operation, so P's place before it is forgotten. -/
theorem afterDrain_toPPhase (after : AfterDrain) (p : PPhase) (s : State) :
    afterDrain after (toPPhase p s) = afterDrain after s := by
  cases after <;> rfl

/-! ### An operation that drains (42_producer.md R207) -/

/-- The ring is drained: P goes on with what follows. -/
theorem drainStep_of_eq {after : AfterDrain} {s : State} (h : s.readPos = s.writePos) :
    drainStep after s = .next (afterDrain after s) := if_pos h

section Drain

variable {op : BitVec 4} {i : Instr} {s : State} {after : AfterDrain}

/-- With the cursors equal the second step of a draining operation is what follows the drain. -/
theorem IsHostOp.execTimes_drained (h : IsHostOp op i) (hidle : s.producerIdle)
    (hexec : exec i s = .next (toPPhase (.drain after) s)) (hd : s.readPos = s.writePos) :
    execTimes 2 i s = .next (afterDrain after s) := by
  obtain ⟨hf, -, hs⟩ := hidle
  have hstep : stepP (toPPhase (.drain after) s) = .next (afterDrain after s) := calc
    _ = drainStep after (toPPhase (.drain after) s) := stepP_drain hs rfl
    _ = .next (afterDrain after (toPPhase (.drain after) s)) := drainStep_of_eq hd
    _ = .next (afterDrain after s) := by rw [afterDrain_toPPhase]
  exact (execTimes_succ hexec).trans (h.execTimes_mid hf rfl hstep)

/-- With the cursors unequal it signals, and stands at the drain as before. -/
theorem IsHostOp.execTimes_undrained (h : IsHostOp op i) (hidle : s.producerIdle)
    (hexec : exec i s = .next (toPPhase (.drain after) s)) (hd : s.readPos ≠ s.writePos) :
    execTimes 3 i s = .next { s with
      pphase := .drain after, wakePending := true, tallyWords := 0, tallyCmds := 0 } := by
  obtain ⟨hf, -, hs⟩ := hidle
  exact (execTimes_succ hexec).trans (h.await hf hs hd)

end Drain

/-! ### The acceptance (R200, R281, R282) -/

/-- The savestate operations need no session: a pending reservation is the only ground to refuse them. -/
theorem apiCheck_savestate {op : BitVec 4} {s : State} (hop : op = 9 ∨ op = 10) : apiCheck op s = s.resv.isNone := by
  rcases hop with rfl | rfl <;> simp [apiCheck]

section Acceptance

variable {s : State}

/-- With nothing pending an idle P accepts a savestate operation, whatever the session. -/
theorem hostOp_savestate {op : BitVec 4} {accept : Result} (hidle : s.producerIdle) (hresv : s.resv = none)
    (hop : op = 9 ∨ op = 10) : hostOp op s accept = accept :=
  hostOp_accepted hidle ((apiCheck_savestate hop).trans (Option.isNone_iff_eq_none.mpr hresv))

theorem exec_hostSavestateSave_opened (hidle : s.producerIdle) (hresv : s.resv = none) (hopen : s.session = .opened) :
    exec .hostSavestateSave s = .next (toPPhase (.drain .save) s) :=
  (hostOp_savestate hidle hresv (.inl rfl)).trans (by rw [hopen])

theorem exec_hostSavestateSave_closed (hidle : s.producerIdle) (hresv : s.resv = none) (hclosed : s.session = .closed) :
    exec .hostSavestateSave s = .next (retire (.image (Config.snapshotCodec.encode GifPaths.zero)) s) :=
  (hostOp_savestate hidle hresv (.inl rfl)).trans (by rw [hclosed])

theorem exec_hostSavestateLoad_opened (image : List Byte) (hidle : s.producerIdle) (hresv : s.resv = none)
    (hopen : s.session = .opened) :
    exec (.hostSavestateLoad image) s = .next (toPPhase (.drain (.load image)) s) :=
  (hostOp_savestate hidle hresv (.inr rfl)).trans (by rw [hopen])

theorem exec_hostSavestateLoad_closed (image : List Byte) (hidle : s.producerIdle) (hresv : s.resv = none)
    (hclosed : s.session = .closed) :
    exec (.hostSavestateLoad image) s = .next (retire .done { s with paths := GifPaths.zero }) :=
  (hostOp_savestate hidle hresv (.inr rfl)).trans (by rw [hclosed])

end Acceptance

/-! ### The statements -/

/-- Settles O39: the image of the records follows the drain, and with no session the acceptance answers that of zeros. -/
theorem savestateSave : Obligations.SavestateSave := by
  intro s hidle hresv
  have hop : IsHostOp 9 .hostSavestateSave := fun _ => ⟨_, rfl⟩
  have haccept := exec_hostSavestateSave_opened hidle hresv
  have ⟨_, hp, _⟩ := hidle
  refine ⟨fun hopen hd => ⟨haccept hopen, ?drained⟩, fun hopen hd => ?waiting, fun hclosed => ?closed⟩
  case drained => rw [hop.execTimes_drained hidle (haccept hopen) hd, afterDrain, retire_of_idle _ hp]
  case waiting => exact hop.execTimes_undrained hidle (haccept hopen) hd
  case closed => rw [exec_hostSavestateSave_closed hidle hresv hclosed, retire_of_idle _ hp]

/-- Settles O40: the decoded records follow the drain, and with no session the acceptance zeroes the records. -/
theorem savestateLoad : Obligations.SavestateLoad := by
  intro s image hidle hresv
  have hop : IsHostOp 10 (.hostSavestateLoad image) := fun _ => ⟨_, rfl⟩
  have haccept := exec_hostSavestateLoad_opened image hidle hresv
  have ⟨_, hp, _⟩ := hidle
  refine ⟨fun hopen hd => ⟨haccept hopen, ?drained⟩, fun hopen hd => ?waiting, fun hclosed => ?closed⟩
  case drained => rw [hop.execTimes_drained hidle (haccept hopen) hd, afterDrain, retire_of_idle]; exact hp
  case waiting => exact hop.execTimes_undrained hidle (haccept hopen) hd
  case closed => rw [exec_hostSavestateLoad_closed image hidle hresv hclosed, retire_of_idle]; exact hp

end Sys2Proof.Machine
end

section
/-! The step that raises a fault (60_exceptions.md R290 to R292): each agent's step either leaves the latch empty or is
exactly `raise`, run by that agent on the state the step began in. -/

namespace Sys2Proof.Machine

/-! ### The parser raises nothing -/

theorem continueParse_fault (run : ParseRun) (s : State) : (continueParse run s).fault = s.fault := by
  rw [continueParse_eq]
  rfl

theorem tagItem_fault {flg : BitVec 2} {f : TagFields} {s t : State} (h : tagItem flg f s = .next t) :
    t.fault = none := by
  obtain ⟨hf, run, -, hb⟩ := tagItem_next h
  split at hb <;> subst hb
  · exact hf
  · rwa [continueParse_fault]

theorem packedItem_fault {k : Option Sfl} {w0 w1 : W32} {s t : State} (h : packedItem k w0 w1 s = .next t) :
    t.fault = none := by
  obtain ⟨hf, run, -, -, rfl⟩ := packedItem_next h
  rwa [continueParse_fault, raiseIf_eq]

theorem reglistItem_fault {k : Option Sfl} {u : W64} {s t : State} (h : reglistItem k u s = .next t) :
    t.fault = none := by
  obtain ⟨hf, run, -, -, rfl⟩ := reglistItem_next h
  rwa [continueParse_fault, raiseIf_eq]

theorem imageItem_fault {s t : State} (h : imageItem s = .next t) : t.fault = none := by
  obtain ⟨hf, run, -, -, rfl⟩ := imageItem_next h
  rwa [continueParse_fault]

/-- A tag word is the tag item of its own FLG code (30_encoding.md R103). -/
theorem exec_decodeTag (w : Word) (s : State) : exec (decodeTag w) s = tagItem (tagFlg w) (tagFields w) s := by
  have hcodes : ∀ f : BitVec 2, f = 0 ∨ f = 1 ∨ f = 2 ∨ f = 3 := by decide
  obtain h | h | h | h := hcodes (tagFlg w) <;> rw [decodeTag, h] <;> rfl

/-- Whatever row a unit of a REGLIST tag belongs to, it is one REGLIST item (41_gifpath.md R167). -/
theorem exec_decodeReglist (rl : Option (Fin 14)) (sel : Byte) (u : ReglistUnit) (s : State) :
    exec (decodeReglist rl sel u) s = reglistItem (reglistSfl rl sel) u s := by
  unfold decodeReglist
  cases reglistSfl rl sel with
  | none => rfl
  | some k => cases k <;> rfl

theorem exec_parserFetch_fault {run : ParseRun} {i : Instr} {s t : State} (hi : parserFetch run s = some i)
    (h : exec i s = .next t) : t.fault = none := by
  unfold parserFetch at hi
  split at hi
  · cases hi
  · cases hi
    unfold gifCode at h
    split at h
    · exact tagItem_fault ((exec_decodeTag _ s).symm.trans h)
    · split at h
      · exact packedItem_fault ((exec_decodePacked _ _ s).symm.trans h)
      · exact reglistItem_fault ((exec_decodeReglist _ _ _ s).symm.trans h)
      · exact imageItem_fault h
      · exact imageItem_fault h

/-! ### Results that leave the latch empty or are a `raise` -/

/-- Any next state of this result has no fault, or is what `raise` by agent `a` makes of `s`. -/
def FaultsByRaise (a : Agent) (s : State) (r : Result) : Prop :=
  ∀ t, r = .next t → t.fault = none ∨ ∃ code info, raise a code info s = .next t

theorem faultsByRaise_next {a : Agent} {s t : State} (h : t.fault = none) : FaultsByRaise a s (.next t) := by
  rintro _ ⟨⟩
  exact .inl h

theorem faultsByRaise_raise (a : Agent) (code : ErrCode) (info : W64) (s : State) :
    FaultsByRaise a s (raise a code info s) :=
  fun _ h => .inr ⟨code, info, h⟩

section Live

variable {s : State}

/-- `raise` in a live block, whoever runs it: the record, and `cstate` if that is C (R291, R292). -/
theorem raise_eq_next (hf : s.fault = none) (a : Agent) (code : ErrCode) (info : W64) :
    raise a code info s = .next { s with
      fault := some { code := code, agent := a, info := info }
      cstate := if a = .c then .halted else s.cstate } := by
  rw [raise_live hf]
  cases a <;> rfl

/-! ### P's steps -/

theorem faultsByRaise_hostOp (op : BitVec 4) {accept : Result} (hi : s.pphase = .idle)
    (h : FaultsByRaise .p s accept) : FaultsByRaise .p s (hostOp op s accept) := by
  intro t ht
  obtain ⟨-, ⟨-, -, ha⟩ | ⟨-, -, hr⟩ | ⟨hbusy, -⟩⟩ := hostOp_next ht
  · exact h t ha
  · exact .inr ⟨_, _, hr⟩
  · exact absurd hi hbusy

theorem openWith_fault (ok : Bool) (hf : s.fault = none) : (openWith ok s).fault = none := by
  cases ok with
  | true => rfl
  | false => exact hf

theorem zeroPathsFor_fault (command d0 : W32) (s : State) : (zeroPathsFor command d0 s).fault = s.fault := by
  rw [zeroPathsFor_eq]

theorem faultsByRaise_sendSimple (hf : s.fault = none) (op : BitVec 4) (command d0 d1 d2 : W32) :
    FaultsByRaise .p s (sendSimple op command d0 d1 d2 s) := by
  unfold sendSimple
  split
  · exact faultsByRaise_raise _ _ _ _
  · exact faultsByRaise_next ((zeroPathsFor_fault command d0 s).trans hf)

/-- The acceptance of a request, whatever the request. -/
theorem faultsByRaise_decodeRequest (hf : s.fault = none) (hi : s.pphase = .idle) (r : HostRequest) :
    FaultsByRaise .p s (exec (decodeRequest r) s) := by
  unfold decodeRequest
  split
  case h_1 => exact faultsByRaise_hostOp 0 hi (faultsByRaise_next (openWith_fault _ hf))
  case h_3 => exact faultsByRaise_hostOp 2 hi (faultsByRaise_sendSimple hf _ _ _ _ _)
  case h_4 =>
    refine faultsByRaise_hostOp 3 hi ?_
    split
    · exact faultsByRaise_raise _ _ _ _
    · rw [startParse_eq]
      exact faultsByRaise_next hf
  case h_5 =>
    refine faultsByRaise_hostOp 4 hi ?_
    split
    · exact faultsByRaise_raise _ _ _ _
    · exact faultsByRaise_next hf
  case h_6 => exact faultsByRaise_hostOp 5 hi (faultsByRaise_sendSimple hf _ _ _ _ _)
  case h_7 => exact faultsByRaise_hostOp 6 hi (faultsByRaise_sendSimple hf _ _ _ _ _)
  case h_10 =>
    refine faultsByRaise_hostOp 9 hi ?_
    split <;> exact faultsByRaise_next hf
  case h_11 =>
    refine faultsByRaise_hostOp 10 hi ?_
    split <;> exact faultsByRaise_next hf
  case h_2 | h_8 | h_9 => exact faultsByRaise_hostOp _ hi (faultsByRaise_next hf)
  all_goals exact faultsByRaise_hostOp _ hi (faultsByRaise_raise _ _ _ _)

theorem faultsByRaise_reserveStep (hf : s.fault = none) (pkt : Packet) : FaultsByRaise .p s (reserveStep pkt s) := by
  intro t h
  obtain ⟨-, hraise⟩ | ⟨-, rfl⟩ | ⟨-, rfl⟩ | ⟨-, rfl⟩ := reserveStep_next h
  · exact .inr ⟨_, _, hraise⟩
  all_goals exact .inl hf

theorem faultsByRaise_slotStep (hf : s.fault = none) (header : Word) (after : AfterCommit) :
    FaultsByRaise .p s (slotStep header after s) := by
  intro t h
  obtain ⟨-, hraise⟩ | ⟨-, -, rfl⟩ | ⟨-, -, rfl⟩ := slotStep_next h
  · exact .inr ⟨_, _, hraise⟩
  all_goals exact .inl hf

theorem afterCommit_fault (after : AfterCommit) (s : State) : (afterCommit after s).fault = s.fault := by
  cases after <;> rfl

theorem afterDrain_fault (after : AfterDrain) (s : State) : (afterDrain after s).fault = s.fault := by
  cases after <;> rfl

/-- A step of P in the operation it runs: outside the parser only the two capacity checks raise (40_ring.md R131). -/
theorem faultsByRaise_producerContinue (hf : s.fault = none) (hparse : ∀ run, s.pphase ≠ .parsing run) :
    FaultsByRaise .p s (producerContinue s) := by
  unfold producerContinue
  split
  · exact faultsByRaise_next hf
  · split
    case h_2 run hp => exact absurd hp (hparse run)
    case h_3 => exact faultsByRaise_reserveStep hf _
    case h_4 =>
      unfold lockAcquireStep
      split <;> exact faultsByRaise_next hf
    case h_8 => exact faultsByRaise_slotStep hf _ _
    case h_10 => exact faultsByRaise_next (by rwa [afterCommit_fault, wakeDecide_fault])
    case h_11 =>
      unfold vsyncWaitStep
      split <;> exact faultsByRaise_next hf
    case h_14 =>
      unfold closeWaitStep
      split <;> exact faultsByRaise_next hf
    case h_15 =>
      unfold drainStep
      split
      · exact faultsByRaise_next (by rwa [afterDrain_fault])
      · exact faultsByRaise_next hf
    all_goals exact faultsByRaise_next hf

theorem faultsByRaise_stepP (hf : s.fault = none) : FaultsByRaise .p s (stepP s) := by
  unfold stepP
  split
  case isTrue hs =>
    rw [producerContinue_signal hs]
    exact faultsByRaise_next hf
  case isFalse =>
    split
    case h_1 hi =>
      split
      · exact faultsByRaise_next hf
      · exact faultsByRaise_decodeRequest hf hi _
    case h_2 =>
      split
      · exact fun t h => .inl (exec_parserFetch_fault ‹_› h)
      · exact faultsByRaise_next hf
    case h_3 hparse => exact faultsByRaise_producerContinue hf hparse

/-! ### C's steps -/

theorem faultsByRaise_ringCommand {body : Result} (hd : s.cphase = .dispatch) (h : FaultsByRaise .c s body) :
    FaultsByRaise .c s (ringCommand s body) := by
  intro t ht
  obtain ⟨-, -, ⟨-, hb⟩ | ⟨hne, -⟩⟩ := ringCommand_next ht
  · exact h t hb
  · exact absurd hd hne

theorem faultsByRaise_transfer (hf : s.fault = none) (p : PathId) (size : W32) :
    FaultsByRaise .c s (transfer p size s) := by
  intro t ht
  obtain ⟨-, _, -, rfl⟩ | ⟨-, hraise⟩ := transfer_next ht
  · exact .inl hf
  · exact .inr ⟨_, _, hraise⟩

theorem faultsByRaise_memoryWrite (hf : s.fault = none) (off : W32) (n : Nat) (v : W64) :
    FaultsByRaise .c s (memoryWrite off n v s) := by
  intro t ht
  obtain ⟨-, -, rfl⟩ | ⟨-, hraise⟩ := memoryWrite_next ht
  · exact .inl hf
  · exact .inr ⟨_, _, hraise⟩

/-- The dispatch of a header: only the transfers, the memory writes and an unrecognised id raise (R290). -/
theorem faultsByRaise_decodeHeader (hf : s.fault = none) (hd : s.cphase = .dispatch) (w : Word) :
    FaultsByRaise .c s (exec (decodeHeader w) s) := by
  unfold decodeHeader
  dsimp only
  split
  case h_1 | h_2 | h_3 => exact faultsByRaise_ringCommand hd (faultsByRaise_transfer hf _ _)
  case h_8 | h_9 | h_10 | h_11 => exact faultsByRaise_ringCommand hd (faultsByRaise_memoryWrite hf _ _ _)
  case h_15 =>
    refine faultsByRaise_ringCommand hd ?_
    split <;> exact faultsByRaise_next hf
  case h_17 =>
    refine faultsByRaise_ringCommand hd ?_
    split
    · exact faultsByRaise_raise _ _ _ _
    · exact faultsByRaise_next hf
  all_goals exact faultsByRaise_ringCommand hd (faultsByRaise_next hf)

theorem consumerContinue_fault {t : State} (h : consumerContinue s = .next t) : t.fault = s.fault := by
  obtain ⟨_, -, rfl⟩ | ⟨-, rfl⟩ | ⟨-, rfl⟩ | ⟨-, rfl⟩ | ⟨-, rfl⟩ | ⟨-, rfl⟩ | ⟨-, rfl⟩ := consumerContinue_next h <;>
    rfl

/-- C raises only where it dispatches a header. -/
theorem stepC_raises {t : State} (hf : s.fault = none) (h : stepC s = .next t) :
    t.fault = none ∨ (s.cphase = .dispatch ∧ ∃ code info, raise .c code info s = .next t) := by
  unfold stepC at h
  split at h
  case h_1 | h_2 => cases h; exact .inl hf
  case h_3 =>
    unfold consumerWait at h
    split at h <;> cases h <;> exact .inl hf
  case h_4 =>
    split at h
    case h_1 =>
      unfold consumerTest at h
      split at h <;> cases h <;> exact .inl hf
    case h_2 => cases h; exact .inl hf
    case h_3 hd =>
      split at h
      · rename_i hfetch
        obtain ⟨w, -, rfl⟩ := Option.map_eq_some_iff.mp hfetch
        exact (faultsByRaise_decodeHeader hf hd w t h).imp_right fun hraise => ⟨hd, hraise⟩
      · cases h
    case h_4 =>
      split at h
      · cases h
        exact .inl hf
      · exact .inl ((consumerContinue_fault h).trans hf)

/-! ### The step of the machine -/

/-- A step that leaves a fault is a `raise` of the agent in turn, and no call hangs after it: P's steps end in none, and C
raises before the command's call (R293). -/
theorem agentStep_raises {u : State} (hf : s.fault = none) (h : agentStep s = .next u) :
    u.fault = none ∨ (s.callHangs = false ∧ ∃ code info, raise s.turn code info s = .next u) := by
  unfold agentStep at h
  split at h
  case h_1 hp =>
    rw [hp]
    exact (faultsByRaise_stepP hf u h).imp_right fun hraise => ⟨by simp [State.callHangs, hp], hraise⟩
  case h_2 hc =>
    rw [hc]
    exact (stepC_raises hf h).imp_right fun ⟨hd, hraise⟩ => ⟨by simp [State.callHangs, State.afterCall, hd], hraise⟩

/-- With no call made, the choice of the next agent writes the schedule's two fields only. -/
theorem reschedule_of_not_callHangs (h : s.callHangs = false) :
    reschedule s = { s with turn := (reschedule s).turn, moves := s.moves + 1 } := by
  rw [reschedule, h, Bool.or_false]

end Live

/-! ### The statement -/

/-- Settles O48: the agent's step is `raise` itself, and the choice of the next agent adds the schedule's fields. -/
theorem raisingStepIsPrecise : Obligations.RaisingStepIsPrecise := by
  intro s t f hstep hfault
  obtain ⟨hf, u, hu, rfl⟩ := step_next.mp hstep
  obtain hnone | ⟨hcall, code, info, hraise⟩ := agentStep_raises hf hu
  · rw [reschedule_fault, hnone] at hfault
    cases hfault
  · rw [raise_eq_next hf, next_eq_next] at hraise
    subst hraise
    cases hfault
    exact ⟨rfl, reschedule_of_not_callHangs hcall⟩

end Sys2Proof.Machine
end

section
/-! The fields of a word: a header word, a tag word and an A+D unit are their fields side by side (30_encoding.md R91, R101,
R106), so that each is read back from its fields and each gives them back; and the round trips of the encodings that
follow. -/

namespace Sys2Proof

/-! ### Placed fields -/

/-- A field at its place, bit by bit. -/
theorem getLsbD_place {k lo i : Nat} (v : BitVec k) (hi : i < 128) :
    (place lo v).getLsbD i = (decide (lo ≤ i) && v.getLsbD (i - lo)) := by
  by_cases h : lo ≤ i
  · rw [getLsbD_place_within v h hi, decide_eq_true h, Bool.true_and]
  · rw [getLsbD_place_below v (by omega), decide_eq_false h, Bool.false_and]

/-- A field of `w` placed where it came from holds `w`'s bits there and zeros elsewhere. -/
theorem getLsbD_place_extractLsb' {k lo i : Nat} (w : Word) (hi : i < 128) :
    (place lo (w.extractLsb' lo k)).getLsbD i = (decide (lo ≤ i ∧ i < lo + k) && w.getLsbD i) := by
  rw [getLsbD_place _ hi, BitVec.getLsbD_extractLsb', ← Bool.and_assoc, ← Bool.decide_and]
  by_cases h : lo ≤ i
  · rw [Nat.add_sub_cancel' h]
    congr 1
    exact decide_eq_decide.mpr (by omega)
  · rw [decide_eq_false (by omega), decide_eq_false (by omega), Bool.false_and, Bool.false_and]

/-- Placed fields that cover every bit of `w` give `w`, bit by bit. -/
theorem or_and_self_of_covered {p q : Prop} [Decidable p] [Decidable q] (b : Bool) :
    ((decide p && b) || (decide q && b)) = (decide (p ∨ q) && b) := by
  cases b <;> simp

theorem ofBool_getLsbD (w : Word) (n : Nat) : BitVec.ofBool (w.getLsbD n) = w.extractLsb' n 1 := by
  refine BitVec.eq_of_getLsbD_eq fun i hi => ?_
  obtain rfl : i = 0 := by omega
  simp

/-! ### The header word (R91) -/

theorem headerWord_eq_append (command d0 d1 d2 : W32) : headerWord command d0 d1 d2 = d2 ++ d1 ++ d0 ++ command := by
  refine BitVec.eq_of_getLsbD_eq fun i hi => ?_
  simp only [headerWord, BitVec.getLsbD_or, BitVec.getLsbD_append, getLsbD_place _ hi, Nat.sub_sub]
  split
  · simp [show ¬ 32 ≤ i by omega, show ¬ 64 ≤ i by omega, show ¬ 96 ≤ i by omega]
  · rw [BitVec.getLsbD_of_ge command (i - 0) (by omega)]
    split
    · simp [show 32 ≤ i by omega, show ¬ 64 ≤ i by omega, show ¬ 96 ≤ i by omega]
    · rw [BitVec.getLsbD_of_ge d0 (i - 32) (by omega)]
      split
      · simp [show 64 ≤ i by omega, show ¬ 96 ≤ i by omega]
      · rw [BitVec.getLsbD_of_ge d1 (i - 64) (by omega)]
        simp [show 96 ≤ i by omega]

@[simp] theorem headerCommand_headerWord (command d0 d1 d2 : W32) :
    headerCommand (headerWord command d0 d1 d2) = command := by
  refine BitVec.eq_of_getLsbD_eq fun i hi => ?_
  simp (disch := omega) only [headerCommand, headerWord, BitVec.getLsbD_extractLsb', BitVec.getLsbD_or,
    getLsbD_place_below, getLsbD_place_within]
  simp [hi]

theorem headerData_headerWord (command d0 d1 d2 : W32) :
    headerData 0 (headerWord command d0 d1 d2) = d0 ∧ headerData 1 (headerWord command d0 d1 d2) = d1 ∧
      headerData 2 (headerWord command d0 d1 d2) = d2 := by
  refine ⟨show (headerWord command d0 d1 d2).extractLsb' 32 32 = d0 from ?_,
    show (headerWord command d0 d1 d2).extractLsb' 64 32 = d1 from ?_,
    show (headerWord command d0 d1 d2).extractLsb' 96 32 = d2 from ?_⟩
  all_goals
    refine BitVec.eq_of_getLsbD_eq fun i hi => ?_
    simp (disch := omega) only [headerWord, BitVec.getLsbD_extractLsb', BitVec.getLsbD_or,
      getLsbD_place_below, getLsbD_place_above]
    simp (disch := omega) only [getLsbD_place_within]
    simp [hi]

@[simp] theorem headerData_zero_headerWord (command d0 d1 d2 : W32) :
    headerData 0 (headerWord command d0 d1 d2) = d0 := (headerData_headerWord command d0 d1 d2).1

@[simp] theorem headerData_one_headerWord (command d0 d1 d2 : W32) :
    headerData 1 (headerWord command d0 d1 d2) = d1 := (headerData_headerWord command d0 d1 d2).2.1

@[simp] theorem headerData_two_headerWord (command d0 d1 d2 : W32) :
    headerData 2 (headerWord command d0 d1 d2) = d2 := (headerData_headerWord command d0 d1 d2).2.2

/-- A memory write's header gives its command, its offset and its value back (R95). -/
theorem memWriteHeader_fields {k : Nat} (hk : k ≤ 64) (command offset : W32) (value : BitVec k) :
    headerCommand (memWriteHeader command offset value) = command ∧
      headerData 0 (memWriteHeader command offset value) = offset ∧
      memWriteValue k (headerData 1 (memWriteHeader command offset value))
        (headerData 2 (memWriteHeader command offset value)) = value := by
  unfold memWriteHeader
  simp [memWriteValue_of_words hk]

/-- A pointer is its two halves. -/
theorem pair64_halves (ptr : W64) : pair64 (ptr.extractLsb' 32 32) (ptr.extractLsb' 0 32) = ptr := by
  rw [pair64_eq_append]
  exact (BitVec.extractLsb'_append_extractLsb'_eq_extractLsb' rfl).trans BitVec.extractLsb'_eq_self

/-! ### The tag word (R101) -/

theorem tagWord_tagFields (w : Word) : tagWord (tagFlg w) (tagFields w) = w := by
  refine BitVec.eq_of_getLsbD_eq fun i hi => ?_
  have hi' : i < 128 := hi
  simp only [tagWord, tagFlg, tagFields, Config.tagLayout, ofBool_getLsbD, BitVec.getLsbD_or,
    getLsbD_place_extractLsb' w hi, or_and_self_of_covered]
  rw [decide_eq_true (by omega), Bool.true_and]

/-! ### The A+D unit (R106) -/

theorem adUnit_fields (u : PackedUnit) : adUnit (unitIndex u) (unitWord0 u) (unitWord1 u) (unitIgnored u) = u := by
  refine BitVec.eq_of_getLsbD_eq fun i hi => ?_
  have hi' : i < 128 := hi
  simp only [adUnit, unitIndex, unitWord0, unitWord1, unitIgnored, Config.adIndexByte, BitVec.getLsbD_or,
    getLsbD_place_extractLsb' u hi, or_and_self_of_covered]
  rw [decide_eq_true (by rw [Config.adIgnoredBits_eq]; omega), Bool.true_and]

theorem fields_adUnit (index : Byte) (w0 w1 : W32) (ignored : BitVec 56) :
    unitIndex (adUnit index w0 w1 ignored) = index ∧ unitWord0 (adUnit index w0 w1 ignored) = w0 ∧
      unitWord1 (adUnit index w0 w1 ignored) = w1 ∧ unitIgnored (adUnit index w0 w1 ignored) = ignored := by
  refine ⟨BitVec.eq_of_getLsbD_eq fun i hi => ?_, BitVec.eq_of_getLsbD_eq fun i hi => ?_,
    BitVec.eq_of_getLsbD_eq fun i hi => ?_, BitVec.eq_of_getLsbD_eq fun i (hi : i < 56) => ?_⟩
  all_goals
    simp (disch := omega) only [unitIndex, unitWord0, unitWord1, unitIgnored, adUnit, Config.adIndexByte,
      BitVec.getLsbD_extractLsb', BitVec.getLsbD_or, getLsbD_place_below, getLsbD_place_above]
    simp (disch := omega) only [getLsbD_place_within]
    simp [hi]

/-! ### Notifications by their codes (R109, R110) -/

/-- The code `base + k` selects the notification of number `k`. -/
theorem sflOf_base_add (base : Nat) (k : Sfl) : sflOf base (base + k.number) = some k := by
  rw [Machine.sflOf_eq]
  cases k <;> simp [Sfl.number]

/-- A code that selects a notification is the base and the notification's number. -/
theorem eq_base_add_of_sflOf {base c : Nat} {k : Sfl} (h : sflOf base c = some k) : c = base + k.number := by
  rw [Machine.sflOf_eq] at h
  split at h
  · obtain rfl | rfl | rfl : c = base ∨ c = base + 1 ∨ c = base + 2 := by omega
    all_goals
      simp at h
      subst h
      rfl
  · cases h

/-- A code outside the range selects nothing. -/
theorem sflOf_of_not_inSflRange {base c : Nat} (h : (!inSflRange base c) = true) : sflOf base c = none := by
  rw [Machine.sflOf_eq, if_neg]
  rintro ⟨hlow, hhigh⟩
  simp [inSflRange, hlow, hhigh] at h

/-- The code of a notification's register index, as a number. -/
theorem adSflIndex_toNat (k : Sfl) : (adSflIndex k).toNat = Config.adSflBase + k.number := by
  cases k <;> rfl

/-- The codes of the REGLIST range are bytes: RL_SFL_BASE is at most 13. -/
theorem reglistCode_toNat (b : Fin 14) (k : Sfl) : (BitVec.ofNat 8 (b.val + k.number)).toNat = b.val + k.number := by
  have hb := b.isLt
  rw [BitVec.toNat_ofNat]
  cases k <;> exact Nat.mod_eq_of_lt (by simp only [Sfl.number]; omega)

/-! ### Decode of encode -/

/-- The word of an unrecognised id, whatever the auxiliary words. -/
theorem decodeHeader_headerWord_unrecognised {command : W32} (h : 16 ≤ command.toNat) :
    decodeHeader (headerWord command 0 0 0) = .unrecognised command := by
  have hcmd := headerCommand_headerWord command 0 0 0
  rw [decodeHeader_unrecognised (by rwa [hcmd]), hcmd]

theorem decodePacked_adUnit (k : Sfl) (w0 w1 : W32) (ignored : BitVec 56) :
    decodePacked Config.adSel (adUnit (adSflIndex k) w0 w1 ignored) =
      match k with
      | .signal => .adSignal w0 w1 ignored
      | .finish => .adFinish w0 w1 ignored
      | .label => .adLabel w0 w1 ignored := by
  obtain ⟨hindex, h0, h1, hignored⟩ := fields_adUnit (adSflIndex k) w0 w1 ignored
  rw [decodePacked, if_pos rfl, hindex, h0, h1, hignored, adSflIndex_toNat, sflOf_base_add]
  cases k <;> rfl

theorem decode_reglistSflCode {rl : Option (Fin 14)} (h : rl.isSome = true) (k : Sfl) (u : ReglistUnit) :
    decode rl (reglistSflCode rl k u) =
      match k with
      | .signal => .reglistSignal u
      | .finish => .reglistFinish u
      | .label => .reglistLabel u := by
  obtain ⟨b, rfl⟩ := Option.isSome_iff_exists.mp h
  have hsfl : reglistSfl (some b) (BitVec.ofNat 8 (b.val + k.number)) = some k := by
    rw [reglistSfl, reglistCode_toNat, sflOf_base_add]
  rw [reglistSflCode, decode, decodeReglist, hsfl]
  cases k <;> rfl

theorem decodeTag_tagWord (f : BitVec 2) (t : TagFields) :
    decodeTag (tagWord f t) =
      match f.toNat with
      | 0 => .giftagPacked t
      | 1 => .giftagReglist (.tag t)
      | 2 => .giftagImage (.tag t)
      | _ => .giftagImage3 (.tag t) := by
  rw [decodeTag, tagFlg_tagWord, tagFields_tagWord] <;> rfl

/-- A REGLIST unit that raises nothing. -/
theorem decodeReglist_of_not_sfl {rl : Option (Fin 14)} {sel : Byte} (h : (!isReglistSfl rl sel) = true)
    (u : ReglistUnit) : decodeReglist rl sel u = .giftagReglist (.unit sel u) := by
  have hnone : reglistSfl rl sel = none := by
    cases rl with
    | none => rfl
    | some b => exact sflOf_of_not_inSflRange h
  rw [decodeReglist, hnone]

theorem decodePacked_of_not_sfl {u : PackedUnit} (h : (!inSflRange Config.adSflBase (adIndex u).toNat) = true) :
    decodePacked Config.adSel u = .packedAd u := by
  have hnone : sflOf Config.adSflBase (unitIndex u).toNat = none := sflOf_of_not_inSflRange h
  rw [decodePacked, if_pos rfl, hnone]

/-- Settles O1, by the kind of code: the ring headers and the requests give their operands back, and the GIF words their
format's row. -/
theorem decodeEncodeRoundTrip : Obligations.DecodeEncodeRoundTrip := by
  intro rl i hwf
  cases i
  case unrecognised => exact decodeHeader_headerWord_unrecognised (of_decide_eq_true hwf)
  case memwrite64 => simp [encode, decode, decodeHeader, memWriteHeader, memWriteValue, pair64_halves]
  case memwrite8 | memwrite16 | memwrite32 =>
    simp (disch := decide) [encode, decode, decodeHeader, memWriteHeader, memWriteValue_of_words]
  case freeze => simp [encode, decode, decodeHeader, pair64_halves]
  case giftagPacked => exact decodeTag_tagWord 0 _
  case giftagReglist x =>
    cases x with
    | tag => exact decodeTag_tagWord 1 _
    | unit => exact decodeReglist_of_not_sfl hwf _
  case giftagImage x =>
    cases x with
    | tag => exact decodeTag_tagWord 2 _
    | data => rfl
  case giftagImage3 x =>
    cases x with
    | tag => exact decodeTag_tagWord 3 _
    | data => rfl
  case packedAd => exact decodePacked_of_not_sfl hwf
  case packedOther => exact if_neg (of_decide_eq_true hwf)
  case adSignal => exact decodePacked_adUnit .signal _ _ _
  case adFinish => exact decodePacked_adUnit .finish _ _ _
  case adLabel => exact decodePacked_adUnit .label _ _ _
  case reglistSignal => exact decode_reglistSflCode hwf .signal _
  case reglistFinish => exact decode_reglistSflCode hwf .finish _
  case reglistLabel => exact decode_reglistSflCode hwf .label _
  case p1 | p2 | p3 | vsync | softreset | reset | writecsr | modechange | record | restart | quit =>
    simp [encode, decode, decodeHeader]
  all_goals rfl

/-! ### Encode of decode -/

theorem encode_decodeTag (rl : Option (Fin 14)) (w : Word) : encode rl (decodeTag w) = .tag w := by
  have hcodes : ∀ f : BitVec 2, f = 0 ∨ f = 1 ∨ f = 2 ∨ f = 3 := by decide
  have hword := tagWord_tagFields w
  rw [decodeTag]
  obtain h | h | h | h := hcodes (tagFlg w) <;> rw [h] at hword ⊢ <;> exact congrArg Code.tag hword

/-- A word with a notification's index is the A+D unit of its other fields. -/
theorem adUnit_of_sflOf {u : PackedUnit} {k : Sfl} (h : sflOf Config.adSflBase (unitIndex u).toNat = some k) :
    adUnit (adSflIndex k) (unitWord0 u) (unitWord1 u) (unitIgnored u) = u := by
  have hindex : adSflIndex k = unitIndex u :=
    BitVec.eq_of_toNat_eq ((adSflIndex_toNat k).trans (eq_base_add_of_sflOf h).symm)
  rw [hindex, adUnit_fields]

theorem encode_decodePacked (rl : Option (Fin 14)) (sel : Byte) (u : PackedUnit) :
    encode rl (decodePacked sel u) = .packed sel u := by
  rw [decodePacked]
  split
  · rename_i hsel
    subst hsel
    cases hk : sflOf Config.adSflBase (unitIndex u).toNat with
    | none => rfl
    | some k => cases k <;> exact congrArg (Code.packed _) (adUnit_of_sflOf hk)
  · rfl

/-- A selector that raises a notification is RL_SFL_BASE and the notification's number. -/
theorem reglistSflCode_of_reglistSfl {rl : Option (Fin 14)} {sel : Byte} {k : Sfl} (h : reglistSfl rl sel = some k)
    (u : ReglistUnit) : reglistSflCode rl k u = .reglist sel u := by
  cases rl with
  | none => cases h
  | some b => rw [reglistSflCode, ← eq_base_add_of_sflOf h, BitVec.ofNat_toNat, BitVec.setWidth_eq]

theorem encode_decodeReglist (rl : Option (Fin 14)) (sel : Byte) (u : ReglistUnit) :
    encode rl (decodeReglist rl sel u) = .reglist sel u := by
  rw [decodeReglist]
  cases hk : reglistSfl rl sel with
  | none => rfl
  | some k => cases k <;> exact reglistSflCode_of_reglistSfl hk u

/-- Settles O2, by the format of the word. -/
theorem encodeDecodeGifWords : Obligations.EncodeDecodeGifWords := fun rl w sel u =>
  ⟨encode_decodeTag rl w, encode_decodePacked rl sel w, encode_decodeReglist rl sel u, rfl, rfl⟩

/-- Settles O5. -/
theorem headerWordLayout : Obligations.HeaderWordLayout := headerWord_eq_append

/-- Settles O3: the words are literals, which the decoder evaluates. -/
theorem decodeSpecWords : Obligations.DecodeSpecWords := by
  unfold Obligations.DecodeSpecWords
  decide

/-! ### Bytes (20_memory.md R66) -/

theorem natOfBytes_lt (bs : List Byte) : natOfBytes bs < 256 ^ bs.length := by
  induction bs with
  | nil => exact Nat.one_pos
  | cons b bs ih =>
    have hb := b.isLt
    rw [natOfBytes, List.length_cons, Nat.pow_succ]
    omega

/-- As many bytes with the same value are the same bytes. -/
theorem eq_of_natOfBytes_eq {bs cs : List Byte} (hlen : bs.length = cs.length) (h : natOfBytes bs = natOfBytes cs) :
    bs = cs := by
  induction bs generalizing cs with
  | nil => exact (List.length_eq_zero_iff.mp hlen.symm).symm
  | cons b bs ih =>
    cases cs with
    | nil => cases hlen
    | cons c cs =>
      have hb := b.isLt
      have hc := c.isLt
      simp only [natOfBytes] at h
      rw [BitVec.eq_of_toNat_eq (show b.toNat = c.toNat by omega), ih (Nat.succ.inj hlen) (by omega)]

theorem bytesOfWord_length (w : Word) : (bytesOfWord w).length = Config.wordBytes := by simp [bytesOfWord]

theorem wordOfBytes_bytesOfWord (w : Word) : wordOfBytes (bytesOfWord w) = .ok w := by
  rw [wordOfBytes, if_pos (bytesOfWord_length w), Machine.natOfBytes_bytesOfWord, BitVec.ofNat_toNat,
    BitVec.setWidth_eq]

/-- Sixteen bytes are those of the word they give. -/
theorem bytesOfWord_of_wordOfBytes {bs : List Byte} {w : Word} (h : wordOfBytes bs = .ok w) : bytesOfWord w = bs := by
  unfold wordOfBytes at h
  split at h
  · rename_i hlen
    cases h
    have hlt := natOfBytes_lt bs
    rw [hlen] at hlt
    refine eq_of_natOfBytes_eq ((bytesOfWord_length _).trans hlen.symm) ?_
    rw [Machine.natOfBytes_bytesOfWord, BitVec.toNat_ofNat]
    exact Nat.mod_eq_of_lt hlt
  · cases h

theorem bytesOfWord_getElem? (w : Word) {k : Nat} (hk : k < 16) :
    (bytesOfWord w)[k]? = some (w.extractLsb' (8 * k) 8) := by
  simp [bytesOfWord, hk]

/-- Settles O6: sixteen bytes are determined by the number they are, and that is the word's. -/
theorem bytesOfWordsRoundTrip : Obligations.BytesOfWordsRoundTrip := by
  refine ⟨fun w => ⟨wordOfBytes_bytesOfWord w, ?_⟩, fun bs w h => ?_, fun bs hlen => if_neg hlen⟩
  · rw [decodeHeaderBytes, wordOfBytes_bytesOfWord]
    rfl
  · rw [← bytesOfWord_of_wordOfBytes h]
    exact ⟨rfl, fun k => bytesOfWord_getElem? w⟩

end Sys2Proof
end

section
/-! What one step of P can do: one case for each row of 40_ring.md R142 and of the acceptances of 42_producer.md, with
what held before it and the exact next state. Every statement about all steps is a case split over `ProducerStep`. -/

namespace Sys2Proof.Machine

/-! ### Headers by their command id (30_encoding.md R92, R93) -/

section Header

variable {h : Word}

theorem packetLength_of_data (hc : (headerCommand h).toNat < 3) : packetLength h = 1 + (headerData 0 h).toNat := by
  interval_cases hn : (headerCommand h).toNat <;> simp [packetLength, decodeHeader, hn]

theorem packetLength_of_not_data (hc : 3 ≤ (headerCommand h).toNat) : packetLength h = 1 := by
  by_cases hhigh : 16 ≤ (headerCommand h).toNat
  · rw [packetLength, decodeHeader_unrecognised hhigh]
  · interval_cases hn : (headerCommand h).toNat <;> simp [packetLength, decodeHeader, hn]

theorem isRestart_iff_command : isRestart h = true ↔ (headerCommand h).toNat = 14 := by
  rw [isRestart_iff]
  by_cases hhigh : 16 ≤ (headerCommand h).toNat
  · rw [decodeHeader_unrecognised hhigh]
    exact iff_of_false (by simp) (by omega)
  · interval_cases hn : (headerCommand h).toNat <;> simp [decodeHeader, hn]

theorem isVsync_iff_command : isVsync h = true ↔ (headerCommand h).toNat = 3 := by
  rw [isVsync, decide_eq_true_eq, ← BitVec.toNat_inj]
  rfl

theorem isRestart_eq_false (hc : (headerCommand h).toNat ≠ 14) : isRestart h = false :=
  Bool.eq_false_iff.mpr (mt isRestart_iff_command.mp hc)

theorem isVsync_eq_false (hc : (headerCommand h).toNat ≠ 3) : isVsync h = false :=
  Bool.eq_false_iff.mpr (mt isVsync_iff_command.mp hc)

end Header

/-! ### The answers of a step -/

/-- The result is a next state of this kind, or the stop of a dead block. -/
def Answers (s : State) (P : State → Prop) (r : Result) : Prop :=
  (∃ t, r = .next t ∧ P t) ∨ (s.fault ≠ none ∧ r = .fault .deadBlock)

section

variable {s t : State} {P : State → Prop} {r : Result}

theorem Answers.of_next (h : P t) : Answers s P (.next t) := .inl ⟨t, rfl, h⟩

theorem Answers.of_eq {r' : Result} (he : r = r') (h : Answers s P r') : Answers s P r := he ▸ h

theorem answers_alive (h : s.fault = none → Answers s P r) : Answers s P (alive s r) := by
  by_cases hf : s.fault = none
  · rw [alive_of_live hf]
    exact h hf
  · exact .inr ⟨hf, alive_of_dead hf r⟩

theorem Answers.next (h : Answers s P r) (ht : r = .next t) : P t := by
  obtain ⟨u, rfl, hu⟩ | ⟨-, rfl⟩ := h
  · cases ht
    exact hu
  · cases ht

theorem Answers.exists_next (h : Answers s P r) (hf : s.fault = none) : ∃ t, r = .next t := by
  obtain ⟨t, rfl, -⟩ | ⟨hdead, -⟩ := h
  · exact ⟨t, rfl⟩
  · exact absurd hf hdead

end

/-- In a dead block no instruction has a step (60_exceptions.md R292). -/
theorem exec_dead {s : State} (hf : s.fault ≠ none) (i : Instr) : exec i s = .fault .deadBlock := by
  cases i
  case giftagReglist x | giftagImage x | giftagImage3 x => cases x <;> exact alive_of_dead hf _
  all_goals exact alive_of_dead hf _

/-! ### The cases -/

/-- What an item of the parser makes of its record: the tag of a tag word, the same aborted by the clip, a register step,
or a word of an IMAGE run (41_gifpath.md R162, R164, R169, R171). -/
inductive RecordStep (g : GifPath) : GifPath → Prop
  | tag (flg : BitVec 2) (t : TagFields) : RecordStep g (fetchTag flg t g)
  | clip (flg : BitVec 2) (t : TagFields) : RecordStep g (abortTag (fetchTag flg t g))
  | unit (inTag : g.tag.nloop ≠ 0) : RecordStep g (stepReg g).path
  | image (inTag : g.tag.nloop ≠ 0) : RecordStep g (imageWords 1 g)

/-- P is inside PREPARE_DATA: its parser runs, or has run. -/
def PPhase.inPrepare (p : PPhase) : Bool :=
  match p with
  | .parsing _ => true
  | .reserve _ => true
  | _ => false

/-- Where P goes at the acceptance of an operation that changes nothing else, and what the checks of R200 say then. -/
inductive Enters (s : State) : PPhase → Prop
  | close (unreserved : s.resv = none) : Enters s (.slot (headerWord 15 0 0 0) .close)
  | prepare (p : PPhase) (unreserved : s.resv = none) (place : p.inPrepare = true) : Enters s p
  | sendData (r : Reservation) (reserved : s.resv = some r) : Enters s (.publish r.offset r.size .sendData)
  | waitDrain : Enters s (.drain .retire)
  | postVsync (fieldflag : W32) (unreserved : s.resv = none) : Enters s (.vsyncWait fieldflag)
  | save (unreserved : s.resv = none) : Enters s (.drain .save)
  | load (image : List Byte) (unreserved : s.resv = none) : Enters s (.drain (.load image))

/-- P stands where a guard is evaluated (40_ring.md R139). -/
def PPhase.awaits (p : PPhase) : Bool :=
  match p with
  | .reserve _ => true
  | .slot _ _ => true
  | .vsyncWait _ => true
  | .closeWait => true
  | .drain _ => true
  | _ => false

/-- Every step of P: what held before it, and the next state. -/
inductive ProducerStep (s : State) : State → Prop
  /-- an idle P with nothing presented, or one that waits for the lock, has no step -/
  | pause : ProducerStep s s
  | signal : ProducerStep s { signalWake s with pSignal := false }
  | wait (phase : s.pphase.awaits = true) : ProducerStep s (guardFailed s)
  | raise (code : ErrCode) (info : W64) (notC : code ≠ .errOvertake) :
      ProducerStep s { s with fault := s.fault.or (some { code := code, agent := .p, info := info }) }
  | enter (p : PPhase) (phase : s.pphase = .idle) (session : s.session = .opened) (operation : Enters s p) :
      ProducerStep s (toPPhase p s)
  | send (command d0 d1 d2 : W32) (phase : s.pphase = .idle) (session : s.session = .opened)
      (unreserved : s.resv = none) (free : reservedCommand command = false) :
      ProducerStep s { s with
        paths := zeroedPaths command d0 s, pphase := .slot (headerWord command d0 d1 d2) .retire }
  | openSession (r : HostRequest) (rest : List HostRequest) (idle : s.producerIdle) (session : s.session = .closed)
      (unreserved : s.resv = none) (request : s.port = r :: rest) (op : r.op = 0) :
      ProducerStep s { openWith (Config.drawInit s.draws) s with draws := s.draws + 1 }
  | saveClosed (phase : s.pphase = .idle) (unreserved : s.resv = none) :
      ProducerStep s (retire (.image (Config.snapshotCodec.encode GifPaths.zero)) s)
  | loadClosed (phase : s.pphase = .idle) (unreserved : s.resv = none) :
      ProducerStep s (retire .done { s with paths := GifPaths.zero })
  | parse (run : ParseRun) (g : GifPath) (p3 : Bool) (notes : List Notification) (p : PPhase)
      (phase : s.pphase = .parsing run) (record : RecordStep (s.path run.path) g) (place : p.inPrepare = true) :
      ProducerStep s { s with
        sflTrace := s.sflTrace ++ notes, paths := GifPaths.set s.paths run.path g, p3Progress := p3, pphase := p }
  | parsed (run : ParseRun) (phase : s.pphase = .parsing run) : ProducerStep s (endParse run s)
  | place (pkt : Packet) (phase : s.pphase = .reserve pkt)
      (guard : reserveCase s.capacity s.writePos s.readPos (pkt.payload.length + 1) = .place) :
      ProducerStep s (fillPacket pkt s)
  | restart (pkt : Packet) (phase : s.pphase = .reserve pkt)
      (guard : reserveCase s.capacity s.writePos s.readPos (pkt.payload.length + 1) = .restart) :
      ProducerStep s (toPPhase (.lockAcquire pkt) s)
  | lock (pkt : Packet) (phase : s.pphase = .lockAcquire pkt) (free : s.restartLock = .free) :
      ProducerStep s (toPPhase (.marker pkt) (setLock .heldP s))
  | marker (pkt : Packet) (phase : s.pphase = .marker pkt) :
      ProducerStep s (toPPhase (.publish s.writePos 1 (.restart pkt)) (ringWrite s.writePos restartHeader s))
  | origin (pkt : Packet) (phase : s.pphase = .originStore pkt) :
      ProducerStep s (toPPhase (.lockRelease pkt) (storeWritePos 0 s))
  | unlock (pkt : Packet) (phase : s.pphase = .lockRelease pkt) :
      ProducerStep s (toPPhase (.reserve pkt) (setLock .free s))
  | slot (header : Word) (after : AfterCommit) (phase : s.pphase = .slot header after) (room : 1 ≤ s.capacity - 1)
      (free : slotGuard s = true) :
      ProducerStep s (toPPhase (.publish s.writePos 1 after) (ringWrite s.writePos header s))
  | publish (offset size : Nat) (after : AfterCommit) (phase : s.pphase = .publish offset size after) :
      ProducerStep s (toPPhase (.wakeDecision size after)
        { storeWritePos (s.wrap (offset + size)) s with resv := resvAfterPublish after s.resv })
  | wake (size : Nat) (after : AfterCommit) (phase : s.pphase = .wakeDecision size after) :
      ProducerStep s (afterCommit after (wakeDecide size s))
  | vsyncBelow (fieldflag : W32) (phase : s.pphase = .vsyncWait fieldflag)
      (below : s.vsyncQueued.toNat < Config.vsyncLimit.toNat) : ProducerStep s (toPPhase (.vsyncCount fieldflag) s)
  | vsyncCount (fieldflag : W32) (phase : s.pphase = .vsyncCount fieldflag) :
      ProducerStep s (toPPhase (.slot (headerWord 3 fieldflag 0 0) .retire) (vsyncIncrement s))
  | closeSignal (phase : s.pphase = .closeSignal) : ProducerStep s (toPPhase .closeWait (signalWake s))
  | closed (phase : s.pphase = .closeWait) (halted : s.cstate = .halted) :
      ProducerStep s (retire .done { s with session := .closed, cstate := .off })
  | drained (after : AfterDrain) (phase : s.pphase = .drain after) (empty : s.readPos = s.writePos) :
      ProducerStep s (afterDrain after s)

/-- The step P takes is one of these. -/
abbrev AnswersP (s : State) (r : Result) : Prop := Answers s (ProducerStep s) r

theorem answersP_raise (s : State) {code : ErrCode} (info : W64) (h : code ≠ .errOvertake) :
    AnswersP s (raise .p code info s) := .of_next (.raise code info h)

/-! ### The acceptance of a request (42_producer.md R200) -/

section Accept

variable {s : State} {op : BitVec 4} {accept : Result}

theorem answersP_hostOp (hi : s.pphase = .idle) (h : apiCheck op s = true → AnswersP s accept) :
    AnswersP s (hostOp op s accept) := by
  refine answers_alive fun _ => ?_
  rw [hi]
  dsimp only
  split
  · exact h ‹_›
  · exact answersP_raise s _ nofun

/-- What the checks say of an operation that needs an open session and nothing pending. -/
theorem accepts_of_apiCheck (hop : op = 1 ∨ op = 2 ∨ op = 3 ∨ op = 5 ∨ op = 6 ∨ op = 8) (h : apiCheck op s = true) :
    s.session = .opened ∧ s.resv = none := by
  obtain rfl | rfl | rfl | rfl | rfl | rfl := hop <;> simpa [apiCheck] using h

theorem answersP_sendSimple (hi : s.pphase = .idle) (hacc : s.session = .opened ∧ s.resv = none) (op : BitVec 4)
    (command d0 d1 d2 : W32) : AnswersP s (sendSimple op command d0 d1 d2 s) := by
  obtain ⟨ho, hr⟩ := hacc
  unfold sendSimple
  split
  · exact answersP_raise s _ nofun
  · rename_i hfree
    rw [zeroPathsFor_eq]
    exact .of_next (.send command d0 d1 d2 hi ho hr (by simpa using hfree))

theorem answersP_prepareData (hi : s.pphase = .idle) (hacc : s.session = .opened ∧ s.resv = none) (path : W32)
    (data : List Word) :
    AnswersP s (match pathOfArg path with
      | none => raise .p .errApi (apiInfo 3 path) s
      | some p => .next (startParse p data s)) := by
  obtain ⟨ho, hr⟩ := hacc
  split
  · exact answersP_raise s _ nofun
  · rw [startParse_eq]
    exact .of_next (.enter _ hi ho (.prepare _ hr (by split <;> rfl)))

theorem answersP_sendData (hi : s.pphase = .idle) (ho : s.session = .opened) :
    AnswersP s (match s.resv with
      | none => raise .p .errApi (apiInfo 4 0) s
      | some r => .next (toPPhase (.publish r.offset r.size .sendData) s)) := by
  split
  · exact answersP_raise s _ nofun
  · rename_i r hr
    exact .of_next (.enter _ hi ho (.sendData r hr))

theorem answersP_savestateSave (hi : s.pphase = .idle) (hr : s.resv = none) :
    AnswersP s (match s.session with
      | .opened => .next (toPPhase (.drain .save) s)
      | .closed => .next (retire (.image (Config.snapshotCodec.encode GifPaths.zero)) s)) := by
  split
  · exact .of_next (.enter _ hi ‹_› (.save hr))
  · exact .of_next (.saveClosed hi hr)

theorem answersP_savestateLoad (hi : s.pphase = .idle) (hr : s.resv = none) (image : List Byte) :
    AnswersP s (match s.session with
      | .opened => .next (toPPhase (.drain (.load image)) s)
      | .closed => .next (retire .done { s with paths := GifPaths.zero })) := by
  split
  · exact .of_next (.enter _ hi ‹_› (.load image hr))
  · exact .of_next (.loadClosed hi hr)

end Accept

/-- The request at the port of an idle P. -/
theorem answersP_decodeRequest {s : State} {r : HostRequest} {rest : List HostRequest} (hidle : s.pphase = .idle)
    (hs : s.pSignal = false) (hport : s.port = r :: rest) : AnswersP s (exec (decodeRequest r) s) := by
  unfold decodeRequest
  split
  case h_1 hop =>
    refine answers_alive fun hf => .of_eq (alive_of_live hf _).symm <| answersP_hostOp hidle fun hc => ?_
    obtain ⟨hclosed, hr⟩ : s.session = .closed ∧ s.resv = none := by simpa [apiCheck] using hc
    exact .of_next (.openSession r rest ⟨hf, hidle, hs⟩ hclosed hr hport (BitVec.eq_of_toNat_eq hop))
  case h_2 =>
    refine answersP_hostOp hidle fun hc => ?_
    obtain ⟨ho, hr⟩ := accepts_of_apiCheck (by decide) hc
    exact .of_next (.enter _ hidle ho (.close hr))
  case h_3 =>
    exact answersP_hostOp hidle fun hc => answersP_sendSimple hidle (accepts_of_apiCheck (by decide) hc) _ _ _ _ _
  case h_4 =>
    exact answersP_hostOp hidle fun hc => answersP_prepareData hidle (accepts_of_apiCheck (by decide) hc) _ _
  case h_5 =>
    refine answersP_hostOp hidle fun hc => ?_
    obtain ⟨ho, -⟩ : s.session = .opened ∧ s.resv.isSome = true := by simpa [apiCheck] using hc
    exact answersP_sendData hidle ho
  case h_6 | h_7 =>
    exact answersP_hostOp hidle fun hc => answersP_sendSimple hidle (accepts_of_apiCheck (by decide) hc) _ _ _ _ _
  case h_8 =>
    exact answersP_hostOp hidle fun hc => .of_next (.enter _ hidle (by simpa [apiCheck] using hc) .waitDrain)
  case h_9 =>
    refine answersP_hostOp hidle fun hc => ?_
    obtain ⟨ho, hr⟩ := accepts_of_apiCheck (by decide) hc
    exact .of_next (.enter _ hidle ho (.postVsync _ hr))
  case h_10 => exact answersP_hostOp hidle fun hc => answersP_savestateSave hidle (by simpa [apiCheck] using hc)
  case h_11 => exact answersP_hostOp hidle fun hc => answersP_savestateLoad hidle (by simpa [apiCheck] using hc) _
  all_goals exact answersP_hostOp hidle fun _ => answersP_raise s _ nofun

/-! ### The parser -/

theorem afterWord_inPrepare (run : ParseRun) (w : Word) (ws : List Word) (g : GifPath) :
    (afterWord run w ws g).inPrepare = true := by
  unfold afterWord
  split <;> rfl

theorem imageItem_at {s : State} {run : ParseRun} {w : Word} {ws : List Word} (h : s.parserAt run w ws)
    (hn : (s.path run.path).tag.nloop ≠ 0) :
    imageItem s = .next { s with
      paths := GifPaths.set s.paths run.path (imageWords 1 (s.path run.path))
      pphase := afterWord run w ws (imageWords 1 (s.path run.path)) } := by
  rw [imageItem, dataItem_at h hn, continueParse_take h.rest, setPath_path_self]
  rfl

section Parser

variable {s : State} {run : ParseRun} {w : Word} {ws : List Word}

theorem answersP_tagItem (h : s.parserAt run w ws) (flg : BitVec 2) (t : TagFields) : AnswersP s (tagItem flg t s) := by
  have hphase := h.2.1
  by_cases hc : clips run.path (fetchTag flg t (s.path run.path)).tag ws.length = true
  · rw [tagItem_of_clips h hc]
    have := ProducerStep.parse (s := s) run _ (progressAfter run.path (fetchTag flg t (s.path run.path)).tag
      s.p3Progress) [] _ hphase (.clip flg t) (show (PPhase.reserve ⟨run.path, run.taken⟩).inPrepare = true from rfl)
    rw [List.append_nil] at this
    exact .of_next this
  · rw [tagItem_of_not_clips h hc]
    have := ProducerStep.parse (s := s) run _ (progressAfter run.path (fetchTag flg t (s.path run.path)).tag
      s.p3Progress) [] _ hphase (.tag flg t) (afterWord_inPrepare run w ws (fetchTag flg t (s.path run.path)))
    rw [List.append_nil] at this
    exact .of_next this

theorem answersP_imageItem (h : s.parserAt run w ws) (hn : (s.path run.path).tag.nloop ≠ 0) :
    AnswersP s (imageItem s) := by
  rw [imageItem_at h hn]
  have := ProducerStep.parse (s := s) run _ s.p3Progress [] _ h.2.1 (.image hn)
    (afterWord_inPrepare run w ws (imageWords 1 (s.path run.path)))
  rw [List.append_nil] at this
  exact .of_next this

/-- The parser's next word, whatever it is. -/
theorem answersP_gifCode (h : s.parserAt run w ws) :
    AnswersP s (exec (decode s.cfg.rlSflBase (gifCode (s.path run.path) run.half w)) s) := by
  have hphase := h.2.1
  unfold gifCode
  split
  · exact .of_eq (exec_decodeTag w s) (answersP_tagItem h _ _)
  · rename_i hn
    split
    · refine .of_eq ((exec_decodePacked _ _ s).trans (packedItem_at h hn _ _ _)) (.of_next ?_)
      exact .parse run _ s.p3Progress _ _ hphase (.unit hn) (afterWord_inPrepare _ _ _ _)
    · refine .of_eq ((exec_decodeReglist _ _ _ s).trans (reglistItem_at h hn _ _)) (.of_next ?_)
      refine .parse run _ s.p3Progress _ _ hphase (.unit hn) ?_
      split
      · rfl
      · exact afterWord_inPrepare _ _ _ _
    · exact answersP_imageItem h hn
    · exact answersP_imageItem h hn

end Parser

/-! ### P in an operation -/

theorem answersP_reserveStep {s : State} {pkt : Packet} (hp : s.pphase = .reserve pkt) :
    AnswersP s (reserveStep pkt s) := by
  unfold reserveStep
  split <;> rename_i hguard
  · exact answersP_raise s _ nofun
  · exact .of_next (.wait (by rw [hp]; rfl))
  · exact .of_next (.place pkt hp hguard)
  · exact .of_next (.restart pkt hp hguard)

theorem answersP_slotStep {s : State} {header : Word} {after : AfterCommit} (hp : s.pphase = .slot header after) :
    AnswersP s (slotStep header after s) := by
  unfold slotStep
  split
  · exact answersP_raise s _ nofun
  · split
    · exact .of_next (.slot header after hp (by omega) ‹_›)
    · exact .of_next (.wait (by rw [hp]; rfl))

/-- P's next step in the operation it runs, outside the parser. -/
theorem answersP_producerContinue {s : State} (hs : s.pSignal = false) (hparse : ∀ run, s.pphase ≠ .parsing run) :
    AnswersP s (producerContinue s) := by
  rw [producerContinue, if_neg (by simp [hs])]
  cases hp : s.pphase
  case idle => exact .of_next .pause
  case parsing run => exact absurd hp (hparse run)
  case reserve => exact answersP_reserveStep hp
  case lockAcquire pkt =>
    dsimp only [lockAcquireStep]
    split
    · exact .of_next (.lock pkt hp ‹_›)
    · exact .of_next .pause
  case marker pkt => exact .of_next (.marker pkt hp)
  case originStore pkt => exact .of_next (.origin pkt hp)
  case lockRelease pkt => exact .of_next (.unlock pkt hp)
  case slot => exact answersP_slotStep hp
  case publish offset size after => exact .of_next (.publish offset size after hp)
  case wakeDecision size after => exact .of_next (.wake size after hp)
  case vsyncWait fieldflag =>
    dsimp only [vsyncWaitStep]
    split
    · exact .of_next (.vsyncBelow fieldflag hp ‹_›)
    · exact .of_next (.wait (by rw [hp]; rfl))
  case vsyncCount fieldflag => exact .of_next (.vsyncCount fieldflag hp)
  case closeSignal => exact .of_next (.closeSignal hp)
  case closeWait =>
    dsimp only [closeWaitStep]
    split
    · exact .of_next (.closed hp ‹_›)
    · exact .of_next (.wait (by rw [hp]; rfl))
  case drain after =>
    dsimp only [drainStep]
    split
    · exact .of_next (.drained after hp ‹_›)
    · exact .of_next (.wait (by rw [hp]; rfl))

/-- Every step of P is one of the cases, and only a dead block has none. -/
theorem answersP_stepP (s : State) : AnswersP s (stepP s) := by
  cases hs : s.pSignal with
  | true =>
    rw [stepP_signal hs]
    exact .of_next .signal
  | false =>
    rw [stepP, if_neg (by simp [hs])]
    split
    case h_1 hidle =>
      split
      · exact .of_next .pause
      · exact answersP_decodeRequest hidle hs ‹_›
    case h_2 run hp =>
      unfold parserFetch
      cases hrest : run.rest with
      | nil => exact .of_next (.parsed run hp)
      | cons w ws =>
        by_cases hf : s.fault = none
        · exact answersP_gifCode ⟨hf, hp, hrest⟩
        · exact .inr ⟨hf, exec_dead hf _⟩
    case h_3 hparse => exact answersP_producerContinue hs hparse

theorem producerStep_of_stepP {s t : State} (h : stepP s = .next t) : ProducerStep s t := (answersP_stepP s).next h

end Sys2Proof.Machine
end

section
/-! What one step of C can do: one case for each row of 43_consumer.md R265 and of the loop around it (R240, R241), with
what held before it and the exact next state. -/

namespace Sys2Proof.Machine

/-- Every step of C: what held before it, and the next state. `h` is the header at `read_pos`. -/
inductive ConsumerStep (s : State) : State → Prop
  | pause : ConsumerStep s s
  | wake (waiting : s.cstate = .waiting) : ConsumerStep s (takeWake s)
  | ready (draining : s.cstate = .draining) (phase : s.cphase = .top) (nonempty : s.readPos ≠ s.writePos) :
      ConsumerStep s (toCPhase .dispatch s)
  | drained (draining : s.cstate = .draining) (phase : s.cphase = .top) (empty : s.readPos = s.writePos) :
      ConsumerStep s (toCPhase .leaving s)
  | leave (draining : s.cstate = .draining) (phase : s.cphase = .leaving) : ConsumerStep s (endDrain s)
  | raise (h : Word) (code : ErrCode) (info : W64) (draining : s.cstate = .draining) (phase : s.cphase = .dispatch)
      (fetched : Memory.read s.ring s.readPos = some h)
      (beyond : code = .errOvertake → s.capacity < s.readPos + packetLength h) :
      ConsumerStep s { s with
        fault := s.fault.or (some { code := code, agent := .c, info := info }), cstate := .halted }
  /-- a command whose dispatch is its whole effect: the advance past its packet comes next -/
  | skip (h : Word) (calls : List BackendCall) (seen : Bool) (draining : s.cstate = .draining)
      (phase : s.cphase = .dispatch) (fetched : Memory.read s.ring s.readPos = some h)
      (plain : isRestart h = false) (notVsync : isVsync h = false) :
      ConsumerStep s { s with
        backendTrace := s.backendTrace ++ calls, unkCmdSeen := seen, cphase := .advance (packetLength h) }
  | store (h : Word) (addr n : Nat) (v : W64) (draining : s.cstate = .draining) (phase : s.cphase = .dispatch)
      (fetched : Memory.read s.ring s.readPos = some h) (plain : isRestart h = false) (notVsync : isVsync h = false)
      (fits : addr + n ≤ s.cfg.mirrorBytes) :
      ConsumerStep s (toCPhase (.advance (packetLength h)) (memWrite addr n v s))
  | vsync (h : Word) (fieldflag : W32) (draining : s.cstate = .draining) (phase : s.cphase = .dispatch)
      (fetched : Memory.read s.ring s.readPos = some h) (isVsync : isVsync h = true) :
      ConsumerStep s (toCPhase .vsyncCount (emitBackend (.vsync fieldflag) s))
  | acquire (h : Word) (draining : s.cstate = .draining) (phase : s.cphase = .dispatch)
      (fetched : Memory.read s.ring s.readPos = some h) (isRestart : isRestart h = true)
      (free : s.restartLock = .free) : ConsumerStep s (toCPhase .restartStore (setLock .heldC s))
  | quit (draining : s.cstate = .draining) (phase : s.cphase = .dispatch) :
      ConsumerStep s (toCPhase .quitHalt (emitBackend .close s))
  | advance (k : Nat) (draining : s.cstate = .draining) (phase : s.cphase = .advance k) :
      ConsumerStep s (toCPhase .top (Machine.advance k s))
  | vsyncCount (draining : s.cstate = .draining) (phase : s.cphase = .vsyncCount) :
      ConsumerStep s (toCPhase .vsyncHookA (vsyncDecrement s))
  | hookA (draining : s.cstate = .draining) (phase : s.cphase = .vsyncHookA) :
      ConsumerStep s (toCPhase .vsyncHookB (emitPeriph .a s))
  | hookB (draining : s.cstate = .draining) (phase : s.cphase = .vsyncHookB) :
      ConsumerStep s (toCPhase (.advance 1) (emitPeriph .b s))
  | origin (draining : s.cstate = .draining) (phase : s.cphase = .restartStore) :
      ConsumerStep s (toCPhase .restartRelease { s with readPos := 0 })
  | release (draining : s.cstate = .draining) (phase : s.cphase = .restartRelease) :
      ConsumerStep s (toCPhase .top (setLock .free s))
  | halt (draining : s.cstate = .draining) (phase : s.cphase = .quitHalt) : ConsumerStep s (quitHalt s)

/-- C dispatches at a slot where no whole packet stands written, and meets a slot that nothing has written. -/
def State.MeetsUnwritten (s : State) (r : Result) : Prop :=
  s.cstate = .draining ∧ s.cphase = .dispatch ∧ (∀ h, ¬ PacketAt s.ring s.readPos h) ∧
    ∃ slot, Memory.read s.ring slot = none ∧ r = .fault (.unwrittenSlot slot)

/-- The step C takes is one of the cases, unless it meets an unwritten slot. -/
def AnswersC (s : State) (r : Result) : Prop := Answers s (ConsumerStep s) r ∨ s.MeetsUnwritten r

section

variable {s t : State} {r : Result}

theorem AnswersC.of_next (h : ConsumerStep s t) : AnswersC s (.next t) := .inl (.of_next h)

theorem answersC_alive (h : s.fault = none → AnswersC s r) : AnswersC s (alive s r) := by
  by_cases hf : s.fault = none
  · rw [alive_of_live hf]
    exact h hf
  · exact .inl (.inr ⟨hf, alive_of_dead hf r⟩)

end

theorem read_firstUnwritten {m : Memory Word} {a n : Nat} (h : Memory.readSpan m a n = none) :
    Memory.read m (Memory.firstUnwritten m a n) = none := by
  induction n generalizing a with
  | zero => cases h
  | succ n ih =>
    cases hread : Memory.read m a with
    | none => simp [Memory.firstUnwritten, hread]
    | some x => simpa [Memory.firstUnwritten, hread] using ih (by simpa [Memory.readSpan, hread] using h)

/-! ### The dispatch of a fetched header -/

section Dispatch

variable {s : State} {h : Word}

/-- C stands at this header, and dispatches it next. -/
structure State.Fetched (s : State) (h : Word) : Prop where
  draining : s.cstate = .draining
  phase : s.cphase = .dispatch
  fetched : Memory.read s.ring s.readPos = some h

theorem answersC_ringCommand {body : Result} (hs : s.Fetched h) (hb : AnswersC s body) :
    AnswersC s (ringCommand s body) := by
  refine answersC_alive fun _ => ?_
  rw [hs.draining, hs.phase]
  exact hb

theorem answersC_raise (hs : s.Fetched h) {code : ErrCode} (info : W64)
    (hb : code = .errOvertake → s.capacity < s.readPos + packetLength h) : AnswersC s (raise .c code info s) :=
  .of_next (.raise h code info hs.draining hs.phase hs.fetched hb)

/-- A transfer: `check_span` fails, or a slot of the payload is unwritten, or the words are handed over. -/
theorem answersC_transfer (hs : s.Fetched h) (hc : (headerCommand h).toNat < 3) (p : PathId) :
    AnswersC s (transfer p (headerData 0 h) s) := by
  have hlen := packetLength_of_data hc
  unfold transfer
  split
  · cases hspan : Memory.readSpan s.ring (s.readPos + 1) (headerData 0 h).toNat with
    | some words =>
      dsimp only
      rw [← hlen]
      exact .of_next (.skip h _ _ hs.draining hs.phase hs.fetched (isRestart_eq_false (by omega))
        (isVsync_eq_false (by omega)))
    | none =>
      refine .inr ⟨hs.draining, hs.phase, fun h' hp => ?_, _, read_firstUnwritten hspan, rfl⟩
      obtain ⟨hread, hpayload⟩ := hp
      cases hs.fetched.symm.trans hread
      rw [hlen, Nat.add_sub_cancel_left, hspan] at hpayload
      cases hpayload
  · rename_i hspan
    refine answersC_raise hs _ fun _ => ?_
    have : ¬ s.readPos + 1 + (headerData 0 h).toNat ≤ s.capacity := by simpa [spanFits] using hspan
    omega

theorem answersC_memoryWrite (hs : s.Fetched h) (hc : 7 ≤ (headerCommand h).toNat ∧ (headerCommand h).toNat ≤ 10)
    (off : W32) (n : Nat) (v : W64) : AnswersC s (memoryWrite off n v s) := by
  unfold memoryWrite
  split
  · rename_i hfits
    have hlen : packetLength h = 1 := packetLength_of_not_data (by omega)
    rw [← hlen]
    exact .of_next (.store h _ n v hs.draining hs.phase hs.fetched (isRestart_eq_false (by omega))
      (isVsync_eq_false (by omega)) (memFits_iff.mp hfits).2)
  · exact answersC_raise hs _ nofun

/-- The commands of one slot that are skipped after their call, if they make one. -/
theorem answersC_skip (hs : s.Fetched h) (hlow : 4 ≤ (headerCommand h).toNat) (hr : (headerCommand h).toNat ≠ 14)
    (calls : List BackendCall) (seen : Bool) :
    AnswersC s (.next { s with
      backendTrace := s.backendTrace ++ calls, unkCmdSeen := seen, cphase := .advance 1 }) := by
  have hlen : packetLength h = 1 := packetLength_of_not_data (by omega)
  rw [← hlen]
  exact .of_next (.skip h calls seen hs.draining hs.phase hs.fetched (isRestart_eq_false hr)
    (isVsync_eq_false (by omega)))

/-- RECORD and an id that is skipped call nothing. -/
theorem answersC_skip_silently (hs : s.Fetched h) (hlow : 4 ≤ (headerCommand h).toNat)
    (hr : (headerCommand h).toNat ≠ 14) (seen : Bool) :
    AnswersC s (.next { s with unkCmdSeen := seen, cphase := .advance 1 }) := by
  have hskip := answersC_skip hs hlow hr [] seen
  rwa [List.append_nil] at hskip

/-- Whatever the header, its dispatch is one of the cases. -/
theorem answersC_decodeHeader (hs : s.Fetched h) : AnswersC s (exec (decodeHeader h) s) := by
  unfold decodeHeader
  dsimp only
  split <;> rename_i hc
  case h_1 | h_2 | h_3 => exact answersC_ringCommand hs (answersC_transfer hs (by omega) _)
  case h_4 =>
    exact answersC_ringCommand hs
      (.of_next (.vsync h _ hs.draining hs.phase hs.fetched (isVsync_iff_command.mpr hc)))
  case h_8 | h_9 | h_10 | h_11 => exact answersC_ringCommand hs (answersC_memoryWrite hs (by omega) _ _ _)
  case h_14 => exact answersC_ringCommand hs (answersC_skip_silently hs (by omega) (by omega) s.unkCmdSeen)
  case h_15 =>
    refine answersC_ringCommand hs ?_
    split
    · exact .of_next (.acquire h hs.draining hs.phase hs.fetched (isRestart_iff_command.mpr hc) ‹_›)
    · exact .of_next .pause
  case h_16 => exact answersC_ringCommand hs (.of_next (.quit hs.draining hs.phase))
  case h_17 =>
    refine answersC_ringCommand hs ?_
    split
    · exact answersC_raise hs _ nofun
    · exact answersC_skip_silently hs (by grind) (by grind) true
  all_goals exact answersC_ringCommand hs (answersC_skip hs (by omega) (by omega) [_] s.unkCmdSeen)

end Dispatch

/-! ### C's step -/

theorem answersC_consumerContinue {s : State} (hd : s.cstate = .draining) (ht : s.cphase ≠ .top)
    (hl : s.cphase ≠ .leaving) (hp : s.cphase ≠ .dispatch) : AnswersC s (consumerContinue s) := by
  unfold consumerContinue
  split
  case h_1 k hk => exact .of_next (.advance k hd hk)
  case h_2 hk => exact .of_next (.vsyncCount hd hk)
  case h_3 hk => exact .of_next (.hookA hd hk)
  case h_4 hk => exact .of_next (.hookB hd hk)
  case h_5 hk => exact .of_next (.origin hd hk)
  case h_6 hk => exact .of_next (.release hd hk)
  case h_7 hk => exact .of_next (.halt hd hk)
  case h_8 hk => exact absurd hk ht
  case h_9 hk => exact absurd hk hl
  case h_10 hk => exact absurd hk hp

/-- Every step of C is one of the cases, but for a stop at an unwritten slot. -/
theorem answersC_stepC (s : State) : AnswersC s (stepC s) := by
  unfold stepC
  split
  case h_1 | h_2 => exact .of_next .pause
  case h_3 hw =>
    unfold consumerWait
    split
    · exact .of_next (.wake hw)
    · exact .of_next .pause
  case h_4 hd =>
    split
    case h_1 ht =>
      unfold consumerTest
      split
      · exact .of_next (.drained hd ht ‹_›)
      · exact .of_next (.ready hd ht ‹_›)
    case h_2 hl => exact .of_next (.leave hd hl)
    case h_3 hp =>
      unfold consumerFetch
      cases hread : Memory.read s.ring s.readPos with
      | some h => exact answersC_decodeHeader ⟨hd, hp, hread⟩
      | none =>
        refine .inr ⟨hd, hp, fun h hp => ?_, s.readPos, hread, rfl⟩
        obtain ⟨hsome, -⟩ := hp
        cases hread.symm.trans hsome
    case h_4 ht hl hp =>
      split
      · exact .of_next .pause
      · exact answersC_consumerContinue hd ht hl hp

theorem consumerStep_of_stepC {s t : State} (h : stepC s = .next t) : ConsumerStep s t := by
  obtain hanswers | ⟨-, -, -, slot, -, hfault⟩ := answersC_stepC s
  · exact hanswers.next h
  · rw [hfault] at h
    cases h

/-- A step of the machine is a step of the agent in turn, and then the choice of the next. -/
theorem step_cases {s t : State} (h : step s = .next t) :
    s.fault = none ∧ ∃ u, t = reschedule u ∧ ((s.turn = .p ∧ ProducerStep s u) ∨ (s.turn = .c ∧ ConsumerStep s u)) := by
  obtain ⟨hf, u, hu, rfl⟩ := step_next.mp h
  refine ⟨hf, u, rfl, ?_⟩
  unfold agentStep at hu
  split at hu
  · exact .inl ⟨‹_›, producerStep_of_stepP hu⟩
  · exact .inr ⟨‹_›, consumerStep_of_stepC hu⟩

end Sys2Proof.Machine
end

section
/-! The range and agreement invariant (10_state.md R29, R32, R33, R37, R39): one rule for each update of the state that it
speaks of, and then the cases of the two agents' steps. -/

namespace Sys2Proof.Machine

/-! ### The guards of `reserve`, read backwards (40_ring.md R131 to R135) -/

section Guards

variable {n w r size : Nat}

/-- A packet is placed where it ends at or before the top, and its publish does not reach the consumer's path. -/
theorem reserveCase_eq_place (hn : 0 < n) (h : reserveCase n w r size = .place) :
    size ≤ n - 1 ∧ w + size ≤ n ∧ (if r ≤ w then w + size < n ∨ 0 < r else w + size < r) := by
  by_cases hsize : size ≤ n - 1
  · obtain htop | htop | htop := Nat.lt_trichotomy (w + size) n
    · rw [reserveCase_contiguous hsize htop] at h
      split at h
      · exact ⟨hsize, htop.le, by split <;> omega⟩
      · cases h
    · rw [reserveCase_exact hsize htop] at h
      split at h
      · exact ⟨hsize, htop.le, by split <;> omega⟩
      · cases h
    · rw [reserveCase_wrap hsize htop] at h
      split at h <;> cases h
  · rw [reserveCase_oversize (by omega)] at h
    cases h

/-- The RESTART sequence begins only where a straight live region ends at `write_pos`. -/
theorem reserveCase_eq_restart (h : reserveCase n w r size = .restart) : 0 < r ∧ r ≤ w := by
  by_cases hsize : size ≤ n - 1
  · obtain htop | htop | htop := Nat.lt_trichotomy (w + size) n
    · rw [reserveCase_contiguous hsize htop] at h
      split at h <;> cases h
    · rw [reserveCase_exact hsize htop] at h
      split at h <;> cases h
    · rw [reserveCase_wrap hsize htop] at h
      split at h
      · omega
      · cases h
  · rw [reserveCase_oversize (by omega)] at h
    cases h

end Guards

/-! ### The lock's holders -/

theorem AfterCommit.isRestart_restart (pkt : Packet) : (AfterCommit.restart pkt).isRestart = true := rfl

/-- In PREPARE_DATA's parser and before its `reserve` P holds no lock. -/
theorem holdsLock_of_inPrepare {p : PPhase} (h : p.inPrepare = true) : p.holdsLock = false := by
  unfold PPhase.inPrepare at h
  split at h
  case h_1 | h_2 => rfl
  case h_3 => cases h

theorem Enters.holdsLock {s : State} {p : PPhase} (h : Enters s p) : p.holdsLock = false := by
  cases h
  case prepare _ place => exact holdsLock_of_inPrepare place
  all_goals rfl

/-! ### A rule for each update -/

section Rules

variable {s : State}

/-- A live session: P stands in an operation. -/
theorem State.Inv.opened (h : s.Inv) (hp : s.pphase ≠ .idle) : s.session = .opened := by
  obtain ⟨-, -, -, -, -, -, -, -, -, -, hbusy, -⟩ := h
  exact hbusy.resolve_left hp

theorem State.Inv.writePos_lt (h : s.Inv) : s.writePos < s.capacity := h.2.2.1

/-- P goes to another place, with the lock held at both or at neither. -/
theorem State.Inv.pphase (h : s.Inv) {p : PPhase} (hlock : p.holdsLock = s.pphase.holdsLock)
    (hsession : p = .idle ∨ s.session = .opened) : (toPPhase p s).Inv := by
  obtain ⟨hcfg, hr, hw, hwf, hb, hmwf, hmb, hP, hC, hs, -, hc⟩ := h
  exact ⟨hcfg, hr, hw, hwf, hb, hmwf, hmb, hP.trans (by rw [← hlock]; rfl), hC, hs, hsession, hc⟩

/-- P takes the Free lock. -/
theorem State.Inv.acquireP (h : s.Inv) {p : PPhase} (hfree : s.restartLock = .free) (hp : p.holdsLock = true)
    (ho : s.session = .opened) : (toPPhase p (setLock .heldP s)).Inv := by
  obtain ⟨hcfg, hr, hw, hwf, hb, hmwf, hmb, -, hC, hs, -, hc⟩ := h
  rw [hfree] at hC
  exact ⟨hcfg, hr, hw, hwf, hb, hmwf, hmb, iff_of_true rfl hp, iff_of_false nofun (mt hC.mpr nofun), hs, .inr ho, hc⟩

/-- P releases the lock. -/
theorem State.Inv.releaseP (h : s.Inv) {p : PPhase} (hheld : s.pphase.holdsLock = true) (hp : p.holdsLock = false)
    (ho : s.session = .opened) : (toPPhase p (setLock .free s)).Inv := by
  obtain ⟨hcfg, hr, hw, hwf, hb, hmwf, hmb, hP, hC, hs, -, hc⟩ := h
  rw [hP.mpr hheld] at hC
  exact ⟨hcfg, hr, hw, hwf, hb, hmwf, hmb, iff_of_false nofun (show ¬ p.holdsLock = true by simp [hp]),
    iff_of_false nofun (mt hC.mpr nofun), hs, .inr ho, hc⟩

theorem State.Inv.writePos (h : s.Inv) {v : Nat} (hv : v < s.capacity) : (storeWritePos v s).Inv := by
  obtain ⟨hcfg, hr, -, hrest⟩ := h
  exact ⟨hcfg, hr, hv, hrest⟩

theorem State.Inv.ringSpan (h : s.Inv) {ws : List Word} (hfit : s.writePos + ws.length ≤ s.capacity) :
    (ringWriteSpan s.writePos ws s).Inv := by
  obtain ⟨hcfg, hr, hw, hwf, hb, hrest⟩ := h
  exact ⟨hcfg, hr, hw, Memory.wf_writeSpan _ _ _ hwf, Memory.below_writeSpan _ _ _ _ hfit hb, hrest⟩

/-- One slot written at `write_pos`. -/
theorem State.Inv.ringSlot (h : s.Inv) (w : Word) : (ringWrite s.writePos w s).Inv :=
  h.ringSpan (ws := [w]) h.writePos_lt

theorem State.Inv.faulted (h : s.Inv) (f : FaultRecord) : State.Inv { s with fault := s.fault.or (some f) } := by
  obtain ⟨hcfg, hr, hw, hwf, hb, hmwf, hmb, hP, hC, hs, hbusy, -⟩ := h
  exact ⟨hcfg, hr, hw, hwf, hb, hmwf, hmb, hP, hC, hs, hbusy, .inr (.inr (by simp))⟩

theorem State.Inv.wakeDecide (h : s.Inv) (size : Nat) : (wakeDecide size s).Inv := by
  rw [wakeDecide_eq]
  exact h

/-- CLOSE ends a session in which C has halted. -/
theorem State.Inv.closed (h : s.Inv) (hp : s.pphase = .closeWait) (hhalt : s.cstate = .halted) :
    (toPPhase .idle { s with session := .closed, cstate := .off }).Inv := by
  obtain ⟨hcfg, hr, hw, hwf, hb, hmwf, hmb, hP, hC, -, -, hc⟩ := h
  rw [hp] at hP
  exact ⟨hcfg, hr, hw, hwf, hb, hmwf, hmb, hP, hC, iff_of_true rfl rfl, .inl rfl,
    .inr (hc.resolve_left (by simp [hhalt]))⟩

/-- A block whose items have their reset values, and in which OPEN has begun a session. -/
theorem State.Inv.openSession (h : s.Inv) : (openSession s).Inv := by
  obtain ⟨hcfg, -⟩ := h
  have hpos : 0 < s.capacity := Nat.two_pow_pos _
  exact ⟨hcfg, hpos, hpos, rfl, rfl, rfl, rfl, iff_of_false nofun nofun, iff_of_false nofun nofun,
    iff_of_false nofun nofun, .inl rfl, .inr (.inl rfl)⟩

/-! ### Rules for C -/

/-- C stands elsewhere in its loop or its command, with the lock held at both places or at neither. -/
theorem State.Inv.cphase (h : s.Inv) (hd : s.cstate = .draining) {c : CPhase}
    (hlock : c.holdsLock = s.cphase.holdsLock) : (toCPhase c s).Inv := by
  obtain ⟨hcfg, hr, hw, hwf, hb, hmwf, hmb, hP, hC, hs, hbusy, -⟩ := h
  exact ⟨hcfg, hr, hw, hwf, hb, hmwf, hmb, hP, hC.trans (by rw [← hlock]; rfl), hs, hbusy, .inl hd⟩

/-- C's control state moves within an open session, at the top of its loop. -/
theorem State.Inv.cstate (h : s.Inv) {c : CState} (hlock : s.cphase.holdsLock = false) (hs : s.cstate ≠ .off)
    (hc : c ≠ .off) : State.Inv { s with cstate := c, cphase := .top } := by
  obtain ⟨hcfg, hr, hw, hwf, hb, hmwf, hmb, hP, hC, hoff, hbusy, -⟩ := h
  rw [hlock] at hC
  exact ⟨hcfg, hr, hw, hwf, hb, hmwf, hmb, hP, hC, iff_of_false (mt hoff.mp hs) hc, hbusy, .inr (.inl rfl)⟩

/-- C halts on a fault, wherever it stands. -/
theorem State.Inv.haltedByFault (h : s.Inv) (hs : s.cstate ≠ .off) (f : FaultRecord) :
    State.Inv { s with fault := s.fault.or (some f), cstate := .halted } := by
  obtain ⟨hcfg, hr, hw, hwf, hb, hmwf, hmb, hP, hC, hoff, hbusy, -⟩ := h
  exact ⟨hcfg, hr, hw, hwf, hb, hmwf, hmb, hP, hC, iff_of_false (mt hoff.mp hs) nofun, hbusy, .inr (.inr (by simp))⟩

theorem State.Inv.acquireC (h : s.Inv) (hd : s.cstate = .draining) (hfree : s.restartLock = .free) {c : CPhase}
    (hc : c.holdsLock = true) : (toCPhase c (setLock .heldC s)).Inv := by
  obtain ⟨hcfg, hr, hw, hwf, hb, hmwf, hmb, hP, -, hs, hbusy, -⟩ := h
  rw [hfree] at hP
  exact ⟨hcfg, hr, hw, hwf, hb, hmwf, hmb, iff_of_false nofun (mt hP.mpr nofun), iff_of_true rfl hc, hs, hbusy,
    .inl hd⟩

theorem State.Inv.releaseC (h : s.Inv) (hd : s.cstate = .draining) (hheld : s.cphase.holdsLock = true) {c : CPhase}
    (hc : c.holdsLock = false) : (toCPhase c (setLock .free s)).Inv := by
  obtain ⟨hcfg, hr, hw, hwf, hb, hmwf, hmb, hP, hC, hs, hbusy, -⟩ := h
  rw [hC.mpr hheld] at hP
  exact ⟨hcfg, hr, hw, hwf, hb, hmwf, hmb, iff_of_false nofun (mt hP.mpr nofun),
    iff_of_false nofun (show ¬ c.holdsLock = true by simp [hc]), hs, hbusy, .inl hd⟩

theorem State.Inv.readPos (h : s.Inv) {v : Nat} (hv : v < s.capacity) : State.Inv { s with readPos := v } := by
  obtain ⟨hcfg, -, hrest⟩ := h
  exact ⟨hcfg, hv, hrest⟩

theorem State.Inv.mirror (h : s.Inv) {addr n : Nat} (v : W64) (hfit : addr + n ≤ s.cfg.mirrorBytes) :
    (memWrite addr n v s).Inv := by
  obtain ⟨hcfg, hr, hw, hwf, hb, hmwf, hmb, hrest⟩ := h
  refine ⟨hcfg, hr, hw, hwf, hb, Memory.wf_writeSpan _ _ _ hmwf, Memory.below_writeSpan _ _ _ _ ?_ hmb, hrest⟩
  rwa [leBytes_length]

/-- In a live block C stands inside a command only while it drains. -/
theorem State.Inv.cphase_top (h : s.Inv) (hf : s.fault = none) (hd : s.cstate ≠ .draining) : s.cphase = .top := by
  obtain ⟨-, -, -, -, -, -, -, -, -, -, -, hc⟩ := h
  exact (hc.resolve_left hd).resolve_right (absurd hf)

theorem State.Inv.capacity_pos (h : s.Inv) : 0 < s.capacity := Nat.zero_lt_of_lt h.writePos_lt

end Rules

/-! ### The steps -/

theorem ProducerStep.inv {s t : State} (hstep : ProducerStep s t) (h : s.Inv) : t.Inv := by
  cases hstep
  case pause | signal | wait => exact h
  case raise => exact h.faulted _
  case enter hi ho hop => exact h.pphase (by rw [hop.holdsLock, hi]; rfl) (.inr ho)
  case send hi ho _ _ => exact h.pphase (p := .slot _ .retire) (by rw [hi]; rfl) (.inr ho)
  case openSession idle _ _ _ _ =>
    cases Config.drawInit s.draws with
    | true => exact h.openSession
    | false => exact h.pphase (p := .idle) (by rw [idle.2.1]) (.inl rfl)
  case saveClosed hi _ | loadClosed hi _ => exact h.pphase (p := .idle) (by rw [hi]) (.inl rfl)
  case parse run g p3 notes p hp _ place =>
    have hlock : p.holdsLock = false := holdsLock_of_inPrepare place
    exact h.pphase (p := p) (by rw [hlock, hp]; rfl) (.inr (h.opened (by simp [hp])))
  case parsed run hp => exact h.pphase (by rw [hp]; rfl) (.inr (h.opened (by simp [hp])))
  case place pkt hp hplace =>
    obtain ⟨-, hfit, -⟩ := reserveCase_eq_place h.capacity_pos hplace
    have hring := h.ringSpan (ws := dataHeader pkt.path pkt.payload.length :: pkt.payload) hfit
    exact hring.pphase (p := .idle) (by rw [ringWriteSpan_pphase, hp]; rfl) (.inl rfl)
  case restart pkt hp _ => exact h.pphase (by rw [hp]; rfl) (.inr (h.opened (by simp [hp])))
  case lock pkt hp hfree => exact h.acquireP hfree rfl (h.opened (by simp [hp]))
  case marker pkt hp =>
    exact (h.ringSlot restartHeader).pphase (by rw [ringWrite_pphase, hp]; rfl) (.inr (h.opened (by simp [hp])))
  case origin pkt hp =>
    exact (h.writePos h.capacity_pos).pphase (by rw [storeWritePos_pphase, hp]; rfl) (.inr (h.opened (by simp [hp])))
  case unlock pkt hp => exact h.releaseP (by rw [hp]; rfl) rfl (h.opened (by simp [hp]))
  case slot header after hp _ _ =>
    exact (h.ringSlot header).pphase (by rw [ringWrite_pphase, hp]; rfl) (.inr (h.opened (by simp [hp])))
  case publish offset size after hp =>
    have hstore := h.writePos (v := s.wrap (offset + size)) (Nat.mod_lt _ h.capacity_pos)
    exact hstore.pphase (p := .wakeDecision size after) (by rw [storeWritePos_pphase, hp]; rfl)
      (.inr (h.opened (by simp [hp])))
  case wake size after hp =>
    have hwake := h.wakeDecide size
    have hphase := (wakeDecide_pphase s size).trans hp
    cases after with
    | retire | sendData => exact hwake.pphase (p := .idle) (by rw [hphase]; rfl) (.inl rfl)
    | close | restart => exact hwake.pphase (by rw [hphase]; rfl) (.inr (hwake.opened (by rw [hphase]; nofun)))
  case vsyncBelow hp _ => exact h.pphase (by rw [hp]; rfl) (.inr (h.opened (by simp [hp])))
  case vsyncCount hp =>
    exact h.pphase (p := .slot _ .retire) (by rw [hp]; rfl) (.inr (h.opened (by simp [hp])))
  case closeSignal hp => exact h.pphase (p := .closeWait) (by rw [hp]; rfl) (.inr (h.opened (by simp [hp])))
  case closed hp hhalt => exact h.closed hp hhalt
  case drained after hp _ =>
    cases after <;> exact h.pphase (p := .idle) (by rw [hp]; rfl) (.inl rfl)

theorem ConsumerStep.inv {s t : State} (hf : s.fault = none) (hstep : ConsumerStep s t) (h : s.Inv) : t.Inv := by
  cases hstep
  case pause => exact h
  case wake hw => exact h.cstate (c := .draining) (by rw [h.cphase_top hf (by simp [hw])]; rfl) (by simp [hw]) nofun
  case ready hd hp _ | drained hd hp _ => exact h.cphase hd (by rw [hp]; rfl)
  case leave hd hp => exact h.cstate (c := .waiting) (by rw [hp]; rfl) (by simp [hd]) nofun
  case raise hd _ _ _ => exact h.haltedByFault (by simp [hd]) _
  case skip k _ _ hd hp _ _ _ => exact h.cphase hd (c := .advance (packetLength k)) (by rw [hp]; rfl)
  case store v hd hp _ _ _ hfits => exact (h.mirror v hfits).cphase hd (by rw [memWrite_cphase, hp]; rfl)
  case vsync hd hp _ _ | quit hd hp => exact h.cphase hd (by rw [hp]; rfl)
  case acquire hd hp _ _ hfree => exact h.acquireC hd hfree rfl
  case advance k hd hp => exact (h.readPos (Nat.mod_lt _ h.capacity_pos)).cphase hd (c := .top) (by rw [hp]; rfl)
  case vsyncCount hd hp | hookA hd hp | hookB hd hp => exact h.cphase hd (by rw [hp]; rfl)
  case origin hd hp => exact (h.readPos h.capacity_pos).cphase hd (by rw [hp]; rfl)
  case release hd hp => exact h.releaseC hd (by rw [hp]; rfl) rfl
  case halt hd hp => exact h.cstate (c := .halted) (by rw [hp]; rfl) (by simp [hd]) nofun

/-- Settles O54, by the cases of the agent's step; the choice of the next agent writes no item of the invariant. -/
theorem stepKeepsInv : Obligations.StepKeepsInv := by
  intro s t h hstep
  obtain ⟨hf, u, rfl, hagent⟩ := step_cases hstep
  have hu : u.Inv := by
    obtain ⟨-, hp⟩ | ⟨-, hc⟩ := hagent
    · exact hp.inv h
    · exact hc.inv hf h
  exact hu

end Sys2Proof.Machine
end

section
/-! The live-region invariant (10_state.md R23, R28, R38; 40_ring.md R143) is kept by every step: first what each update
does to the promises of the two agents, then the cases of the agents' steps, and the two statements that rest on them. -/

namespace Sys2Proof.Machine

/-! ### The invariant, assembled and taken apart -/

theorem liveInv_of {s : State} {hs : List Word} (hinv : s.Inv) (hlog : s.cfg.ringLog2 ≤ 32)
    (hresv : s.resv.all (fun r => decide (r.offset = s.writePos)) = true) (hlive : s.liveHeaders = some hs)
    (hprom : s.producerPromise) (hcons : s.cstate = .draining → s.consumerPromise hs)
    (hcount : s.vsyncQueued.toNat + s.vsyncHeadCounted hs = hs.countP isVsync + s.vsyncInFlight)
    (hlimit : s.vsyncQueued.toNat ≤ Config.vsyncLimit.toNat) : s.LiveInv := by
  refine ⟨hinv, hlog, hresv, ?_⟩
  rw [hlive]
  exact ⟨hprom, hcons, hcount, hlimit⟩

theorem State.LiveInv.elim {s : State} (h : s.LiveInv) :
    s.Inv ∧ s.cfg.ringLog2 ≤ 32 ∧ s.resv.all (fun r => decide (r.offset = s.writePos)) = true ∧
      ∃ hs, s.liveHeaders = some hs ∧ s.producerPromise ∧ (s.cstate = .draining → s.consumerPromise hs) ∧
        s.vsyncQueued.toNat + s.vsyncHeadCounted hs = hs.countP isVsync + s.vsyncInFlight ∧
        s.vsyncQueued.toNat ≤ Config.vsyncLimit.toNat := by
  obtain ⟨hinv, hlog, hresv, hlive⟩ := h
  refine ⟨hinv, hlog, hresv, ?_⟩
  split at hlive
  · exact hlive.elim
  · rename_i hs hh
    exact ⟨hs, hh, hlive⟩

theorem State.LiveInv.inv {s : State} (h : s.LiveInv) : s.Inv := h.1

theorem State.LiveInv.promise {s : State} (h : s.LiveInv) : s.producerPromise := h.promises.1

/-- A ring has at least two slots, and by the premise on RING_LOG2 at most `2 ^ 32` (00_scope.md R7). -/
theorem State.LiveInv.capacity_bounds {s : State} (h : s.LiveInv) : 2 ≤ s.capacity ∧ s.capacity ≤ 2 ^ 32 := by
  obtain ⟨⟨hcfg, -⟩, hlog, -⟩ := h
  have hpos : 1 ≤ s.cfg.ringLog2 := by
    simp only [Params.wf, Bool.and_eq_true, decide_eq_true_eq] at hcfg
    omega
  exact ⟨Nat.pow_le_pow_right (n := 2) (by omega) hpos, Nat.pow_le_pow_right (by omega) hlog⟩

/-! ### A step of P that leaves the queue and C's side alone -/

/-- What the invariant says of C's side and of the counter. -/
structure SameCounted (s t : State) : Prop where
  cfg : t.cfg = s.cfg
  cstate : t.cstate = s.cstate
  cphase : t.cphase = s.cphase
  queued : t.vsyncQueued = s.vsyncQueued

theorem State.LiveInv.moveP {s t : State} (h : s.LiveInv) (hinv : t.Inv) (hlive : t.liveHeaders = s.liveHeaders)
    (same : SameCounted s t) (hresv : t.resv.all (fun r => decide (r.offset = t.writePos)) = true)
    (hprom : t.producerPromise) (hflight : t.vsyncInFlight = s.vsyncInFlight) : t.LiveInv := by
  obtain ⟨-, hlog, -, hs, hh, -, hcons, hcount, hlimit⟩ := h.elim
  obtain ⟨hcfg, hcs, hcp, hvq⟩ := same
  have hcons' : t.consumerPromise hs = s.consumerPromise hs := by rw [State.consumerPromise, hcp]; rfl
  have hhead : t.vsyncHeadCounted hs = s.vsyncHeadCounted hs := by rw [State.vsyncHeadCounted, hcp]; rfl
  refine liveInv_of hinv (by rwa [hcfg]) hresv (hlive.trans hh) hprom ?_ ?_ (by rwa [hvq])
  · rw [hcs, hcons']
    exact hcons
  · rw [hvq, hhead, hflight]
    exact hcount

/-- The same for a step that only moves P to another place and keeps the reservation. -/
theorem State.LiveInv.place {s : State} (h : s.LiveInv) {p : PPhase} (hinv : (toPPhase p s).Inv)
    (hmarker : p.markerPublished = s.pphase.markerPublished) (hprom : (toPPhase p s).producerPromise)
    (hflight : (toPPhase p s).vsyncInFlight = s.vsyncInFlight) : (toPPhase p s).LiveInv := by
  obtain ⟨-, -, hresv, -⟩ := h.elim
  exact h.moveP hinv (sameRing_toPPhase hmarker).liveHeaders ⟨rfl, rfl, rfl, rfl⟩ hresv hprom hflight

/-! ### A packet written at `write_pos` -/

section Write

variable {s : State} {header : Word} {payload : List Word}

theorem read_written (ring : Memory Word) (a : Nat) (header : Word) (payload : List Word) :
    Memory.read (Memory.writeSpan ring a (header :: payload)) a = some header :=
  Memory.read_writeSpan_inside ring a 0 (header :: payload) (Nat.succ_pos _)

/-- A packet written at `write_pos` under the guard is ready to publish (40_ring.md R143). -/
theorem readyToPublish_written (hlen : packetLength header = payload.length + 1)
    (hsize : payload.length + 1 ≤ s.capacity - 1) (hfit : s.writePos + (payload.length + 1) ≤ s.capacity)
    (hguard : if s.readPos ≤ s.writePos then s.writePos + (payload.length + 1) < s.capacity ∨ 0 < s.readPos
      else s.writePos + (payload.length + 1) < s.readPos) :
    (ringWriteSpan s.writePos (header :: payload) s).readyToPublish s.writePos (payload.length + 1) := by
  refine ⟨rfl, by omega, hsize, hfit, ?_, ?_, hguard⟩
  · exact Option.isSome_iff_exists.mpr ⟨_, Memory.readSpan_writeSpan_self s.ring s.writePos (header :: payload)⟩
  · rw [ringWriteSpan_ring, read_written]
    exact decide_eq_true hlen

theorem pendingHeader_written {f : Word → Bool} (hf : f header = true) :
    (ringWriteSpan s.writePos (header :: payload) s).pendingHeader s.writePos f := by
  rw [State.pendingHeader, ringWriteSpan_ring, read_written]
  exact hf

/-- The write leaves the queue as it is. -/
theorem liveHeaders_written {ws : List Word} (h : s.LiveInv) (hm : s.pphase.markerPublished = false)
    (hfree : s.readPos ≤ s.writePos ∨ s.writePos + ws.length ≤ s.readPos) :
    (ringWriteSpan s.writePos ws s).liveHeaders = s.liveHeaders := by
  obtain ⟨hr, hw⟩ := h.cursors
  obtain ⟨-, hs, hh, -⟩ := h.promises
  have hq := queued_writeSpan hm hfree ((liveHeaders_iff hr hw).mp hh)
  rw [hh]
  exact (liveHeaders_iff (s := ringWriteSpan s.writePos ws s) hr hw).mpr hq

end Write

/-! ### Headers that P builds -/

theorem isVsync_headerWord {command : W32} (h : command.toNat ≠ 3) (d0 d1 d2 : W32) :
    isVsync (headerWord command d0 d1 d2) = false :=
  isVsync_eq_false (by rwa [headerCommand_headerWord])

theorem isVsync_of_isData {h : Word} (hd : isData h = true) : isVsync h = false := by
  have hlt : (headerCommand h).toNat < 3 := of_decide_eq_true hd
  exact isVsync_eq_false (by omega)

theorem isVsync_of_isRestart {h : Word} (hr : isRestart h = true) : isVsync h = false := by
  have := isRestart_iff_command.mp hr
  exact isVsync_eq_false (by omega)

theorem isRestart_restartHeader : isRestart restartHeader = true :=
  isRestart_iff_command.mpr (by rw [restartHeader, headerCommand_headerWord]; rfl)

/-- A packet of one slot that is no marker: what `enqueue_simple` takes. -/
theorem simple_headerWord {command : W32} (hlow : 3 ≤ command.toNat) (hr : command.toNat ≠ 14) (d0 d1 d2 : W32) :
    isRestart (headerWord command d0 d1 d2) = false ∧ packetLength (headerWord command d0 d1 d2) = 1 := by
  have hcmd := headerCommand_headerWord command d0 d1 d2
  exact ⟨isRestart_eq_false (by rwa [hcmd]), packetLength_of_not_data (by rwa [hcmd])⟩

theorem dataHeader_command (p : PathId) (n : Nat) : (headerCommand (dataHeader p n)).toNat = p.val := by
  have hp : p.val < 3 := p.isLt
  rw [dataHeader, headerCommand_headerWord, BitVec.toNat_ofNat]
  exact Nat.mod_eq_of_lt (show p.val < 2 ^ 32 by omega)

theorem isData_dataHeader (p : PathId) (n : Nat) : isData (dataHeader p n) = true := by
  rw [isData, dataHeader_command]
  exact decide_eq_true p.isLt

/-- A data packet's header holds its payload's size, if 32 bits can. -/
theorem packetLength_dataHeader (p : PathId) {n : Nat} (hn : n < 2 ^ 32) : packetLength (dataHeader p n) = n + 1 := by
  rw [packetLength_of_data (by rw [dataHeader_command]; exact p.isLt), dataHeader, headerData_zero_headerWord,
    BitVec.toNat_ofNat, Nat.mod_eq_of_lt hn, Nat.add_comm]

/-! ### What P's place says -/

section Place

variable {s : State} {p : PPhase}

theorem producerPromise_at (hp : s.pphase = p) (h : s.producerPromise) : (toPPhase p s).producerPromise := by
  rw [← hp]
  exact h

theorem vsyncInFlight_at (hp : s.pphase = p) : s.vsyncInFlight = (toPPhase p s).vsyncInFlight := by
  rw [← hp]
  rfl

theorem vsyncInFlight_slot {header : Word} {after : AfterCommit} (hp : s.pphase = .slot header after) :
    s.vsyncInFlight = if isVsync header then 1 else 0 := by
  rw [vsyncInFlight_at hp]
  rfl

theorem vsyncInFlight_publish {offset size : Nat} {after : AfterCommit} (hp : s.pphase = .publish offset size after) :
    s.vsyncInFlight = if (Memory.read s.ring offset).any isVsync then 1 else 0 := by
  rw [vsyncInFlight_at hp]
  rfl

theorem reservationReady_of_none (h : s.resv = none) : s.reservationReady := by
  rw [State.reservationReady, h]
  trivial

/-- Between operations nothing of a VSYNC is in flight, and the pending reservation is ready. -/
theorem State.LiveInv.idle (h : s.LiveInv) (hp : s.pphase = .idle) : s.reservationReady ∧ s.vsyncInFlight = 0 :=
  ⟨producerPromise_at hp h.promise, vsyncInFlight_at hp⟩

/-- The end of an operation that leaves nothing pending. -/
theorem State.LiveInv.retire (h : s.LiveInv) (hinv : (toPPhase .idle s).Inv)
    (hmarker : s.pphase.markerPublished = false) (hready : s.reservationReady) (hflight : s.vsyncInFlight = 0) :
    (toPPhase .idle s).LiveInv :=
  h.place hinv hmarker.symm hready hflight.symm

end Place

/-- The acceptance of an operation. -/
theorem State.LiveInv.enter {s : State} {p : PPhase} (h : s.LiveInv) (hinv : (toPPhase p s).Inv)
    (hi : s.pphase = .idle) (hop : Enters s p) : (toPPhase p s).LiveInv := by
  obtain ⟨hready, hflight⟩ := h.idle hi
  have hidle : s.pphase.markerPublished = false := by rw [hi]; rfl
  cases hop
  case close hres =>
    refine h.place hinv hidle.symm ⟨.inr rfl, hres, simple_headerWord (by decide) (by decide) _ _ _⟩ ?_
    rw [hflight, vsyncInFlight_slot rfl, isVsync_headerWord (by decide)]
    rfl
  case prepare hres place =>
    cases p
    case parsing | reserve => exact h.place hinv hidle.symm hres hflight.symm
    all_goals cases place
  case sendData r hres =>
    rw [State.reservationReady, hres] at hready
    obtain ⟨hpublish, hdata⟩ := hready
    refine h.place hinv hidle.symm ⟨hpublish, hres, hdata⟩ ?_
    obtain ⟨w, hw, -⟩ := packetAt_of_ready hpublish
    have hnot := isVsync_of_isData (pendingHeader_of_packetAt hw hdata)
    rw [hflight, vsyncInFlight_publish rfl, toPPhase_ring, hw.1]
    simp [hnot]
  case waitDrain => exact h.place hinv hidle.symm hready hflight.symm
  case postVsync hres | save hres | load hres => exact h.place hinv hidle.symm hres hflight.symm

/-! ### The publish -/

/-- One more packet at the end of the queue changes nothing for C. -/
theorem consumer_append {s : State} {hs : List Word} {h : Word} (hcons : s.cstate = .draining → s.consumerPromise hs)
    (htop : s.cstate ≠ .draining → s.cphase = .top) :
    (s.cstate = .draining → s.consumerPromise (hs ++ [h])) ∧ s.vsyncHeadCounted (hs ++ [h]) = s.vsyncHeadCounted hs := by
  cases hs with
  | cons x xs =>
    refine ⟨fun hd => ?_, rfl⟩
    have hx := hcons hd
    unfold State.consumerPromise at hx ⊢
    split <;> simp_all
  | nil =>
    by_cases hd : s.cstate = .draining
    · have hx := hcons hd
      unfold State.consumerPromise at hx ⊢
      unfold State.vsyncHeadCounted
      split at hx <;> simp_all
    · exact ⟨fun hd' => absurd hd' hd, by simp [State.vsyncHeadCounted, htop hd]⟩

/-- What a publish leaves behind: nothing reserved, and after a marker the marker last in the queue. -/
theorem producerPromise_published {s t : State} {offset size : Nat} {after : AfterCommit} {hs : List Word} {p : Word}
    (hprom : s.producerPromise) (hp : s.pphase = .publish offset size after) (hread : Memory.read s.ring offset = some p)
    (ht : t = toPPhase (.wakeDecision size after)
      { storeWritePos (s.wrap (offset + size)) s with resv := resvAfterPublish after s.resv })
    (hlive : t.liveHeaders = some (hs ++ [p])) : t.resv = none ∧ t.producerPromise := by
  have hat := producerPromise_at hp hprom
  subst ht
  obtain ⟨-, hafter⟩ := hat
  cases after with
  | retire | close => exact ⟨hafter.1, hafter.1⟩
  | sendData => exact ⟨rfl, rfl⟩
  | restart pkt =>
    obtain ⟨⟨hres, hpos, -⟩, hmarker⟩ := hafter
    have hpm : isRestart p = true := by simpa [State.pendingHeader, hread] using hmarker
    refine ⟨hres, hres, hpos, ?_⟩
    rw [hlive]
    simp [hpm]

theorem State.LiveInv.publish {s t : State} {offset size : Nat} {after : AfterCommit} (h : s.LiveInv)
    (hf : s.fault = none) (hp : s.pphase = .publish offset size after)
    (ht : t = toPPhase (.wakeDecision size after)
      { storeWritePos (s.wrap (offset + size)) s with resv := resvAfterPublish after s.resv })
    (hinv : t.Inv) : t.LiveInv := by
  obtain ⟨hinv', hlog, -, hs, hh, hprom, hcons, hcount, hlimit⟩ := h.elim
  have same : SameRing (toPPhase (.wakeDecision size after) (storeWritePos (s.wrap (offset + size)) s)) t := by
    subst ht
    exact ⟨rfl, rfl, rfl, rfl, rfl⟩
  obtain ⟨p, hread, hlive⟩ := liveHeaders_publish h hh hp same
  obtain ⟨⟨hoff, -⟩, -⟩ := producerPromise_publish hprom hp
  rw [← hoff] at hread
  obtain ⟨hres, hprom'⟩ := producerPromise_published hprom hp hread ht hlive
  obtain ⟨hcons', hhead⟩ := consumer_append (h := p) hcons (hinv'.cphase_top hf)
  have hflight : s.vsyncInFlight = if isVsync p then 1 else 0 := by
    rw [vsyncInFlight_publish hp, hread]
    rfl
  subst ht
  refine liveInv_of hinv hlog (by rw [hres]; rfl) hlive hprom' hcons' ?_ hlimit
  calc s.vsyncQueued.toNat + s.vsyncHeadCounted (hs ++ [p])
      = hs.countP isVsync + s.vsyncInFlight := by rw [hhead, hcount]
    _ = (hs ++ [p]).countP isVsync + 0 := by rw [hflight, List.countP_append, List.countP_singleton, Nat.add_zero]

/-! ### The other updates of P -/

/-- P writes at `write_pos`, outside the live region. -/
theorem State.LiveInv.written {s t : State} {ws : List Word} (h : s.LiveInv) (hinv : t.Inv)
    (hm : s.pphase.markerPublished = false) (hfree : s.readPos ≤ s.writePos ∨ s.writePos + ws.length ≤ s.readPos)
    (same : SameRing (ringWriteSpan s.writePos ws s) t) (counted : SameCounted s t)
    (hresv : t.resv.all (fun r => decide (r.offset = t.writePos)) = true) (hprom : t.producerPromise)
    (hflight : t.vsyncInFlight = s.vsyncInFlight) : t.LiveInv :=
  h.moveP hinv (same.liveHeaders.trans (liveHeaders_written h hm hfree)) counted hresv hprom hflight

/-- PREPARE_DATA's packet is written, and its reservation pending (R143 a). -/
theorem State.LiveInv.fillPacket {s : State} {pkt : Packet} (h : s.LiveInv) (hinv : (fillPacket pkt s).Inv)
    (hp : s.pphase = .reserve pkt)
    (hplace : reserveCase s.capacity s.writePos s.readPos (pkt.payload.length + 1) = .place) :
    (fillPacket pkt s).LiveInv := by
  obtain ⟨hsize, hfit, hguard⟩ := reserveCase_eq_place h.inv.capacity_pos hplace
  obtain ⟨hlow, hhigh⟩ := h.capacity_bounds
  have hlen := packetLength_dataHeader pkt.path (n := pkt.payload.length) (by omega)
  have hm : s.pphase.markerPublished = false := by rw [hp]; rfl
  exact h.written (ws := dataHeader pkt.path pkt.payload.length :: pkt.payload) hinv hm (place_free hplace)
    ⟨rfl, rfl, rfl, rfl, hm.symm⟩ ⟨rfl, rfl, rfl, rfl⟩ (decide_eq_true rfl)
    ⟨readyToPublish_written hlen hsize hfit hguard, pendingHeader_written (isData_dataHeader _ _)⟩
    (vsyncInFlight_at hp).symm

/-- The marker is written (40_ring.md R136 step 2). -/
theorem State.LiveInv.marker {s : State} {pkt : Packet} (h : s.LiveInv) (hp : s.pphase = .marker pkt)
    (hinv : (toPPhase (.publish s.writePos 1 (.restart pkt)) (ringWrite s.writePos restartHeader s)).Inv) :
    (toPPhase (.publish s.writePos 1 (.restart pkt)) (ringWrite s.writePos restartHeader s)).LiveInv := by
  obtain ⟨hres, hpos, hle⟩ : s.wrapGuardHolds := producerPromise_at hp h.promise
  obtain ⟨-, -, hresv, -⟩ := h.elim
  obtain ⟨hlow, -⟩ := h.capacity_bounds
  have hm : s.pphase.markerPublished = false := by rw [hp]; rfl
  have hready := readyToPublish_written (s := s) (header := restartHeader) (payload := [])
    (packetLength_of_isRestart isRestart_restartHeader) (Nat.le_sub_of_add_le hlow) h.inv.writePos_lt
    (by rw [if_pos hle]; exact .inr hpos)
  refine h.written (ws := [restartHeader]) hinv hm (.inl hle) ⟨rfl, rfl, rfl, rfl, hm.symm⟩ ⟨rfl, rfl, rfl, rfl⟩ hresv
    ⟨hready, ⟨hres, hpos, hle⟩, pendingHeader_written (s := s) (payload := []) isRestart_restartHeader⟩ ?_
  rw [vsyncInFlight_at hp, vsyncInFlight_publish rfl, toPPhase_ring, ringWrite_ring, Memory.read_write_self]
  simp only [Option.any_some, isVsync_of_isRestart isRestart_restartHeader]
  rfl

/-- A header of one slot is written (R140). -/
theorem State.LiveInv.slot {s : State} {header : Word} {after : AfterCommit} (h : s.LiveInv)
    (hp : s.pphase = .slot header after) (hfree : slotGuard s = true)
    (hinv : (toPPhase (.publish s.writePos 1 after) (ringWrite s.writePos header s)).Inv) :
    (toPPhase (.publish s.writePos 1 after) (ringWrite s.writePos header s)).LiveInv := by
  obtain ⟨hafter, hres, hplain, hlen⟩ : (after = .retire ∨ after = .close) ∧ s.resv = none ∧
    isRestart header = false ∧ packetLength header = 1 := producerPromise_at hp h.promise
  obtain ⟨-, -, hresv, -⟩ := h.elim
  obtain ⟨hlow, -⟩ := h.capacity_bounds
  obtain ⟨hr, hw⟩ := h.cursors
  have hm : s.pphase.markerPublished = false := by obtain rfl | rfl := hafter <;> rw [hp] <;> rfl
  have hguard : if s.readPos ≤ s.writePos then s.writePos + 1 < s.capacity ∨ 0 < s.readPos
      else s.writePos + 1 < s.readPos := by
    have hne : (s.writePos + 1) % s.capacity ≠ s.readPos := of_decide_eq_true hfree
    rcases Nat.lt_or_eq_of_le (Nat.succ_le_of_lt hw) with hbelow | htop
    · rw [Nat.mod_eq_of_lt hbelow] at hne
      split <;> omega
    · rw [show s.writePos + 1 = s.capacity from htop, Nat.mod_self] at hne
      split <;> omega
  have hready := readyToPublish_written (s := s) (header := header) (payload := []) hlen
    (Nat.le_sub_of_add_le hlow) h.inv.writePos_lt hguard
  have hpending : (ringWrite s.writePos header s).pendingHeader s.writePos (fun w => !isRestart w) :=
    pendingHeader_written (payload := []) (by simp [hplain])
  have hclear : s.readPos ≤ s.writePos ∨ s.writePos + 1 ≤ s.readPos := by split at hguard <;> omega
  refine h.written (ws := [header]) hinv hm hclear ⟨rfl, rfl, rfl, rfl, ?_⟩
    ⟨rfl, rfl, rfl, rfl⟩ hresv ⟨hready, ?_⟩ ?_
  · obtain rfl | rfl := hafter <;> exact hm.symm
  · obtain rfl | rfl := hafter <;> exact ⟨hres, hpending⟩
  · rw [vsyncInFlight_slot hp, vsyncInFlight_publish rfl, toPPhase_ring, ringWrite_ring, Memory.read_write_self]
    rfl

/-- `write_pos` goes to 0, where the live region has ended since the marker's publish (R136 step 4). -/
theorem State.LiveInv.origin {s : State} {pkt : Packet} (h : s.LiveInv) (hp : s.pphase = .originStore pkt)
    (hinv : (toPPhase (.lockRelease pkt) (storeWritePos 0 s)).Inv) :
    (toPPhase (.lockRelease pkt) (storeWritePos 0 s)).LiveInv := by
  have hlast := h.promise
  rw [State.producerPromise, hp] at hlast
  obtain ⟨hres, -⟩ := hlast
  have hend : s.liveEnd = 0 := liveEnd_of_marker (by rw [hp]; rfl)
  refine h.moveP hinv ?_ ⟨rfl, rfl, rfl, rfl⟩ (by simp [hres]) hres (vsyncInFlight_at hp).symm
  unfold State.liveHeaders
  rw [hend]
  rfl

/-- The end of a commit: the operation ends or goes on (R137, R138). -/
theorem State.LiveInv.afterCommit {s : State} {size : Nat} {after : AfterCommit} (h : s.LiveInv)
    (hp : s.pphase = .wakeDecision size after) (hinv : (afterCommit after s).Inv) : (afterCommit after s).LiveInv := by
  have hprom := producerPromise_at hp h.promise
  have hflight := vsyncInFlight_at hp
  cases after with
  | retire | sendData => exact h.retire hinv (by rw [hp]; rfl) (reservationReady_of_none hprom) hflight
  | close | restart => exact h.place hinv (by rw [hp]; rfl) hprom hflight.symm

/-- POST_VSYNC's count: the packet it will enqueue is in flight (42_producer.md R209). -/
theorem State.LiveInv.countVsync {s : State} {fieldflag : W32} (h : s.LiveInv) (hp : s.pphase = .vsyncCount fieldflag)
    (hinv : (toPPhase (.slot (headerWord 3 fieldflag 0 0) .retire) (vsyncIncrement s)).Inv) :
    (toPPhase (.slot (headerWord 3 fieldflag 0 0) .retire) (vsyncIncrement s)).LiveInv := by
  obtain ⟨-, hlog, hresv, hs, hh, hprom, hcons, hcount, hlimit⟩ := h.elim
  obtain ⟨hres, hbelow⟩ : s.resv = none ∧ s.vsyncQueued.toNat < Config.vsyncLimit.toNat := producerPromise_at hp hprom
  rw [Config.vsyncLimit_toNat] at hbelow
  have hinc : (s.vsyncQueued + 1).toNat = s.vsyncQueued.toNat + 1 := by
    rw [BitVec.toNat_add]
    exact Nat.mod_eq_of_lt (show s.vsyncQueued.toNat + 1 < 16 by omega)
  have hflight : s.vsyncInFlight = 0 := vsyncInFlight_at hp
  have hlive := (SameRing.liveHeaders (s := s) (t := toPPhase (.slot (headerWord 3 fieldflag 0 0) .retire)
    (vsyncIncrement s)) ⟨rfl, rfl, rfl, rfl, by rw [hp]; rfl⟩).trans hh
  refine liveInv_of hinv hlog hresv hlive ⟨.inl rfl, hres, simple_headerWord (by decide) (by decide) _ _ _⟩ hcons ?_
    (hinc.trans_le hbelow)
  have hvsync : isVsync (headerWord 3 fieldflag 0 0) = true :=
    isVsync_iff_command.mpr (by rw [headerCommand_headerWord]; rfl)
  calc (s.vsyncQueued + 1).toNat + s.vsyncHeadCounted hs
      = hs.countP isVsync + 1 := by omega
    _ = hs.countP isVsync + if isVsync (headerWord 3 fieldflag 0 0) = true then 1 else 0 := by rw [if_pos hvsync]

/-- CLOSE ends the session; what C has not consumed stays in the ring until OPEN (R202). -/
theorem State.LiveInv.closed {s : State} (h : s.LiveInv) (hp : s.pphase = .closeWait)
    (hinv : (toPPhase .idle { s with session := .closed, cstate := .off }).Inv) :
    (toPPhase .idle { s with session := .closed, cstate := .off }).LiveInv := by
  obtain ⟨-, hlog, hresv, hs, hh, hprom, -, hcount, hlimit⟩ := h.elim
  have hres : s.resv = none := producerPromise_at hp hprom
  have hflight : s.vsyncInFlight = 0 := vsyncInFlight_at hp
  have hlive := (SameRing.liveHeaders (s := s) (t := toPPhase .idle { s with session := .closed, cstate := .off })
    ⟨rfl, rfl, rfl, rfl, by rw [hp]; rfl⟩).trans hh
  exact liveInv_of hinv hlog hresv hlive (reservationReady_of_none hres) nofun (hcount.trans (by rw [hflight]; rfl)) hlimit

/-- A session that OPEN has begun: nothing is in the ring. -/
theorem State.LiveInv.openSession {s : State} (h : s.LiveInv) (hinv : (openSession s).Inv) :
    (openSession s).LiveInv :=
  liveInv_of hinv h.elim.2.1 rfl (liveHeaders_of_drained rfl rfl) trivial nofun rfl (Nat.zero_le _)

/-! ### P's steps -/

theorem ProducerStep.liveInv {s t : State} (hf : s.fault = none) (hstep : ProducerStep s t) (h : s.LiveInv) :
    t.LiveInv := by
  have hinv := hstep.inv h.inv
  have hresv := h.elim.2.2.1
  cases hstep
  case pause | signal | wait => exact h
  case raise => exact ⟨hinv, h.2⟩
  case enter hi _ hop => exact h.enter hinv hi hop
  case send command d0 d1 d2 hi _ hres hfree =>
    obtain ⟨-, hflight⟩ := h.idle hi
    obtain ⟨hlow, hr⟩ : 4 ≤ command.toNat ∧ command.toNat ≠ 14 := by simpa [reservedCommand] using hfree
    refine h.place (p := .slot (headerWord command d0 d1 d2) .retire) hinv (by rw [hi]; rfl)
      ⟨.inl rfl, hres, simple_headerWord (by omega) hr _ _ _⟩ ?_
    rw [hflight, vsyncInFlight_slot rfl, isVsync_headerWord (by omega)]
    rfl
  case openSession idle _ _ _ _ =>
    obtain ⟨-, hi, -⟩ := idle
    revert hinv
    cases Config.drawInit s.draws with
    | true => exact h.openSession
    | false =>
      intro hinv
      obtain ⟨hready, hflight⟩ := h.idle hi
      exact h.retire hinv (by rw [hi]; rfl) hready hflight
  case saveClosed hi _ | loadClosed hi _ =>
    obtain ⟨hready, hflight⟩ := h.idle hi
    exact h.retire hinv (by rw [hi]; rfl) hready hflight
  case parse run g p3 notes p hp _ place =>
    have hres : s.resv = none := producerPromise_at hp h.promise
    cases p
    case parsing | reserve => exact h.place hinv (by rw [hp]; rfl) hres (vsyncInFlight_at hp).symm
    all_goals cases place
  case parsed run hp =>
    have hres : s.resv = none := producerPromise_at hp h.promise
    exact h.place hinv (by rw [hp]; rfl) hres (vsyncInFlight_at hp).symm
  case place pkt hp hplace => exact h.fillPacket hinv hp hplace
  case restart pkt hp hrestart =>
    have hres : s.resv = none := producerPromise_at hp h.promise
    exact h.place hinv (by rw [hp]; rfl) ⟨hres, reserveCase_eq_restart hrestart⟩ (vsyncInFlight_at hp).symm
  case lock pkt hp hfree =>
    have hguard : s.wrapGuardHolds := producerPromise_at hp h.promise
    exact h.moveP hinv (SameRing.liveHeaders ⟨rfl, rfl, rfl, rfl, by rw [hp]; rfl⟩) ⟨rfl, rfl, rfl, rfl⟩ hresv hguard
      (vsyncInFlight_at hp).symm
  case marker pkt hp => exact h.marker hp hinv
  case origin pkt hp => exact h.origin hp hinv
  case unlock pkt hp =>
    have hres : s.resv = none := producerPromise_at hp h.promise
    exact h.moveP hinv (SameRing.liveHeaders ⟨rfl, rfl, rfl, rfl, by rw [hp]; rfl⟩) ⟨rfl, rfl, rfl, rfl⟩ hresv hres
      (vsyncInFlight_at hp).symm
  case slot header after hp _ hfree => exact h.slot hp hfree hinv
  case publish offset size after hp => exact h.publish hf hp rfl hinv
  case wake size after hp =>
    have hwake : (wakeDecide size s).LiveInv := by
      rw [wakeDecide_eq]
      exact h
    exact hwake.afterCommit ((wakeDecide_pphase s size).trans hp) hinv
  case vsyncBelow hp hbelow =>
    have hres : s.resv = none := producerPromise_at hp h.promise
    exact h.place hinv (by rw [hp]; rfl) ⟨hres, hbelow⟩ (vsyncInFlight_at hp).symm
  case vsyncCount hp => exact h.countVsync hp hinv
  case closeSignal hp =>
    have hres : s.resv = none := producerPromise_at hp h.promise
    exact h.place (p := .closeWait) hinv (by rw [hp]; rfl) hres (vsyncInFlight_at hp).symm
  case closed hp _ => exact h.closed hp hinv
  case drained after hp _ =>
    have hprom := producerPromise_at hp h.promise
    cases after with
    | retire => exact h.retire hinv (by rw [hp]; rfl) hprom (vsyncInFlight_at hp)
    | save | load => exact h.retire hinv (by rw [hp]; rfl) (reservationReady_of_none hprom) (vsyncInFlight_at hp)

end Sys2Proof.Machine
end

section
/-! The live-region invariant under the steps of C (43_consumer.md R246, R248): `read_pos` moves towards the end of the
live region only, and so P's promises, which are about what lies between the cursors, still hold. -/

namespace Sys2Proof.Machine

/-! ### `read_pos` on its way to the end of the queue -/

theorem Queued.eq_of_nil {ring : Memory Word} {n r e : Nat} (hq : Queued ring n r e []) (hrn : r < n) : r = e := by
  by_cases hre : r ≤ e
  · exact (queued_of_le hre).mp hq
  · obtain ⟨xs, ys, hnil, hx, -⟩ := (queued_of_lt (by omega)).mp hq
    obtain ⟨rfl, rfl⟩ := List.append_eq_nil_iff.mp hnil.symm
    exact absurd hx (Nat.ne_of_lt hrn)

/-- The cursor goes from `r` to `r'` without passing `w`. -/
def StaysBehind (r r' w : Nat) : Prop := (r ≤ w → r ≤ r' ∧ r' ≤ w) ∧ (w < r → r' = 0 ∨ r < r')

theorem Queued.staysBehind_advance {ring : Memory Word} {n r e : Nat} {h : Word} {hs : List Word}
    (hq : Queued ring n r e (h :: hs)) (hrn : r < n) (hen : e < n) (hr : isRestart h = false) :
    StaysBehind r ((r + packetLength h) % n) e := by
  have hpos := packetLength_pos h
  refine ⟨fun hre => ?_, fun hre => ?_⟩
  · obtain ⟨-, -, hrest⟩ := (queued_of_le hre).mp hq
    have := hrest.le
    rw [Nat.mod_eq_of_lt (by omega)]
    omega
  · obtain ⟨xs, ys, hcons, hx, -⟩ := (queued_of_lt hre).mp hq
    cases xs with
    | nil => exact absurd hx (Nat.ne_of_lt hrn)
    | cons x xs =>
      cases hcons
      obtain ⟨-, -, hrest⟩ := hx
      rw [if_neg (by simp [hr])] at hrest
      rcases Nat.lt_or_eq_of_le hrest.le with hlt | htop
      · rw [Nat.mod_eq_of_lt hlt]
        omega
      · rw [htop, Nat.mod_self]
        exact .inl rfl

/-- A marker at the head lies above the end of the live region. -/
theorem Queued.lt_of_restart {ring : Memory Word} {n r e : Nat} {h : Word} {hs : List Word}
    (hq : Queued ring n r e (h :: hs)) (hr : isRestart h = true) : e < r := by
  by_contra hre
  obtain ⟨-, hplain, -⟩ := (queued_of_le (by omega)).mp hq
  rw [hr] at hplain
  cases hplain

/-- While the marker is the last packet, C comes to it and not past it. -/
theorem Queued.marker_advance {ring : Memory Word} {n r : Nat} {h : Word} {hs : List Word}
    (hq : Queued ring n r 0 (h :: hs)) (hr0 : 0 < r) (hr : isRestart h = false)
    (hlast : (h :: hs).getLast?.all isRestart = true) :
    0 < (r + packetLength h) % n ∧ hs.getLast?.all isRestart = true := by
  obtain ⟨xs, ys, hcons, hx, hy⟩ := (queued_of_lt hr0).mp hq
  obtain rfl : ys = [] := by
    have := hy.le
    exact List.length_eq_zero_iff.mp (by omega)
  rw [List.append_nil] at hcons
  subst hcons
  obtain ⟨-, -, hrest⟩ := hx
  rw [if_neg (by simp [hr])] at hrest
  cases hs with
  | nil => simp [hr] at hlast
  | cons y ys =>
    rw [Nat.mod_eq_of_lt hrest.1]
    exact ⟨by omega, by rwa [List.getLast?_cons_cons] at hlast⟩

/-! ### P's promises while C moves -/

section Promise

variable {s : State} {r : Nat}

theorem State.readyToPublish.staysBehind {off size : Nat} (h : s.readyToPublish off size)
    (hcap : s.readPos < s.capacity) (hr : StaysBehind s.readPos r s.writePos) : State.readyToPublish { s with readPos := r } off size := by
  obtain ⟨rfl, hpos, hsize, hfit, hspan, hlen, hguard⟩ := h
  obtain ⟨hlow, hhigh⟩ := hr
  refine ⟨rfl, hpos, hsize, hfit, hspan, hlen, ?_⟩
  change if r ≤ s.writePos then s.writePos + size < s.capacity ∨ 0 < r else s.writePos + size < r
  split at hguard <;> split <;> omega

theorem State.reservationReady.staysBehind (h : s.reservationReady) (hcap : s.readPos < s.capacity)
    (hr : StaysBehind s.readPos r s.writePos) :
    State.reservationReady { s with readPos := r } := by
  unfold State.reservationReady at h ⊢
  cases hres : s.resv with
  | none => trivial
  | some v =>
    rw [hres] at h
    obtain ⟨hready, hdata⟩ := h
    exact ⟨hready.staysBehind hcap hr, hdata⟩

theorem State.wrapGuardHolds.staysBehind (h : s.wrapGuardHolds) (hr : StaysBehind s.readPos r s.writePos) :
    State.wrapGuardHolds { s with readPos := r } := by
  obtain ⟨hres, hpos, hle⟩ := h
  obtain ⟨hlow, hhigh⟩ := hr.1 hle
  exact ⟨hres, Nat.lt_of_lt_of_le hpos hlow, hhigh⟩

/-- Before a marker is published all that P has promised is about the slots from `write_pos` up to `read_pos`. -/
theorem producerPromise_staysBehind (h : s.producerPromise) (hm : s.pphase.markerPublished = false)
    (hcap : s.readPos < s.capacity) (hr : StaysBehind s.readPos r s.writePos) : State.producerPromise { s with readPos := r } := by
  unfold State.producerPromise at h ⊢
  dsimp only
  cases hp : s.pphase <;> rw [hp] at h hm
  case idle => exact State.reservationReady.staysBehind h hcap hr
  case lockAcquire | marker => exact State.wrapGuardHolds.staysBehind h hr
  case publish offset size after =>
    obtain ⟨hready, hafter⟩ := h
    refine ⟨hready.staysBehind hcap hr, ?_⟩
    cases after with
    | retire | close | sendData => exact hafter
    | restart pkt => exact ⟨hafter.1.staysBehind hr, hafter.2⟩
  case wakeDecision size after =>
    cases after with
    | retire | close | sendData => exact h
    | restart pkt => cases hm
  case originStore => cases hm
  case drain after =>
    cases after with
    | retire => exact State.reservationReady.staysBehind h hcap hr
    | save | load => exact h
  all_goals exact h

/-- Once the marker is published P's promise is that it is last and that C has not passed it. -/
theorem producerPromise_iff_markerIsLast (hm : s.pphase.markerPublished = true) :
    s.producerPromise ↔ s.markerIsLast := by
  unfold State.producerPromise
  cases hp : s.pphase <;> rw [hp] at hm
  case wakeDecision size after =>
    cases after with
    | retire | close | sendData => cases hm
    | restart pkt => exact Iff.rfl
  all_goals cases hm

end Promise

/-! ### A step of C that leaves the queue alone -/

/-- `t` differs from `s` only in items that C's steps write, `read_pos` and `vsync_queued` apart. -/
def MovesConsumer (s t : State) : Prop :=
  t = { s with
    cphase := t.cphase, cstate := t.cstate, busy := t.busy, wakePending := t.wakePending, fault := t.fault
    restartLock := t.restartLock, unkCmdSeen := t.unkCmdSeen, mirror := t.mirror, backendTrace := t.backendTrace
    periphTrace := t.periphTrace }

theorem State.LiveInv.moveC {s t : State} {hs : List Word} (h : s.LiveInv) (hinv : t.Inv) (hmoves : MovesConsumer s t)
    (hh : s.liveHeaders = some hs) (hcons : t.cstate = .draining → t.consumerPromise hs)
    (hhead : t.vsyncHeadCounted hs = s.vsyncHeadCounted hs) : t.LiveInv := by
  obtain ⟨-, hlog, hresv, hs', hh', hprom, -, hcount, hlimit⟩ := h.elim
  cases hh.symm.trans hh'
  rw [← hhead] at hcount
  rw [hmoves] at hinv hcons hcount ⊢
  exact liveInv_of hinv hlog hresv hh hprom hcons hcount hlimit

/-! ### C's steps with the packet at the head -/

section Head

variable {s : State} {h : Word} {hs : List Word}

/-- The packet C has fetched is the first of the queue. -/
theorem State.LiveInv.head_fetched (hl : s.LiveInv) (hd : s.cstate = .draining) (hp : s.cphase = .dispatch)
    (hh : s.liveHeaders = some hs) (hread : Memory.read s.ring s.readPos = some h) : ∃ rest, hs = h :: rest := by
  obtain ⟨hr, hw⟩ := hl.cursors
  obtain ⟨-, hs', hh', hcons⟩ := hl.promises
  cases hh.symm.trans hh'
  obtain ⟨p, rest, rfl⟩ := consumerPromise_dispatch (hcons hd) hp
  obtain ⟨hfirst, -⟩ := ((liveHeaders_iff hr hw).mp hh).packetAt hr
  cases hfirst.symm.trans hread
  exact ⟨rest, rfl⟩

/-- With the cursors apart the queue is not empty. -/
theorem State.LiveInv.nonempty (hl : s.LiveInv) (hh : s.liveHeaders = some hs) (hne : s.readPos ≠ s.writePos) :
    hs ≠ [] := by
  rintro rfl
  obtain ⟨hr, hw⟩ := hl.cursors
  have hend := ((liveHeaders_iff hr hw).mp hh).eq_of_nil hr
  cases hm : s.pphase.markerPublished with
  | false => exact hne (hend.trans (liveEnd_of_not_marker hm))
  | true =>
    obtain ⟨-, hpos, -⟩ := (producerPromise_iff_markerIsLast hm).mp hl.promise
    rw [liveEnd_of_marker hm] at hend
    omega

theorem consumerPromise_at {c : CPhase} (hp : s.cphase = c) (hc : s.consumerPromise hs) :
    (toCPhase c s).consumerPromise hs := by
  rw [← hp]
  exact hc

theorem vsyncHeadCounted_at {c : CPhase} (hp : s.cphase = c) :
    s.vsyncHeadCounted hs = (toCPhase c s).vsyncHeadCounted hs := by
  rw [← hp]
  rfl

theorem vsyncHeadCounted_of_at {t : State} {c : CPhase} (hp : s.cphase = c)
    (ht : t.vsyncHeadCounted hs = (toCPhase c s).vsyncHeadCounted hs) : t.vsyncHeadCounted hs = s.vsyncHeadCounted hs :=
  ht.trans (vsyncHeadCounted_at hp).symm

/-- A published marker and a RESTART that C is in the middle of exclude each other: each holds the lock (R29). -/
theorem State.Inv.marker_of_restartStore (hinv : s.Inv) (hp : s.cphase = .restartStore) :
    s.pphase.markerPublished = false := by
  obtain ⟨-, -, -, -, -, -, -, hP, hC, -⟩ := hinv
  have hheld : s.restartLock = .heldC := hC.mpr (by rw [hp]; rfl)
  rw [hheld] at hP
  have hnot : s.pphase.holdsLock = false := Bool.eq_false_iff.mpr (mt hP.mpr nofun)
  unfold PPhase.holdsLock at hnot
  unfold PPhase.markerPublished
  split <;> simp_all

/-- The advance past the packet at the head (43_consumer.md R248). -/
theorem State.LiveInv.advance {k : Nat} (hl : s.LiveInv) (hd : s.cstate = .draining) (hp : s.cphase = .advance k)
    (hinv : (toCPhase .top (advance k s)).Inv) : (toCPhase .top (Machine.advance k s)).LiveInv := by
  obtain ⟨-, hlog, hresv, hs, hh, hprom, hcons, hcount, hlimit⟩ := hl.elim
  obtain ⟨h, rest, rfl, rfl, hplain⟩ := consumerPromise_advance (hcons hd) hp
  obtain ⟨hr, hw⟩ := hl.cursors
  have hq := (liveHeaders_iff hr hw).mp hh
  have hend := liveEnd_lt hw
  have hlive : (toCPhase .top (Machine.advance (packetLength h) s)).liveHeaders = some rest :=
    (liveHeaders_iff (s := toCPhase .top (Machine.advance (packetLength h) s))
      (Nat.mod_lt _ hl.inv.capacity_pos) hw).mpr (hq.advance hr hend hplain)
  have hprom' : (toCPhase .top (Machine.advance (packetLength h) s)).producerPromise := by
    cases hm : s.pphase.markerPublished with
    | false =>
      have hbehind := hq.staysBehind_advance hr hend hplain
      rw [liveEnd_of_not_marker hm] at hbehind
      exact producerPromise_staysBehind (s := s) hprom hm hr hbehind
    | true =>
      obtain ⟨hres, hpos, hlast⟩ := (producerPromise_iff_markerIsLast hm).mp hprom
      rw [hh] at hlast
      rw [liveEnd_of_marker hm] at hq
      obtain ⟨hpos', hlast'⟩ := hq.marker_advance hpos hplain hlast
      refine (producerPromise_iff_markerIsLast (s := toCPhase .top (Machine.advance (packetLength h) s)) hm).mpr
        ⟨hres, hpos', ?_⟩
      rw [hlive]
      exact hlast'
  refine liveInv_of hinv hlog hresv hlive hprom' (fun _ => trivial) ?_ hlimit
  rw [vsyncHeadCounted_at hp] at hcount
  have hcounted : s.vsyncQueued.toNat + (if isVsync h = true then 1 else 0) =
      (rest.countP isVsync + if isVsync h = true then 1 else 0) + s.vsyncInFlight := by
    rw [← List.countP_cons]
    exact hcount
  change s.vsyncQueued.toNat + 0 = rest.countP isVsync + s.vsyncInFlight
  split at hcounted <;> omega

/-- The return to slot 0 at the marker at the head (R246). -/
theorem State.LiveInv.restartOrigin (hl : s.LiveInv) (hd : s.cstate = .draining) (hp : s.cphase = .restartStore)
    (hinv : (toCPhase .restartRelease { s with readPos := 0 }).Inv) :
    (toCPhase .restartRelease { s with readPos := 0 }).LiveInv := by
  obtain ⟨-, hlog, hresv, hs, hh, hprom, hcons, hcount, hlimit⟩ := hl.elim
  obtain ⟨h, rest, rfl, hmarker⟩ := consumerPromise_restartStore (hcons hd) hp
  obtain ⟨hr, hw⟩ := hl.cursors
  have hq := (liveHeaders_iff hr hw).mp hh
  have hm := hl.inv.marker_of_restartStore hp
  have hlive := (liveHeaders_iff (s := toCPhase .restartRelease { s with readPos := 0 }) hl.inv.capacity_pos hw).mpr
    (hq.restart hr hmarker)
  have hlt := hq.lt_of_restart hmarker
  rw [liveEnd_of_not_marker hm] at hlt
  have hbehind : StaysBehind s.readPos 0 s.writePos := ⟨fun hle => by omega, fun _ => .inl rfl⟩
  refine liveInv_of hinv hlog hresv hlive (producerPromise_staysBehind (s := s) hprom hm hr hbehind) (fun _ => trivial) ?_ hlimit
  rw [vsyncHeadCounted_at hp, List.countP_cons, isVsync_of_isRestart hmarker] at hcount
  exact hcount

/-- The decrement of the VSYNC at the head, which is counted (R249). -/
theorem State.LiveInv.vsyncDecrement (hl : s.LiveInv) (hd : s.cstate = .draining) (hp : s.cphase = .vsyncCount)
    (hinv : (toCPhase .vsyncHookA (vsyncDecrement s)).Inv) : (toCPhase .vsyncHookA (vsyncDecrement s)).LiveInv := by
  obtain ⟨-, hlog, hresv, hs, hh, hprom, hcons, hcount, hlimit⟩ := hl.elim
  have hhead : hs.head?.any isVsync = true := consumerPromise_at hp (hcons hd)
  rw [vsyncHeadCounted_at hp] at hcount
  have hpos : 0 < hs.countP isVsync := by
    cases hs with
    | nil => cases hhead
    | cons h rest => exact List.countP_pos_iff.mpr ⟨h, List.mem_cons_self, hhead⟩
  have hzero : (toCPhase .vsyncCount s).vsyncHeadCounted hs = 0 := rfl
  have hdec : (s.vsyncQueued - 1).toNat = s.vsyncQueued.toNat - 1 := by
    have h1 : (1 : BitVec 4).toNat = 1 := rfl
    have hlt := s.vsyncQueued.isLt
    rw [BitVec.toNat_sub, h1]
    omega
  have hlimit' : (s.vsyncQueued - 1).toNat ≤ Config.vsyncLimit.toNat := by omega
  refine liveInv_of hinv hlog hresv hh ?_ (fun _ => hhead) ?_ hlimit'
  · have hcase : ∀ p, (toPPhase p s).producerPromise →
        (toPPhase p { s with vsyncQueued := s.vsyncQueued - 1 }).producerPromise := fun p hp => by
      cases p
      case vsyncCount => exact ⟨hp.1, Nat.lt_of_le_of_lt (hdec.trans_le (Nat.sub_le _ _)) hp.2⟩
      all_goals exact hp
    exact hcase s.pphase hprom
  · change (s.vsyncQueued - 1).toNat + 1 = hs.countP isVsync + s.vsyncInFlight
    omega

end Head

/-! ### C's steps -/

theorem ConsumerStep.liveInv {s t : State} (hf : s.fault = none) (hstep : ConsumerStep s t) (h : s.LiveInv) :
    t.LiveInv := by
  have hinv := hstep.inv hf h.inv
  obtain ⟨-, hs, hh, hcons⟩ := h.promises
  cases hstep
  case pause => exact h
  case wake hw =>
    exact h.moveC hinv rfl hh (fun _ => trivial) (vsyncHeadCounted_of_at (h.inv.cphase_top hf (by simp [hw])) rfl)
  case ready _ hp hne => exact h.moveC hinv rfl hh (fun _ => h.nonempty hh hne) (vsyncHeadCounted_of_at hp rfl)
  case drained _ hp _ => exact h.moveC hinv rfl hh (fun _ => trivial) (vsyncHeadCounted_of_at hp rfl)
  case leave _ hp => exact h.moveC hinv rfl hh nofun (vsyncHeadCounted_of_at hp rfl)
  case raise => exact h.moveC hinv rfl hh nofun rfl
  case skip x _ _ hd hp hread hplain hnot =>
    obtain ⟨rest, rfl⟩ := h.head_fetched hd hp hh hread
    refine h.moveC hinv rfl hh (fun _ => ?_) ?_
    · simp [State.consumerPromise, hplain]
    · rw [vsyncHeadCounted_at hp]
      simp [State.vsyncHeadCounted, hnot]
  case store x _ _ _ hd hp hread hplain hnot _ =>
    obtain ⟨rest, rfl⟩ := h.head_fetched hd hp hh hread
    refine h.moveC hinv rfl hh (fun _ => ?_) ?_
    · simp [State.consumerPromise, hplain]
    · rw [vsyncHeadCounted_at hp]
      simp [State.vsyncHeadCounted, hnot]
  case vsync x _ hd hp hread hvsync =>
    obtain ⟨rest, rfl⟩ := h.head_fetched hd hp hh hread
    exact h.moveC hinv rfl hh (fun _ => hvsync) (vsyncHeadCounted_of_at hp rfl)
  case acquire x hd hp hread hmarker _ =>
    obtain ⟨rest, rfl⟩ := h.head_fetched hd hp hh hread
    exact h.moveC hinv rfl hh (fun _ => hmarker) (vsyncHeadCounted_of_at hp rfl)
  case quit hd hp =>
    have hne : hs ≠ [] := consumerPromise_at hp (hcons hd)
    exact h.moveC hinv rfl hh (fun _ => hne) (vsyncHeadCounted_of_at hp rfl)
  case advance k hd hp => exact h.advance hd hp hinv
  case vsyncCount hd hp => exact h.vsyncDecrement hd hp hinv
  case hookA hd hp =>
    have hhead : hs.head?.any isVsync = true := consumerPromise_at hp (hcons hd)
    exact h.moveC hinv rfl hh (fun _ => hhead) (vsyncHeadCounted_of_at hp rfl)
  case hookB hd hp =>
    have hhead : hs.head?.any isVsync = true := consumerPromise_at hp (hcons hd)
    obtain _ | ⟨x, rest⟩ := hs
    · cases hhead
    have hcmd := isVsync_iff_command.mp hhead
    refine h.moveC hinv rfl hh (fun _ => ?_) ?_
    · simp [State.consumerPromise, packetLength_of_not_data (h := x) (by omega), isRestart_eq_false (h := x) (by omega)]
    · rw [vsyncHeadCounted_at hp]
      exact if_pos hhead
  case origin hd hp => exact h.restartOrigin hd hp hinv
  case release _ hp => exact h.moveC hinv rfl hh (fun _ => trivial) (vsyncHeadCounted_of_at hp rfl)
  case halt _ hp => exact h.moveC hinv rfl hh nofun (vsyncHeadCounted_of_at hp rfl)

/-! ### The statements -/

/-- Settles O56, by the cases of the agents' steps; the choice of the next agent writes no item of the invariant. -/
theorem stepKeepsLiveInv : Obligations.StepKeepsLiveInv := by
  intro s t h hstep
  obtain ⟨hf, u, rfl, hagent⟩ := step_cases hstep
  have hu : u.LiveInv := by
    obtain ⟨-, hp⟩ | ⟨-, hc⟩ := hagent
    · exact hp.liveInv hf h
    · exact hc.liveInv hf h
  exact hu

/-- A whole packet stands where C dispatches. -/
theorem State.LiveInv.not_meetsUnwritten {s : State} {r : Result} (h : s.LiveInv) : ¬ s.MeetsUnwritten r := by
  rintro ⟨hd, hp, hnone, -⟩
  obtain ⟨hr, hw⟩ := h.cursors
  obtain ⟨-, hs, hh, hcons⟩ := h.promises
  obtain ⟨p, rest, rfl⟩ := consumerPromise_dispatch (hcons hd) hp
  exact hnone p (((liveHeaders_iff hr hw).mp hh).packetAt hr)

/-- The packets of a queue end at or before the top of the ring. -/
theorem Queued.head_le {ring : Memory Word} {n r e : Nat} {h : Word} {hs : List Word}
    (hq : Queued ring n r e (h :: hs)) (hrn : r < n) (hen : e < n) : r + packetLength h ≤ n := by
  by_cases hre : r ≤ e
  · obtain ⟨-, -, hrest⟩ := (queued_of_le hre).mp hq
    have := hrest.le
    omega
  · obtain ⟨xs, ys, hcons, hx, -⟩ := (queued_of_lt (by omega)).mp hq
    cases xs with
    | nil => exact absurd hx (Nat.ne_of_lt hrn)
    | cons x xs =>
      cases hcons
      obtain ⟨-, -, hrest⟩ := hx
      split at hrest
      · rw [packetLength_of_isRestart ‹_›]
        omega
      · exact hrest.le

/-- The fault that a step of C records is no ERR_OVERTAKE: `check_span` holds of a whole packet of the queue. -/
theorem ConsumerStep.no_overtake {s t : State} (hf : s.fault = none) (hstep : ConsumerStep s t) (h : s.LiveInv) :
    ∀ f, t.fault = some f → f.code ≠ .errOvertake := by
  intro f hfault
  cases hstep
  case raise x code info hd hp hread hbeyond =>
    rw [hf] at hfault
    cases hfault
    rintro rfl
    obtain ⟨hr, hw⟩ := h.cursors
    obtain ⟨-, hs, hh, -⟩ := h.promises
    obtain ⟨rest, rfl⟩ := h.head_fetched hd hp hh hread
    have := ((liveHeaders_iff hr hw).mp hh).head_le hr (liveEnd_lt hw)
    have := hbeyond rfl
    omega
  all_goals
    rw [show s.fault = some f from hfault] at hf
    cases hf

/-- Nor is the fault of a step of P, which raises other codes only (60_exceptions.md R290). -/
theorem ProducerStep.no_overtake {s t : State} (hf : s.fault = none) (hstep : ProducerStep s t) :
    ∀ f, t.fault = some f → f.code ≠ .errOvertake := by
  intro f hfault
  have hlive : t.fault = none → f.code ≠ .errOvertake := fun hnone => by
    rw [hnone] at hfault
    cases hfault
  cases hstep
  case raise code info hcode =>
    rw [hf] at hfault
    cases hfault
    exact hcode
  case openSession => exact hlive (openWith_fault _ hf)
  case wake size after _ => exact hlive (by rwa [afterCommit_fault, wakeDecide_fault])
  case drained after _ _ => exact hlive (by rwa [afterDrain_fault])
  all_goals exact hlive hf

/-- Settles O60: a step of C meets the whole packet at the head of the queue, and P's steps stop in a dead block only. -/
theorem noInternalFaults : Obligations.NoInternalFaults := by
  intro s h hf
  have hagent : ∃ u, agentStep s = .next u ∧ ∀ f, u.fault = some f → f.code ≠ .errOvertake := by
    unfold agentStep
    cases s.turn with
    | p =>
      obtain ⟨u, hu⟩ := (answersP_stepP s).exists_next hf
      exact ⟨u, hu, (producerStep_of_stepP hu).no_overtake hf⟩
    | c =>
      obtain ⟨u, hu⟩ := ((answersC_stepC s).resolve_right h.not_meetsUnwritten).exists_next hf
      exact ⟨u, hu, (consumerStep_of_stepC hu).no_overtake hf h⟩
  obtain ⟨u, hu, hcode⟩ := hagent
  exact ⟨reschedule u, step_next.mpr ⟨hf, u, hu, rfl⟩, hcode⟩

end Sys2Proof.Machine
end

section
/-! What the cases of the agents' steps say at once: which steps there are at all (60_exceptions.md R292), who writes what
(10_state.md R20), what never changes or only grows (R35, R330), the ranges of the GIFPath records (R39) and their
independence (R25), and the drain that waits for a halted C (70_reset_and_hazards.md R346). -/

namespace Sys2Proof.Machine

/-! ### The GIFPath records -/

/-- Every way in which a step of P can write the records, and where P stands when it does. -/
inductive RecordsWritten (s : State) : GifPaths → Prop
  | same : RecordsWritten s s.paths
  | item (run : ParseRun) (g : GifPath) (phase : s.pphase = .parsing run) (record : RecordStep (s.path run.path) g) :
      RecordsWritten s (GifPaths.set s.paths run.path g)
  | zero (phase : s.pphase = .idle) : RecordsWritten s GifPaths.zero
  | zeroed (command d0 : W32) (phase : s.pphase = .idle) : RecordsWritten s (zeroedPaths command d0 s)
  | loaded (image : List Byte) (phase : s.pphase = .drain (.load image)) :
      RecordsWritten s (Config.snapshotCodec.decode image)

theorem ProducerStep.recordsWritten {s t : State} (h : ProducerStep s t) : RecordsWritten s t.paths := by
  cases h
  case send command d0 _ _ hp _ _ _ => exact .zeroed command d0 hp
  case openSession idle _ _ _ _ =>
    cases Config.drawInit s.draws with
    | true => exact .zero idle.2.1
    | false => exact .same
  case loadClosed hp _ => exact .zero hp
  case parse run g _ _ _ hp hrecord _ => exact .item run g hp hrecord
  case wake size after _ =>
    rw [show (afterCommit after (wakeDecide size s)).paths = s.paths by cases after <;> exact wakeDecide_paths s size]
    exact .same
  case drained after hp _ =>
    cases after with
    | retire | save => exact .same
    | load image => exact .loaded image hp
  all_goals exact .same

/-- C writes no record. -/
theorem ConsumerStep.paths {s t : State} (h : ConsumerStep s t) : t.paths = s.paths := by cases h <;> rfl

theorem tagSelector_le (t : GifTag) (j : Nat) : (tagSelector t j).toNat ≤ 15 := by
  rw [tagSelector, BitVec.toNat_setWidth]
  have := ((pair64 t.regs1 t.regs0).extractLsb' (4 * j) 4).isLt
  omega

theorem inRange_zero : GifPath.InRange GifPath.zero := by
  refine ⟨fun j => ?_, Nat.zero_le _, absurd rfl⟩
  simp [GifPath.zero]

/-- An item of the parser keeps the ranges of R39. -/
theorem RecordStep.inRange {g g' : GifPath} (hstep : RecordStep g g') (h : GifPath.InRange g) : GifPath.InRange g' := by
  obtain ⟨hregs, hcur, hin⟩ := h
  have hfetched (flg : BitVec 2) (t : TagFields) (j : Fin Config.selectors) : (fetchTag flg t g).regs[j].toNat ≤ 15 := by
    rw [fetchTag_regs]
    split
    · exact tagSelector_le _ _
    · exact hregs j
  cases hstep
  case tag flg t => exact ⟨hfetched flg t, Nat.zero_le _, fun _ => numregs_pos _⟩
  case clip flg t => exact ⟨hfetched flg t, Nat.zero_le _, absurd rfl⟩
  case unit hn =>
    have hle := numregs_le g.tag
    have hlt := hin hn
    unfold stepReg
    split
    · exact ⟨hregs, Nat.zero_le _, fun _ => numregs_pos _⟩
    · rename_i hlast
      have hinc : (g.curreg + 1).toNat = g.curreg.toNat + 1 := by
        rw [BitVec.toNat_add]
        exact Nat.mod_eq_of_lt (show g.curreg.toNat + 1 < 256 by omega)
      rw [hinc] at hlast
      have hnext : (g.curreg + 1).toNat < numregs g.tag := by omega
      exact ⟨hregs, by dsimp only; omega, fun _ => hnext⟩
  case image hn => exact ⟨hregs, hcur, fun _ => hin hn⟩

theorem get_zeroedPaths (command d0 : W32) (s : State) (p : PathId) :
    GifPaths.get (zeroedPaths command d0 s) p = GifPath.zero ∨ GifPaths.get (zeroedPaths command d0 s) p = s.path p := by
  unfold zeroedPaths
  split
  · exact .inl (GifPaths.get_zero p)
  · split
    · rw [GifPaths.get_ofFn]
      split
      · exact .inl rfl
      · exact .inr rfl
    · exact .inr rfl

/-- Settles O55: the records change by an item of the parser, to zero, or to those of an image. -/
theorem stepKeepsRanges : Obligations.StepKeepsRanges := by
  intro s t h himage hstep p
  obtain ⟨-, u, rfl, hagent⟩ := step_cases hstep
  have hwritten : RecordsWritten s u.paths := by
    obtain ⟨-, hp⟩ | ⟨-, hc⟩ := hagent
    · exact hp.recordsWritten
    · rw [hc.paths]
      exact .same
  change GifPath.InRange (GifPaths.get u.paths p)
  generalize u.paths = paths at hwritten
  cases hwritten
  case same => exact h p
  case item run g _ hrecord =>
    by_cases hq : p = run.path
    · rw [hq, GifPaths.get_set_self]
      exact hrecord.inRange (h run.path)
    · rw [GifPaths.get_set_other _ _ hq]
      exact h p
  case zero =>
    rw [GifPaths.get_zero]
    exact inRange_zero
  case zeroed command d0 _ =>
    obtain hz | hs := get_zeroedPaths command d0 s p
    · rw [hz]
      exact inRange_zero
    · rw [hs]
      exact h p
  case loaded image hp => exact himage image hp p

/-- Settles O24: inside the parser's run only the record of its path is written. -/
theorem pathsAreIndependent : Obligations.PathsAreIndependent := by
  intro s t run q hp hstep hq
  have hwritten := (producerStep_of_stepP hstep).recordsWritten
  change GifPaths.get t.paths q = s.path q
  generalize t.paths = paths at hwritten
  cases hwritten
  case same => rfl
  case item run' g hp' _ =>
    cases hp.symm.trans hp'
    exact GifPaths.get_set_other _ _ hq
  case zero hp' | zeroed hp' | loaded hp' => cases hp.symm.trans hp'

/-! ### The steps of a REGLIST word by its bits -/

theorem gifCode_reglist {g : GifPath} (hn : g.tag.nloop ≠ 0) (hf : g.tag.flag = 1) (h : Half) (w : Word) :
    gifCode g h w = .reglist (currentSelector g) (reglistUnit h w) := by
  rw [gifCode, if_neg hn, hf]
  rfl

theorem reglistUnit_eq (h : Half) (w : Word) :
    reglistUnit h w = if h = .lower then w.extractLsb' 0 64 else w.extractLsb' 64 64 := by
  obtain rfl | rfl := h.cases_eq <;> rfl

/-- Settles O21: the selector and RL_SFL_BASE decide what the unit's one REGLIST item raises. -/
theorem reglistStepByBits : Obligations.ReglistStepByBits := by
  intro s run w ws h hs hn hf
  dsimp only
  rw [stepP_parserAt h hs, gifCode_reglist hn hf, decode, exec_decodeReglist, reglistItem_at h hn, ← reglistUnit_eq]
  cases hrl : s.cfg.rlSflBase with
  | none => rfl
  | some b => rw [reglistSfl, sflOf_eq, unitNotes_ite]

/-! ### A drain behind a halted C -/

/-- Settles O47: P's evaluation fails or its signal is due, and a halted C has no step. -/
theorem haltedConsumerHoldsDrain : Obligations.HaltedConsumerHoldsDrain := by
  intro s t after hc hne hp hstep
  obtain ⟨-, u, hu, rfl⟩ := step_next.mp hstep
  have hkept : u.cstate = .halted ∧ u.readPos = s.readPos ∧ u.writePos = s.writePos ∧ u.pphase = .drain after := by
    unfold agentStep at hu
    split at hu
    · cases hs : s.pSignal with
      | true =>
        rw [stepP_signal hs] at hu
        cases hu
        exact ⟨hc, rfl, rfl, hp⟩
      | false =>
        rw [stepP_drain hs hp, drainStep_of_ne hne] at hu
        cases hu
        exact ⟨hc, rfl, rfl, hp⟩
    · rw [stepC, hc] at hu
      cases hu
      exact ⟨hc, rfl, rfl, hp⟩
  exact hkept

/-! ### Which steps there are -/

/-- Settles O49: P has a step in every live block, and C has one but at an unwritten slot. -/
theorem stepsStopForTwoReasons : Obligations.StepsStopForTwoReasons := by
  intro s
  refine ⟨fun hf i => exec_dead hf i, ?_⟩
  by_cases hf : s.fault = none
  · have hstep : step s = onNext reschedule (agentStep s) := alive_of_live hf _
    have hnext (h : ∃ u, agentStep s = .next u) : ∃ t, step s = .next t := by
      obtain ⟨u, hu⟩ := h
      exact ⟨_, step_next.mpr ⟨hf, u, hu, rfl⟩⟩
    cases hturn : s.turn with
    | p => exact .inl (hnext (by simpa [agentStep, hturn] using (answersP_stepP s).exists_next hf))
    | c =>
      have hagent : agentStep s = stepC s := by rw [agentStep, hturn]
      obtain hanswers | ⟨-, -, -, slot, hread, hfault⟩ := answersC_stepC s
      · exact .inl (hnext (hagent ▸ hanswers.exists_next hf))
      · exact .inr (.inr ⟨slot, hread, rfl, by rw [hstep, hagent, hfault]; rfl⟩)
  · exact .inr (.inl ⟨hf, alive_of_dead hf _⟩)

/-! ### Who writes what -/

theorem ConsumerStep.sameProducerSide {s t : State} (h : ConsumerStep s t) : sameProducerSide s t := by
  cases h <;> exact ⟨rfl, rfl, rfl, rfl, rfl, rfl, rfl, rfl, rfl, rfl, rfl, rfl, rfl⟩

/-- The acceptance of OPEN (42_producer.md R201). -/
def State.AcceptsOpen (s : State) : Prop :=
  s.producerIdle ∧ s.session = .closed ∧ s.resv = none ∧ ∃ r rest, s.port = r :: rest ∧ r.op = 0

theorem sameConsumerSide_afterCommit (after : AfterCommit) (size : Nat) (s : State) :
    sameConsumerSide s (afterCommit after (wakeDecide size s)) := by
  rw [wakeDecide_eq]
  cases after <;> exact ⟨rfl, rfl, rfl, rfl, rfl, rfl, rfl⟩

theorem ProducerStep.sameConsumerSide {s t : State} (h : ProducerStep s t) (hopen : ¬ s.AcceptsOpen) :
    sameConsumerSide s t := by
  cases h
  case openSession r rest idle hclosed hres hport hop =>
    exact absurd ⟨idle, hclosed, hres, r, rest, hport, hop⟩ hopen
  case wake size after _ => exact sameConsumerSide_afterCommit after size s
  case drained after _ _ => cases after <;> exact ⟨rfl, rfl, rfl, rfl, rfl, rfl, rfl⟩
  all_goals exact ⟨rfl, rfl, rfl, rfl, rfl, rfl, rfl⟩

/-- Settles O51, by the cases of each agent's step. -/
theorem singleWriter : Obligations.SingleWriter := fun _ _ =>
  ⟨fun h => (consumerStep_of_stepC h).sameProducerSide, fun h => (producerStep_of_stepP h).sameConsumerSide⟩

/-! ### What never changes, and what only grows -/

/-- The parameters are the same, and the replies and the traces have grown at their ends. -/
structure Grows (s t : State) : Prop where
  cfg : t.cfg = s.cfg
  replies : s.replies <+: t.replies
  backend : s.backendTrace <+: t.backendTrace
  sfl : s.sflTrace <+: t.sflTrace
  periph : s.periphTrace <+: t.periphTrace

theorem Grows.refl (s : State) : Grows s s :=
  ⟨rfl, List.prefix_rfl, List.prefix_rfl, List.prefix_rfl, List.prefix_rfl⟩

theorem ConsumerStep.grows {s t : State} (h : ConsumerStep s t) : Grows s t := by
  have hs := Grows.refl s
  cases h
  case skip | vsync | quit => exact ⟨rfl, hs.replies, List.prefix_append _ _, hs.sfl, hs.periph⟩
  case hookA | hookB => exact ⟨rfl, hs.replies, hs.backend, hs.sfl, List.prefix_append _ _⟩
  all_goals exact ⟨rfl, hs.replies, hs.backend, hs.sfl, hs.periph⟩

/-- OPEN has succeeded: the traces hold its one call (95_test_vectors.md; log entry 8). -/
def State.OpensSession (s t : State) : Prop :=
  s.session = .closed ∧ (∃ r rest, s.port = r :: rest ∧ r.op = 0) ∧ t.session = .opened ∧
    t.backendTrace = [.init true] ∧ t.sflTrace = [] ∧ t.periphTrace = []

theorem ProducerStep.grows {s t : State} (h : ProducerStep s t) :
    Grows s t ∨ (t.cfg = s.cfg ∧ s.replies <+: t.replies ∧ s.OpensSession t) := by
  have hs := Grows.refl s
  cases h
  case openSession r rest _ hclosed _ hport hop =>
    cases Config.drawInit s.draws with
    | true =>
      exact .inr ⟨rfl, List.prefix_append _ _, hclosed, ⟨r, rest, hport, hop⟩, rfl, rfl, rfl, rfl⟩
    | false => exact .inl ⟨rfl, List.prefix_append _ _, List.prefix_append _ _, hs.sfl, hs.periph⟩
  case saveClosed | loadClosed | place | closed =>
    exact .inl ⟨rfl, List.prefix_append _ _, hs.backend, hs.sfl, hs.periph⟩
  case parse => exact .inl ⟨rfl, hs.replies, hs.backend, List.prefix_append _ _, hs.periph⟩
  case wake size after _ =>
    rw [wakeDecide_eq]
    cases after with
    | retire | sendData => exact .inl ⟨rfl, List.prefix_append _ _, hs.backend, hs.sfl, hs.periph⟩
    | close | restart => exact .inl ⟨rfl, hs.replies, hs.backend, hs.sfl, hs.periph⟩
  case drained after _ _ =>
    cases after <;> exact .inl ⟨rfl, List.prefix_append _ _, hs.backend, hs.sfl, hs.periph⟩
  all_goals exact .inl ⟨rfl, hs.replies, hs.backend, hs.sfl, hs.periph⟩

/-- A list that has grown at its end, in the words of the statement. -/
theorem exists_append_of_prefix {α : Type} {xs ys : List α} (h : xs <+: ys) : ∃ zs, ys = xs ++ zs := by
  obtain ⟨zs, hzs⟩ := h
  exact ⟨zs, hzs.symm⟩

/-- Settles O52, by the cases of each agent's step. -/
theorem parametersFixedTracesGrow : Obligations.ParametersFixedTracesGrow := by
  intro s t hstep
  obtain ⟨-, u, rfl, hagent⟩ := step_cases hstep
  have hgrows : Grows s u ∨ (s.turn = .p ∧ u.cfg = s.cfg ∧ s.replies <+: u.replies ∧ s.OpensSession u) := by
    obtain ⟨hturn, hp⟩ | ⟨-, hc⟩ := hagent
    · exact hp.grows.imp_right fun hopen => ⟨hturn, hopen⟩
    · exact .inl hc.grows
  obtain ⟨hcfg, hreplies, hbackend, hsfl, hperiph⟩ | ⟨hturn, hcfg, hreplies, hclosed, hrest⟩ := hgrows
  · exact ⟨hcfg, exists_append_of_prefix hreplies, .inl ⟨exists_append_of_prefix hbackend,
      exists_append_of_prefix hsfl, exists_append_of_prefix hperiph⟩⟩
  · exact ⟨hcfg, exists_append_of_prefix hreplies, .inr ⟨hturn, hclosed, hrest⟩⟩

end Sys2Proof.Machine
end

section
/-! The parser word by word (41_gifpath.md R160 to R172). One iteration of the loop can take a whole run of REGLIST or IMAGE
words; cut at the words, the loop becomes a recursion on the input, and what it consumes, where it stops and how two calls
compose are inductions on the words. -/

namespace Sys2Proof.Machine

/-! ### One word -/

/-- The parser's state after one word of the tag in progress: both halves in REGLIST, one data word in IMAGE. -/
def dataWord (rl : Option (Fin 14)) (x : ParseState) (w : Word) (ws : List Word) : ParseState :=
  match x.path.tag.flag.toNat with
  | 0 =>
    { path := (stepReg x.path).path, p3 := x.p3, sfl := x.sfl ++ packedNotes x.path (packedUnit w), left := ws }
  | 1 =>
    let (r, sfl) := reglistWord rl w halves { path := x.path, more := true } x.sfl
    { path := r.path, p3 := x.p3, sfl := sfl, left := ws }
  | _ => { path := imageWords 1 x.path, p3 := x.p3, sfl := x.sfl, left := ws }

/-- One word of the parser, and whether it is a tag that the clip of R171 gives back. -/
def parseWord (rl : Option (Fin 14)) (p : PathId) (x : ParseState) (w : Word) (ws : List Word) : ParseState × Bool :=
  if x.path.tag.nloop = 0 then parseIteration rl p x w ws else (dataWord rl x w ws, false)

/-- The loop of R160 a word at a time. -/
def parseWords (rl : Option (Fin 14)) (p : PathId) : List Word → ParseState → ParseState
  | [], x => x
  | w :: ws, x =>
    let r := parseWord rl p x w ws
    if r.2 || endOfPacket r.1.path then r.1 else parseWords rl p ws r.1

/-- What the loop makes of a word or an iteration: it stops after a clip and at an end of packet (R170, R171). -/
def afterItem (rl : Option (Fin 14)) (p : PathId) (r : ParseState × Bool) : ParseState :=
  if r.2 || endOfPacket r.1.path then r.1 else parseWords rl p r.1.left r.1

section Word

variable {rl : Option (Fin 14)} {p : PathId} {x : ParseState} {w : Word} {ws : List Word}

/-- A tag word: what it loads, and whether the clip gives it back (R162, R163, R171). -/
theorem parseWord_tag (hn : x.path.tag.nloop = 0) :
    parseWord rl p x w ws =
      if clips p (fetchTag (tagFlg w) (tagFields w) x.path).tag ws.length then
        ({ path := abortTag (fetchTag (tagFlg w) (tagFields w) x.path)
           p3 := progressAfter p (fetchTag (tagFlg w) (tagFields w) x.path).tag x.p3
           sfl := x.sfl
           left := w :: ws }, true)
      else
        ({ path := fetchTag (tagFlg w) (tagFields w) x.path
           p3 := progressAfter p (fetchTag (tagFlg w) (tagFields w) x.path).tag x.p3
           sfl := x.sfl
           left := ws }, false) := by
  rw [parseWord, if_pos hn, parseIteration, if_pos hn]

theorem parseWord_data (hn : x.path.tag.nloop ≠ 0) : parseWord rl p x w ws = (dataWord rl x w ws, false) :=
  if_neg hn

theorem dataWord_left : (dataWord rl x w ws).left = ws := by
  unfold dataWord
  split <;> rfl

/-- Only a clip gives the word back. -/
theorem parseWord_left (h : (parseWord rl p x w ws).2 = false) : (parseWord rl p x w ws).1.left = ws := by
  by_cases hn : x.path.tag.nloop = 0
  · rw [parseWord_tag hn] at h ⊢
    split at h
    · cases h
    · rw [if_neg ‹_›]
  · rw [parseWord_data hn]
    exact dataWord_left

theorem parseWords_cons :
    parseWords rl p (w :: ws) x = afterItem rl p (parseWord rl p x w ws) := by
  rw [parseWords, afterItem]
  split
  · rfl
  · rename_i hgoes
    rw [parseWord_left (Bool.eq_false_iff.mpr fun h => hgoes (by rw [h, Bool.true_or]))]

end Word

/-! ### The formats of a data word -/

section Formats

variable {rl : Option (Fin 14)} {x : ParseState} {w : Word} {ws : List Word}

theorem dataWord_packed (hf : x.path.tag.flag = 0) :
    dataWord rl x w ws =
      { path := (stepReg x.path).path, p3 := x.p3, sfl := x.sfl ++ packedNotes x.path (packedUnit w), left := ws } := by
  rw [dataWord, hf]
  rfl

theorem dataWord_reglist (hf : x.path.tag.flag = 1) :
    dataWord rl x w ws =
      { path := (reglistWord rl w halves { path := x.path, more := true } x.sfl).1.path
        p3 := x.p3
        sfl := (reglistWord rl w halves { path := x.path, more := true } x.sfl).2
        left := ws } := by
  rw [dataWord, hf]
  rfl

theorem flag_eq_two_or_three {f : BitVec 2} (h0 : f ≠ 0) (h1 : f ≠ 1) : f = 2 ∨ f = 3 := by
  revert f
  decide

theorem dataWord_image (h0 : x.path.tag.flag ≠ 0) (h1 : x.path.tag.flag ≠ 1) :
    dataWord rl x w ws = { path := imageWords 1 x.path, p3 := x.p3, sfl := x.sfl, left := ws } := by
  obtain hf | hf := flag_eq_two_or_three h0 h1 <;>
    · rw [dataWord, hf]
      rfl

theorem stepReg_flag (g : GifPath) : (stepReg g).path.tag.flag = g.tag.flag := by
  unfold stepReg
  split <;> rfl

/-- A register step says `more` exactly while the tag goes on (R164). -/
theorem stepReg_more_iff {g : GifPath} (hn : g.tag.nloop ≠ 0) :
    (stepReg g).more = true ↔ (stepReg g).path.tag.nloop ≠ 0 := by
  refine ⟨stepReg_nloop_ne_zero hn, fun h => ?_⟩
  unfold stepReg at h ⊢
  split at h
  · rw [if_pos ‹_›]
    exact decide_eq_true h
  · rw [if_neg ‹_›]

/-- Over the units of one word too, and the format stays. -/
theorem reglistWord_more (hs : List Half) {r : RegStep} {sfl : List Notification}
    (h : r.more = true ↔ r.path.tag.nloop ≠ 0) :
    ((reglistWord rl w hs r sfl).1.more = true ↔ (reglistWord rl w hs r sfl).1.path.tag.nloop ≠ 0) ∧
      (reglistWord rl w hs r sfl).1.path.tag.flag = r.path.tag.flag := by
  induction hs generalizing r sfl with
  | nil => exact ⟨h, rfl⟩
  | cons half hs ih =>
    rw [reglistWord]
    split
    · rename_i hmore
      obtain ⟨hiff, hflag⟩ := ih (stepReg_more_iff (h.mp hmore))
      exact ⟨hiff, hflag.trans (stepReg_flag _)⟩
    · exact ⟨h, rfl⟩

theorem dataWord_flag (hn : x.path.tag.nloop ≠ 0) : (dataWord rl x w ws).path.tag.flag = x.path.tag.flag := by
  by_cases h0 : x.path.tag.flag = 0
  · rw [dataWord_packed h0]
    exact stepReg_flag _
  · by_cases h1 : x.path.tag.flag = 1
    · rw [dataWord_reglist h1]
      exact (reglistWord_more halves (iff_of_true rfl hn)).2
    · rw [dataWord_image h0 h1]
      rfl

end Formats

/-! ### An iteration of the loop is one word, or one word and an iteration -/

section Iteration

variable {rl : Option (Fin 14)} {p : PathId} {x : ParseState} {w : Word} {ws : List Word}

/-- An IMAGE run: one word, and the rest of the run if the tag and the input go on (R169). -/
theorem imageRun_cons (g : GifPath) (p3 : Bool) (sfl : List Notification) (w : Word) (ws : List Word)
    (hn : g.tag.nloop ≠ 0) :
    imageRun g p3 sfl (w :: ws) =
      if (imageWords 1 g).tag.nloop = 0 ∨ ws = [] then { path := imageWords 1 g, p3 := p3, sfl := sfl, left := ws }
      else imageRun (imageWords 1 g) p3 sfl ws := by
  have hpos : 0 < g.tag.nloop.toNat := BitVec.toNat_pos_of_ne_zero hn
  have hlt := g.tag.nloop.isLt
  have hone : (imageWords 1 g).tag.nloop.toNat = g.tag.nloop.toNat - 1 := by
    change (g.tag.nloop - BitVec.ofNat 15 1).toNat = _
    rw [BitVec.toNat_sub_of_le (show (BitVec.ofNat 15 1).toNat ≤ g.tag.nloop.toNat from hpos)]
    rfl
  have hlast : (imageWords 1 g).tag.nloop = 0 ↔ g.tag.nloop.toNat = 1 := by
    rw [← BitVec.toNat_inj, hone, show (0 : BitVec 15).toNat = 0 from rfl]
    omega
  have hnext (k : Nat) : imageWords (k + 1) g = imageWords k (imageWords 1 g) := by
    simp only [imageWords, BitVec.sub_sub, ← BitVec.ofNat_add, Nat.add_comm]
  rw [imageRun, List.length_cons]
  split
  · rename_i hstop
    have hlen : min (ws.length + 1) g.tag.nloop.toNat = 1 := by
      obtain hzero | rfl := hstop
      · rw [hlast.mp hzero]
        exact Nat.min_eq_right (Nat.le_add_left 1 _)
      · exact Nat.min_eq_left hpos
    rw [hlen]
    rfl
  · have hlen : min (ws.length + 1) g.tag.nloop.toNat = min ws.length (imageWords 1 g).tag.nloop.toNat + 1 := by
      omega
    rw [hlen, imageRun, hnext, List.drop_succ_cons]

/-- A REGLIST run: one word, and the rest of the run if the tag and the input go on (R167, R168). -/
theorem reglistRun_cons (hf : x.path.tag.flag = 1) (hn : x.path.tag.nloop ≠ 0) :
    reglistRun rl x.path x.p3 x.sfl (w :: ws) =
      if (dataWord rl x w ws).path.tag.nloop = 0 ∨ ws = [] then dataWord rl x w ws
      else reglistRun rl (dataWord rl x w ws).path x.p3 (dataWord rl x w ws).sfl ws := by
  obtain ⟨hmore, -⟩ := reglistWord_more (rl := rl) (w := w) (sfl := x.sfl) halves
    (r := { path := x.path, more := true }) (iff_of_true rfl hn)
  rw [dataWord_reglist hf, reglistRun]
  dsimp only
  split
  · rename_i hgoes
    cases ws with
    | nil => rw [if_pos (.inr rfl)]; rfl
    | cons w' ws => rw [if_neg (not_or.mpr ⟨hmore.mp hgoes, List.cons_ne_nil _ _⟩)]
  · rename_i hstops
    rw [if_pos (.inl (not_not.mp (mt hmore.mpr hstops)))]

theorem parseIteration_reglist (hn : x.path.tag.nloop ≠ 0) (hf : x.path.tag.flag = 1) :
    parseIteration rl p x w ws = (reglistRun rl x.path x.p3 x.sfl (w :: ws), false) := by
  rw [parseIteration, if_neg hn, hf]
  rfl

theorem parseIteration_image (hn : x.path.tag.nloop ≠ 0) (h0 : x.path.tag.flag ≠ 0) (h1 : x.path.tag.flag ≠ 1) :
    parseIteration rl p x w ws = (imageRun x.path x.p3 x.sfl (w :: ws), false) := by
  rw [parseIteration, if_neg hn]
  obtain hf | hf := flag_eq_two_or_three h0 h1 <;>
    · rw [hf]
      rfl

/-- An iteration takes one word, or goes on as the iteration at the next word would: the formats that run over several
words do so only inside one tag. -/
theorem parseIteration_cases :
    parseIteration rl p x w ws = parseWord rl p x w ws ∨
      ((parseWord rl p x w ws).2 = false ∧ (parseWord rl p x w ws).1.path.tag.nloop ≠ 0 ∧ ∃ w' ws', ws = w' :: ws' ∧
        parseIteration rl p x w ws = parseIteration rl p (parseWord rl p x w ws).1 w' ws') := by
  by_cases hn : x.path.tag.nloop = 0
  · exact .inl (if_pos hn).symm
  rw [parseWord_data hn]
  have hflag := dataWord_flag (rl := rl) (w := w) (ws := ws) hn
  by_cases h0 : x.path.tag.flag = 0
  · rw [dataWord_packed h0, parseIteration_packed hn h0, packedUnit_eq]
    exact .inl rfl
  · by_cases hstop : (dataWord rl x w ws).path.tag.nloop = 0 ∨ ws = []
    · refine .inl ?_
      by_cases h1 : x.path.tag.flag = 1
      · rw [parseIteration_reglist hn h1, reglistRun_cons h1 hn, if_pos hstop]
      · rw [dataWord_image h0 h1] at hstop ⊢
        rw [parseIteration_image hn h0 h1, imageRun_cons _ _ _ _ _ hn, if_pos hstop]
    · obtain ⟨hgoes, hws⟩ := not_or.mp hstop
      obtain ⟨w', ws', rfl⟩ := List.exists_cons_of_ne_nil hws
      refine .inr ⟨rfl, hgoes, w', ws', rfl, ?_⟩
      by_cases h1 : x.path.tag.flag = 1
      · rw [parseIteration_reglist hn h1, reglistRun_cons h1 hn, if_neg hstop,
          parseIteration_reglist hgoes (hflag.trans h1), dataWord_reglist h1]
      · rw [dataWord_image h0 h1] at hstop hgoes ⊢
        rw [parseIteration_image hn h0 h1, imageRun_cons _ _ _ _ _ hn, if_neg hstop, parseIteration_image hgoes h0 h1]

end Iteration

/-! ### The loop is the recursion on the words -/

section Loop

variable {rl : Option (Fin 14)} {p : PathId}

/-- An iteration takes a word, unless the clip gives it back. -/
theorem parseIteration_left (ws : List Word) (w : Word) (x : ParseState)
    (h : (parseIteration rl p x w ws).2 = false) : (parseIteration rl p x w ws).1.left.length ≤ ws.length := by
  induction ws generalizing w x with
  | nil =>
    obtain heq | ⟨-, -, _, _, ⟨⟩, -⟩ := parseIteration_cases (rl := rl) (p := p) (x := x) (w := w) (ws := [])
    rw [heq] at h ⊢
    exact (congrArg List.length (parseWord_left h)).le
  | cons w' ws ih =>
    obtain heq | ⟨-, -, _, _, ⟨⟩, heq⟩ := parseIteration_cases (rl := rl) (p := p) (x := x) (w := w) (ws := w' :: ws)
    · rw [heq] at h ⊢
      exact (congrArg List.length (parseWord_left h)).le
    · rw [heq] at h ⊢
      exact (ih _ _ h).trans (Nat.le_succ _)

/-- The loop from an iteration is the recursion from its first word. -/
theorem afterItem_parseIteration (ws : List Word) (w : Word) (x : ParseState) :
    afterItem rl p (parseIteration rl p x w ws) = parseWords rl p (w :: ws) x := by
  induction ws generalizing w x with
  | nil =>
    obtain heq | ⟨-, -, _, _, ⟨⟩, -⟩ := parseIteration_cases (rl := rl) (p := p) (x := x) (w := w) (ws := [])
    rw [heq, parseWords_cons]
  | cons w' ws ih =>
    obtain heq | ⟨hword, hgoes, _, _, ⟨⟩, heq⟩ :=
      parseIteration_cases (rl := rl) (p := p) (x := x) (w := w) (ws := w' :: ws)
    · rw [heq, parseWords_cons]
    · rw [heq, ih, parseWords_cons (ws := w' :: ws), afterItem, hword, endOfPacket_of_ne_zero hgoes, parseWord_left hword]
      rfl

/-- As many rounds as there are words suffice. -/
theorem parseLoop_eq_parseWords (n : Nat) (x : ParseState) (h : x.left.length ≤ n) :
    parseLoop rl p n x = parseWords rl p x.left x := by
  induction n generalizing x with
  | zero =>
    rw [List.length_eq_zero_iff.mp (Nat.le_zero.mp h)]
    rfl
  | succ n ih =>
    cases hx : x.left with
    | nil =>
      rw [parseLoop, hx]
      rfl
    | cons w ws =>
      rw [← afterItem_parseIteration]
      have hleft := parseIteration_left (rl := rl) (p := p) ws w x
      rw [hx, List.length_cons] at h
      cases hr : parseIteration rl p x w ws with
      | mk y clipped =>
        cases clipped with
        | true =>
          rw [parseLoop_of_clip n hx hr]
          rfl
        | false =>
          rw [hr] at hleft
          rw [parseLoop_of_item n hx hr, ih y ((hleft rfl).trans (Nat.le_of_succ_le_succ h))]
          rfl

theorem parse_eq_parseWords (g : GifPath) (p3 : Bool) (data : List Word) :
    parse rl p g p3 data = parseWords rl p data { path := g, p3 := p3, sfl := [], left := data } :=
  parseLoop_eq_parseWords _ _ le_rfl

end Loop

/-! ### What is consumed (R171, R172) -/

section Consumed

variable {rl : Option (Fin 14)} {p : PathId}

theorem endOfPacket_iff {g : GifPath} : endOfPacket g = true ↔ g.tag.nloop = 0 ∧ g.tag.eop = true := by
  rw [endOfPacket, Bool.and_eq_true, decide_eq_true_eq]

/-- The words left are there because a packet has ended, or because the first of them is a tag that the clip gave back. -/
def LeavesFor (p : PathId) (taken : List Word) (out : ParseState) : Prop :=
  out.path.tag.nloop = 0 ∧
    ((taken ≠ [] ∧ out.path.tag.eop = true) ∨
      (p = .p0 ∧ ∃ w rest, out.left = w :: rest ∧
        (let t := loadedTag (tagFlg w) (tagFields w)
        (if t.flag = 1 then rest.length * 2 else rest.length) < t.nloop.toNat * numregs t ∧
          out.path.tag = { t with nloop := 0 })))

/-- A word that is given back is a tag on path index 0 that declares too much. -/
theorem parseWord_clipped {x : ParseState} {w : Word} {ws taken : List Word} (h : (parseWord rl p x w ws).2 = true) :
    (parseWord rl p x w ws).1.left = w :: ws ∧ LeavesFor p taken (parseWord rl p x w ws).1 := by
  by_cases hn : x.path.tag.nloop = 0
  · rw [parseWord_tag hn] at h ⊢
    split at h
    · rename_i hclip
      rw [if_pos hclip]
      obtain ⟨hp, hover⟩ := clips_fetchTag.mp hclip
      exact ⟨rfl, rfl, .inr ⟨hp, w, ws, rfl, hover, rfl⟩⟩
    · cases h
  · rw [parseWord_data hn] at h
    cases h

theorem parseWords_consumed (ws : List Word) (x : ParseState) (hx : x.left = ws) :
    ∃ taken, ws = taken ++ (parseWords rl p ws x).left ∧
      ((parseWords rl p ws x).left ≠ [] → LeavesFor p taken (parseWords rl p ws x)) := by
  induction ws generalizing x with
  | nil => exact ⟨[], hx.symm, absurd hx⟩
  | cons w ws ih =>
    rw [parseWords_cons, afterItem]
    cases hword : (parseWord rl p x w ws).2 with
    | true =>
      obtain ⟨hleft, hclip⟩ := parseWord_clipped (taken := []) hword
      exact ⟨[], hleft.symm, fun _ => hclip⟩
    | false =>
      have hleft := parseWord_left hword
      cases hend : endOfPacket (parseWord rl p x w ws).1.path with
      | true =>
        obtain ⟨hzero, heop⟩ := endOfPacket_iff.mp hend
        exact ⟨[w], congrArg (w :: ·) hleft.symm, fun _ => ⟨hzero, .inl ⟨List.cons_ne_nil _ _, heop⟩⟩⟩
      | false =>
        obtain ⟨taken, htaken, hwhy⟩ := ih _ hleft
        rw [hleft]
        refine ⟨w :: taken, congrArg (w :: ·) htaken, fun hne => ?_⟩
        obtain ⟨hzero, ⟨-, heop⟩ | hclip⟩ := hwhy hne
        · exact ⟨hzero, .inl ⟨List.cons_ne_nil _ _, heop⟩⟩
        · exact ⟨hzero, .inr hclip⟩

/-- Settles O25, by induction on the words. -/
theorem parseConsumesPrefix : Obligations.ParseConsumesPrefix := by
  intro rl p g p3 data
  dsimp only
  rw [parse_eq_parseWords]
  exact parseWords_consumed data _ rfl

end Consumed

/-! ### Two calls for one (R175) -/

section Split

variable {rl : Option (Fin 14)} {p : PathId}

/-- The same parser state, with what it raised behind the notifications `sfl`. -/
def ParseState.raisedAfter (x : ParseState) (sfl : List Notification) : ParseState := { x with sfl := sfl ++ x.sfl }

theorem reglistWord_append (w : Word) (hs : List Half) (r : RegStep) (l sfl : List Notification) :
    reglistWord rl w hs r (l ++ sfl) = ((reglistWord rl w hs r sfl).1, l ++ (reglistWord rl w hs r sfl).2) := by
  induction hs generalizing r sfl with
  | nil => rfl
  | cons half hs ih =>
    rw [reglistWord, reglistWord]
    split
    · rw [List.append_assoc, ih]
    · rfl

/-- A word raises the same whatever has been raised before. -/
theorem parseWord_raisedAfter (x : ParseState) (l : List Notification) (w : Word) (ws : List Word) :
    parseWord rl p (x.raisedAfter l) w ws =
      ((parseWord rl p x w ws).1.raisedAfter l, (parseWord rl p x w ws).2) := by
  by_cases hn : x.path.tag.nloop = 0
  · rw [parseWord_tag hn, parseWord_tag (x := x.raisedAfter l) hn]
    have hclip : clips p (fetchTag (tagFlg w) (tagFields w) (x.raisedAfter l).path).tag ws.length =
      clips p (fetchTag (tagFlg w) (tagFields w) x.path).tag ws.length := rfl
    rw [hclip]
    cases clips p (fetchTag (tagFlg w) (tagFields w) x.path).tag ws.length <;> rfl
  · rw [parseWord_data hn, parseWord_data (x := x.raisedAfter l) hn]
    congr 1
    by_cases h0 : x.path.tag.flag = 0
    · rw [dataWord_packed h0, dataWord_packed (x := x.raisedAfter l) h0]
      simp [ParseState.raisedAfter]
    · by_cases h1 : x.path.tag.flag = 1
      · rw [dataWord_reglist h1, dataWord_reglist (x := x.raisedAfter l) h1]
        simp [ParseState.raisedAfter, reglistWord_append]
      · rw [dataWord_image h0 h1, dataWord_image (x := x.raisedAfter l) h0 h1]
        rfl

theorem parseWords_raisedAfter (ws : List Word) (x : ParseState) (l : List Notification) :
    parseWords rl p ws (x.raisedAfter l) = (parseWords rl p ws x).raisedAfter l := by
  induction ws generalizing x with
  | nil => rfl
  | cons w ws ih =>
    have hpath : ((parseWord rl p x w ws).1.raisedAfter l).path = (parseWord rl p x w ws).1.path := rfl
    rw [parseWords_cons, parseWords_cons, parseWord_raisedAfter, afterItem, afterItem, hpath]
    split
    · rfl
    · rename_i hgoes
      have hword : (parseWord rl p x w ws).2 = false := by
        cases h : (parseWord rl p x w ws).2 with
        | true => exact absurd (by rw [h]; rfl) hgoes
        | false => rfl
      rw [show ((parseWord rl p x w ws).1.raisedAfter l).left = ws from parseWord_left hword, parseWord_left hword, ih]

/-- The same parser state with other words before it. -/
def ParseState.withLeft (x : ParseState) (ws : List Word) : ParseState := { x with left := ws }

/-- Off path index 0 the words that follow do not matter to a word. -/
theorem parseWord_of_ne_p0 (hp : p ≠ .p0) (x : ParseState) (w : Word) (ws left : List Word) :
    parseWord rl p (x.withLeft left) w ws = ((parseWord rl p x w []).1.withLeft ws, false) := by
  by_cases hn : x.path.tag.nloop = 0
  · have hclip (t : GifTag) (n : Nat) : clips p t n = false := by rw [clips, decide_eq_false hp, Bool.false_and]
    rw [parseWord_tag hn, parseWord_tag (x := x.withLeft left) hn, hclip, hclip]
    rfl
  · rw [parseWord_data hn, parseWord_data (x := x.withLeft left) hn]
    simp only [dataWord, ParseState.withLeft]
    split <;> rfl

theorem parseWords_cons_of_ne_p0 (hp : p ≠ .p0) (x : ParseState) (w : Word) (ws left : List Word) :
    parseWords rl p (w :: ws) (x.withLeft left) =
      if endOfPacket (parseWord rl p x w []).1.path then (parseWord rl p x w []).1.withLeft ws
      else parseWords rl p ws ((parseWord rl p x w []).1.withLeft ws) := by
  rw [parseWords_cons, parseWord_of_ne_p0 hp, afterItem, Bool.false_or]
  rfl

/-- Words that do not end the packet, and then more, on path indices 1 and 2. -/
theorem parseWords_append (hp : p ≠ .p0) (xs ys : List Word) (x : ParseState)
    (hend : endOfPacket (parseWords rl p xs (x.withLeft xs)).path = false) :
    parseWords rl p (xs ++ ys) (x.withLeft (xs ++ ys)) =
      parseWords rl p ys ((parseWords rl p xs (x.withLeft xs)).withLeft ys) := by
  induction xs generalizing x with
  | nil => rfl
  | cons w xs ih =>
    rw [List.cons_append, parseWords_cons_of_ne_p0 hp]
    rw [parseWords_cons_of_ne_p0 hp] at hend ⊢
    cases hstop : endOfPacket (parseWord rl p x w []).1.path with
    | true =>
      rw [hstop, if_pos rfl] at hend
      exact Bool.noConfusion (hstop.symm.trans hend)
    | false =>
      rw [hstop] at hend
      exact ih _ hend

/-- Settles O27, by induction on the words of the first call. -/
theorem streamsSplitAtWords : Obligations.StreamsSplitAtWords := by
  intro rl p g p3 xs ys hp a hleft hend b
  have ha : a = parseWords rl p xs (ParseState.withLeft ⟨g, p3, [], []⟩ xs) := parse_eq_parseWords g p3 xs
  have hb : b = parseWords rl p ys ⟨a.path, a.p3, [], ys⟩ := parse_eq_parseWords a.path a.p3 ys
  calc parse rl p g p3 (xs ++ ys)
      = parseWords rl p (xs ++ ys) (ParseState.withLeft ⟨g, p3, [], []⟩ (xs ++ ys)) := parse_eq_parseWords g p3 _
    _ = parseWords rl p ys (a.withLeft ys) := by rw [parseWords_append hp xs ys _ (ha ▸ hend), ← ha]
    _ = parseWords rl p ys (ParseState.raisedAfter ⟨a.path, a.p3, [], ys⟩ a.sfl) := by
        rw [ParseState.raisedAfter, List.append_nil]
        rfl
    _ = { path := b.path, p3 := b.p3, sfl := a.sfl ++ b.sfl, left := b.left } := by
        rw [parseWords_raisedAfter, ← hb]
        rfl

end Split

end Sys2Proof.Machine
end

section
/-! PREPARE_DATA from its acceptance to the reservation (42_producer.md R204): the items of the parser's run, one or two a
word, come to the recursion on the words, and what it consumed is the packet for which `reserve` is called. -/

namespace Sys2Proof.Machine

/-! ### An instruction that comes to a state by its own steps -/

/-- Some steps of the instruction, and no other agent's between them, lead from `s` to `t`. -/
def Reaches (i : Instr) (s t : State) : Prop := ∃ k, ∀ n, execTimes (k + n) i s = execTimes n i t

section Reaches

variable {i : Instr} {s t u : State}

theorem Reaches.refl (i : Instr) (s : State) : Reaches i s s := ⟨0, fun n => by rw [Nat.zero_add]⟩

theorem Reaches.step (h : exec i s = .next t) (hr : Reaches i t u) : Reaches i s u := by
  obtain ⟨k, hk⟩ := hr
  exact ⟨k + 1, fun n => by rw [Nat.add_right_comm, execTimes_succ h, hk]⟩

theorem Reaches.of_exec (h : exec i s = .next t) : Reaches i s t := .step h (.refl i t)

theorem Reaches.trans (h : Reaches i s t) (hr : Reaches i t u) : Reaches i s u := by
  obtain ⟨k, hk⟩ := h
  obtain ⟨m, hm⟩ := hr
  exact ⟨k + m, fun n => by rw [Nat.add_assoc, hk, hm]⟩

/-- The last step, after those that lead to it. -/
theorem Reaches.execTimes (h : Reaches i s t) (hlast : exec i t = .next u) : ∃ n, execTimes n i s = .next u := by
  obtain ⟨k, hk⟩ := h
  exact ⟨k + 1, by rw [hk, execTimes_succ hlast]; rfl⟩

end Reaches

/-! ### The steps of the parser inside PREPARE_DATA -/

theorem gifMeaning_decodePacked (sel : Byte) (u : PackedUnit) (s : State) :
    gifMeaning (decodePacked sel u) s = exec (decodePacked sel u) s := by
  unfold decodePacked
  split
  · split <;> rfl
  · rfl

theorem gifMeaning_decodeReglist (rl : Option (Fin 14)) (sel : Byte) (u : ReglistUnit) (s : State) :
    gifMeaning (decodeReglist rl sel u) s = exec (decodeReglist rl sel u) s := by
  unfold decodeReglist
  split <;> rfl

theorem gifMeaning_decodeTag (w : Word) (s : State) : gifMeaning (decodeTag w) s = exec (decodeTag w) s := by
  unfold decodeTag
  split <;> rfl

/-- A GIF word means to the parser what it means to `exec`. -/
theorem gifMeaning_gifCode (rl : Option (Fin 14)) (g : GifPath) (h : Half) (w : Word) (s : State) :
    gifMeaning (decode rl (gifCode g h w)) s = exec (decode rl (gifCode g h w)) s := by
  unfold gifCode
  split
  · exact gifMeaning_decodeTag w s
  · split
    · exact gifMeaning_decodePacked _ _ s
    · exact gifMeaning_decodeReglist rl _ _ s
    · rfl
    · rfl

section Parsing

variable {op : BitVec 4} {i : Instr} {s : State} {run : ParseRun} {w : Word} {ws : List Word}

/-- PREPARE_DATA goes on with the word its parser has before it. -/
theorem IsHostOp.exec_parserAt (h : IsHostOp op i) (hat : s.parserAt run w ws) (hs : s.pSignal = false) :
    exec i s = exec (decode s.cfg.rlSflBase (gifCode (s.path run.path) run.half w)) s := by
  obtain ⟨accept, hexec⟩ := h s
  have hbusy : s.pphase ≠ .idle := fun hp => by rw [hat.2.1] at hp; cases hp
  have hfetch : parserFetch run s = some (decode s.cfg.rlSflBase (gifCode (s.path run.path) run.half w)) := by
    rw [parserFetch, hat.rest]
  rw [hexec, hostOp_busy op accept hat.1 hbusy, producerContinue, hs, if_neg Bool.false_ne_true, hat.2.1]
  dsimp only
  rw [parserStep, hfetch]
  exact gifMeaning_gifCode _ _ _ _ s

/-- What the parser reads, with these words before it. -/
def State.parserView (s : State) (p : PathId) (ws : List Word) : ParseState :=
  { path := s.path p, p3 := s.p3Progress, sfl := s.sflTrace, left := ws }

/-- The state with what the parser has written, and P at `phase`. -/
def State.parsed (s : State) (p : PathId) (x : ParseState) (phase : PPhase) : State :=
  { s with
    paths := GifPaths.set s.paths p x.path
    p3Progress := x.p3
    sflTrace := x.sfl
    pphase := phase }

theorem parsed_fault {p : PathId} {x : ParseState} {phase : PPhase} : (s.parsed p x phase).fault = s.fault := rfl

theorem parsed_path (p : PathId) (x : ParseState) (phase : PPhase) : (s.parsed p x phase).path p = x.path :=
  GifPaths.get_set_self s.paths p x.path

theorem parsed_parserView (p : PathId) (x : ParseState) (phase : PPhase) :
    (s.parsed p x phase).parserView p x.left = x := by
  rw [State.parserView, parsed_path]
  rfl

theorem GifPaths.set_set (g : GifPaths) (p : PathId) (x y : GifPath) :
    GifPaths.set (GifPaths.set g p x) p y = GifPaths.set g p y := by
  simp [GifPaths.set]

theorem GifPaths.set_get_self (g : GifPaths) (p : PathId) : GifPaths.set g p (GifPaths.get g p) = g := by
  simp [GifPaths.set, GifPaths.get]

theorem parsed_parsed (p : PathId) (x y : ParseState) (phase phase' : PPhase) :
    (s.parsed p x phase).parsed p y phase' = s.parsed p y phase' := by
  simp only [State.parsed, GifPaths.set_set]

/-- With nothing parsed P has only gone on. -/
theorem parsed_parserView_self (p : PathId) (ws : List Word) (phase : PPhase) :
    s.parsed p (s.parserView p ws) phase = toPPhase phase s := by
  rw [State.parsed, State.parserView, State.path, GifPaths.set_get_self]
  rfl

/-! ### A word -/

theorem packedNotes_eq (g : GifPath) (u : PackedUnit) :
    packedNotes g u =
      unitNotes (if currentSelector g = Config.adSel then sflOf Config.adSflBase (unitIndex u).toNat else none)
        (unitWord0 u) (unitWord1 u) := by
  unfold packedNotes
  split
  · cases sflOf Config.adSflBase (unitIndex u).toNat <;> rfl
  · rfl

theorem reglistNotes_eq (rl : Option (Fin 14)) (g : GifPath) (u : ReglistUnit) :
    reglistNotes rl g u =
      unitNotes (reglistSfl rl (currentSelector g)) (u.extractLsb' 0 32) (u.extractLsb' 32 32) := by
  unfold reglistNotes
  cases reglistSfl rl (currentSelector g) <;> rfl

/-- A REGLIST word: the lower half, and the upper half too while the tag goes on (R167, R168). -/
theorem reglistWord_halves (rl : Option (Fin 14)) (w : Word) (g : GifPath) (sfl : List Notification) :
    reglistWord rl w halves { path := g, more := true } sfl =
      if (stepReg g).more = true then
        (stepReg (stepReg g).path,
          sfl ++ reglistNotes rl g (reglistUnit .lower w) ++ reglistNotes rl (stepReg g).path (reglistUnit .upper w))
      else (stepReg g, sfl ++ reglistNotes rl g (reglistUnit .lower w)) := by
  rw [show halves = [Half.lower, Half.upper] from rfl]
  simp only [reglistWord, if_true]

/-- A unit of a REGLIST tag, in PREPARE_DATA. -/
theorem IsHostOp.exec_reglistUnit (h : IsHostOp op i) (hat : s.parserAt run w ws) (hs : s.pSignal = false)
    (hn : (s.path run.path).tag.nloop ≠ 0) (hf : (s.path run.path).tag.flag = 1) :
    exec i s = .next (s.parsed run.path
      { path := (stepReg (s.path run.path)).path
        p3 := s.p3Progress
        sfl := s.sflTrace ++ reglistNotes s.cfg.rlSflBase (s.path run.path) (reglistUnit run.half w)
        left := ws }
      (if run.half = .lower ∧ (stepReg (s.path run.path)).more = true then .parsing { run with half := .upper }
        else afterWord run w ws (stepReg (s.path run.path)).path)) := by
  rw [h.exec_parserAt hat hs, gifCode_reglist hn hf, decode, exec_decodeReglist, reglistItem_at hat hn,
    ← reglistNotes_eq]
  rfl

/-- A word of a REGLIST tag is one unit or two. -/
theorem IsHostOp.reaches_reglistWord (h : IsHostOp op i) (hat : s.parserAt run w ws) (hs : s.pSignal = false)
    (hhalf : run.half = .lower) (hn : (s.path run.path).tag.nloop ≠ 0) (hf : (s.path run.path).tag.flag = 1) :
    let r := reglistWord s.cfg.rlSflBase w halves { path := s.path run.path, more := true } s.sflTrace
    Reaches i s (s.parsed run.path { path := r.1.path, p3 := s.p3Progress, sfl := r.2, left := ws }
      (afterWord run w ws r.1.path)) := by
  have hlower := h.exec_reglistUnit hat hs hn hf
  rw [reglistWord_halves]
  by_cases hmore : (stepReg (s.path run.path)).more = true
  · rw [if_pos ⟨hhalf, hmore⟩] at hlower
    refine .step hlower ?_
    rw [if_pos hmore, hhalf]
    generalize hx : ParseState.mk (stepReg (s.path run.path)).path s.p3Progress
      (s.sflTrace ++ reglistNotes s.cfg.rlSflBase (s.path run.path) (reglistUnit .lower w)) ws = x
    have hpath := parsed_path (s := s) run.path x (.parsing { run with half := .upper })
    have hx' : x.path = (stepReg (s.path run.path)).path := hx ▸ rfl
    have hupper := h.exec_reglistUnit (s := s.parsed run.path x (.parsing { run with half := .upper }))
      ⟨hat.1, rfl, hat.rest⟩ hs (by rw [hpath, hx']; exact stepReg_nloop_ne_zero hn hmore)
      (by rw [hpath, hx', stepReg_flag, hf])
    rw [hpath, parsed_parsed, if_neg (fun hc => nomatch hc.1), hx'] at hupper
    subst hx
    exact .of_exec hupper
  · rw [if_neg (fun hc => hmore hc.2), hhalf] at hlower
    rw [if_neg hmore]
    exact .of_exec hlower

/-- The state after a word of the tag in progress. -/
theorem IsHostOp.reaches_dataWord (h : IsHostOp op i) (hat : s.parserAt run w ws) (hs : s.pSignal = false)
    (hhalf : run.half = .lower) (hn : (s.path run.path).tag.nloop ≠ 0) :
    let y := dataWord s.cfg.rlSflBase (s.parserView run.path (w :: ws)) w ws
    Reaches i s (s.parsed run.path y (afterWord run w ws y.path)) := by
  intro y
  have hexec := h.exec_parserAt hat hs
  by_cases h0 : (s.path run.path).tag.flag = 0
  · refine .of_exec (hexec.trans ?_)
    rw [gifCode_packed hn h0, decode, exec_decodePacked, packedItem_at hat hn, ← packedNotes_eq]
    rw [show y = _ from dataWord_packed h0, packedUnit_eq]
    rfl
  · by_cases h1 : (s.path run.path).tag.flag = 1
    · rw [show y = _ from dataWord_reglist h1]
      exact h.reaches_reglistWord hat hs hhalf hn h1
    · refine .of_exec (hexec.trans ?_)
      have himage : exec (decode s.cfg.rlSflBase (gifCode (s.path run.path) run.half w)) s = imageItem s := by
        rw [gifCode, if_neg hn]
        obtain hf | hf := flag_eq_two_or_three h0 h1 <;>
          · rw [hf]
            rfl
      rw [himage, imageItem_at hat hn, show y = _ from dataWord_image h0 h1]
      rfl

/-- The state after a word, wherever the parser stands, and what is left of the run. -/
theorem IsHostOp.reaches_word (h : IsHostOp op i) (hat : s.parserAt run w ws) (hs : s.pSignal = false)
    (hhalf : run.half = .lower) :
    let r := parseWord s.cfg.rlSflBase run.path (s.parserView run.path (w :: ws)) w ws
    Reaches i s (s.parsed run.path r.1
      (if r.2 then .reserve { path := run.path, payload := run.taken } else afterWord run w ws r.1.path)) := by
  by_cases hn : (s.path run.path).tag.nloop = 0
  · have hexec : exec i s = tagItem (tagFlg w) (tagFields w) s := by
      rw [h.exec_parserAt hat hs, gifCode, if_pos hn, decode, exec_decodeTag]
    rw [parseWord_tag (x := s.parserView run.path (w :: ws)) hn]
    by_cases hc : clips run.path (fetchTag (tagFlg w) (tagFields w) (s.path run.path)).tag ws.length = true
    · rw [tagItem_of_clips hat hc] at hexec
      exact .of_exec (by rw [hexec]; simp only [State.parserView, hc]; rfl)
    · rw [tagItem_of_not_clips hat hc] at hexec
      exact .of_exec (by rw [hexec]; simp only [State.parserView, hc]; rfl)
  · rw [parseWord_data (x := s.parserView run.path (w :: ws)) hn]
    exact h.reaches_dataWord hat hs hhalf hn

theorem afterWord_of_stops {g : GifPath} (h : parserStops g ws) :
    afterWord run w ws g = .reserve { path := run.path, payload := run.taken ++ [w] } := if_pos h

theorem afterWord_of_goes {g : GifPath} (h : ¬ parserStops g ws) :
    afterWord run w ws g = .parsing { path := run.path, taken := run.taken ++ [w], rest := ws, half := .lower } := if_neg h

end Parsing

/-- The rest of a run from the word `w`: all that the recursion on the words writes, and P before `reserve` with the
words consumed. -/
def RunsWords (i : Instr) (w : Word) (ws : List Word) : Prop :=
  ∀ (s : State) (run : ParseRun), s.pSignal = false → s.parserAt run w ws → run.half = .lower →
    ∃ c, w :: ws = c ++ (parseWords s.cfg.rlSflBase run.path (w :: ws) (s.parserView run.path (w :: ws))).left ∧
      Reaches i s (s.parsed run.path
        (parseWords s.cfg.rlSflBase run.path (w :: ws) (s.parserView run.path (w :: ws)))
        (.reserve { path := run.path, payload := run.taken ++ c }))

theorem IsHostOp.runsWords_cons {op : BitVec 4} {i : Instr} (h : IsHostOp op i) {w : Word} {ws : List Word}
    (hrest : ∀ w' ws', ws = w' :: ws' → RunsWords i w' ws') : RunsWords i w ws := by
  intro s run hs hat hhalf
  have hword := h.reaches_word hat hs hhalf
  dsimp only at hword
  rw [parseWords_cons, afterItem]
  cases hclip : (parseWord s.cfg.rlSflBase run.path (s.parserView run.path (w :: ws)) w ws).2 with
  | true =>
    rw [hclip] at hword
    exact ⟨[], (parseWord_clipped (taken := []) hclip).1.symm, by rwa [List.append_nil]⟩
  | false =>
    have hleft := parseWord_left hclip
    rw [hclip, if_neg Bool.false_ne_true] at hword
    generalize (parseWord s.cfg.rlSflBase run.path (s.parserView run.path (w :: ws)) w ws).1 = y at hword hleft
    by_cases hstop : parserStops y.path ws
    · have hout : (if (false || endOfPacket y.path) = true then y else parseWords s.cfg.rlSflBase run.path y.left y) = y := by
        obtain rfl | hend := hstop
        · rw [hleft, parseWords, ite_self]
        · rw [endOfPacket_iff.mpr hend]
          rfl
      rw [afterWord_of_stops hstop] at hword
      rw [hout]
      exact ⟨[w], congrArg (w :: ·) hleft.symm, hword⟩
    · have hgoes : ¬ (false || endOfPacket y.path) = true := fun hend => hstop (.inr (endOfPacket_iff.mp hend))
      obtain ⟨w', ws', rfl⟩ := List.exists_cons_of_ne_nil fun hnil => hstop (.inl hnil)
      obtain ⟨c, hc, hreaches⟩ := hrest w' ws' rfl
        (s.parsed run.path y (.parsing ⟨run.path, run.taken ++ [w], w' :: ws', .lower⟩))
        ⟨run.path, run.taken ++ [w], w' :: ws', .lower⟩ hs ⟨hat.1, rfl, rfl⟩ rfl
      dsimp only at hc hreaches
      rw [afterWord_of_goes hstop] at hword
      rw [← hleft, parsed_parserView] at hc hreaches
      rw [parsed_parsed, List.append_assoc] at hreaches
      rw [if_neg hgoes]
      rw [← hleft] at hword ⊢
      exact ⟨w :: c, congrArg (w :: ·) hc, hword.trans hreaches⟩

theorem IsHostOp.runsWords {op : BitVec 4} {i : Instr} (h : IsHostOp op i) (w : Word) (ws : List Word) :
    RunsWords i w ws := by
  induction ws generalizing w with
  | nil => exact h.runsWords_cons nofun
  | cons w' ws ih =>
    refine h.runsWords_cons fun _ _ heq => ?_
    obtain ⟨rfl, rfl⟩ := List.cons.inj heq
    exact ih w'

/-! ### PREPARE_DATA to `reserve` -/

theorem isHostOp_prepareData (path : W32) (data : List Word) : IsHostOp 3 (.hostPrepareData path data) := fun _ => ⟨_, rfl⟩

theorem exec_hostPrepareData {s : State} {path : W32} {p : PathId} {data : List Word} (h : s.acceptsOps)
    (hp : pathOfArg path = some p) : exec (.hostPrepareData path data) s = .next (startParse p data s) := by
  refine (hostOp_of_acceptsOps h (by decide)).trans ?_
  rw [hp]

/-- From the acceptance to `reserve`: the parser's whole effect, and the words consumed as payload. -/
theorem prepareData_reaches_reserve {s : State} {path : W32} {p : PathId} {data : List Word} (h : s.acceptsOps)
    (hp : pathOfArg path = some p) :
    let out := parse s.cfg.rlSflBase p (s.path p) s.p3Progress data
    Reaches (.hostPrepareData path data) s
      (s.parsed p (out.raisedAfter s.sflTrace)
        (.reserve { path := p, payload := data.take (data.length - out.left.length) })) := by
  intro out
  have hop := isHostOp_prepareData path data
  obtain ⟨⟨hf, -, hs⟩, -⟩ := id h
  refine .step ((exec_hostPrepareData h hp).trans (congrArg _ (startParse_eq p data s))) ?_
  have hout : parseWords s.cfg.rlSflBase p data (s.parserView p data) = out.raisedAfter s.sflTrace := by
    rw [show out = _ from parse_eq_parseWords _ _ _, ← parseWords_raisedAfter, ParseState.raisedAfter, List.append_nil]
    rfl
  cases data with
  | nil =>
    rw [← hout, parseWords, parsed_parserView_self]
    exact .refl _ _
  | cons w ws =>
    obtain ⟨c, hc, hreaches⟩ := hop.runsWords w ws (toPPhase (.parsing ⟨p, [], w :: ws, .lower⟩) s)
      ⟨p, [], w :: ws, .lower⟩ hs ⟨hf, rfl, rfl⟩ rfl
    have hleft : w :: ws = c ++ out.left := hc.trans (congrArg (c ++ ·.left) hout)
    have htake : (w :: ws).take ((w :: ws).length - out.left.length) = c := by
      rw [hleft, List.length_append, Nat.add_sub_cancel, List.take_left]
    rw [htake, ← hout]
    exact hreaches

/-! ### `reserve` after the parser -/

section Reserve

variable {s : State} {path : W32} {p : PathId} {data : List Word}

/-- PREPARE_DATA up to the one evaluation of the guard that ends it. -/
theorem prepareData_execTimes {u : State} (h : s.acceptsOps) (hp : pathOfArg path = some p) :
    let out := parse s.cfg.rlSflBase p (s.path p) s.p3Progress data
    let pkt : Packet := { path := p, payload := data.take (data.length - out.left.length) }
    reserveStep pkt (s.parsed p (out.raisedAfter s.sflTrace) (.reserve pkt)) = .next u →
      ∃ n, execTimes n (.hostPrepareData path data) s = .next u := by
  intro out pkt hlast
  refine (prepareData_reaches_reserve h hp).execTimes ?_
  obtain ⟨⟨hf, -, hs⟩, -⟩ := h
  have hreserve := stepP_reserve (s := s.parsed p (out.raisedAfter s.sflTrace) (.reserve pkt)) (pkt := pkt) hs rfl
  exact ((isHostOp_prepareData path data).exec_mid (parsed_fault.trans hf) rfl).trans (hreserve.trans hlast)

theorem pathOfArg_eq_some (hp : pathOfArg path = some p) : BitVec.ofNat 32 (pathIndex p) = path := by
  unfold pathOfArg at hp
  split at hp
  · cases hp
    rw [pathIndex, BitVec.ofNat_toNat, BitVec.setWidth_eq]
  · cases hp

theorem pathOfArg_eq_none (h : 3 ≤ path.toNat) : pathOfArg path = none := dif_neg (Nat.not_lt.mpr h)

theorem length_take_sub (data left : List Word) :
    (data.take (data.length - left.length)).length = data.length - left.length := by
  rw [List.length_take, Nat.min_eq_left (Nat.sub_le _ _)]

/-- The two cases in which `reserve` places a packet (R132, R134). -/
theorem reserveCase_place {n w r size : Nat} (hsize : size ≤ n - 1)
    (h : (w + size < n ∧ (r ≤ w ∨ w + size < r)) ∨ (w + size = n ∧ (r = w ∨ (0 < r ∧ r < w)))) :
    reserveCase n w r size = .place := by
  obtain ⟨htop, hfit⟩ | ⟨htop, hfit⟩ := h
  · rw [reserveCase_contiguous hsize htop, if_pos hfit]
  · rw [reserveCase_exact hsize htop, if_pos hfit]

theorem reserveStep_of_place {pkt : Packet}
    (h : reserveCase s.capacity s.writePos s.readPos (pkt.payload.length + 1) = .place) :
    reserveStep pkt s = .next (fillPacket pkt s) := by
  rw [reserveStep, h]

/-- Settles O34: the parser's run, then the evaluation of `reserve` that places the packet. -/
theorem prepareDataCompletes : Obligations.PrepareDataCompletes := by
  intro s path data h
  refine ⟨fun p hp => ⟨⟨_, exec_hostPrepareData h hp, ?_⟩, fun hsize hplace => ?placed⟩, fun hbad => ?refused⟩
  · rw [startParse_eq]
    exact h.1.1
  case placed =>
    refine prepareData_execTimes h hp ?_
    have hcase := reserveCase_place hsize hplace
    rw [← length_take_sub] at hcase
    refine (reserveStep_of_place hcase).trans ?_
    rw [fillPacket, dataHeader, pathOfArg_eq_some hp, length_take_sub]
    rfl
  case refused =>
    refine (hostOp_of_acceptsOps h (by decide)).trans ?_
    rw [pathOfArg_eq_none hbad]
    dsimp only
    rw [raise_live h.1.1, apiInfo, pair64_eq_append]
    rfl

theorem saturate64_of_lt {n : Nat} (h : n < 2 ^ 64) : saturate64 n = BitVec.ofNat 64 n := by
  rw [saturate64, Nat.min_eq_left (Nat.le_sub_one_of_lt h)]

/-- Settles O35: the same run, then the evaluation of `reserve` that raises. -/
theorem oversizeAfterParsing : Obligations.OversizeAfterParsing := by
  intro s path p data h hp
  dsimp only
  intro hover hlt
  refine prepareData_execTimes h hp ?_
  have hcase := reserveCase_oversize (w := s.writePos) (r := s.readPos) hover
  rw [← saturate64_of_lt hlt]
  rw [← length_take_sub] at hcase
  rw [reserveStep_of_oversize hcase, raise_live (parsed_fault.trans h.1.1), length_take_sub]
  rfl

end Reserve

end Sys2Proof.Machine
end

section
/-! The steps of the loops: a step is the decoded instruction of the agent in turn (30_encoding.md R113), C's loop around the
commands (43_consumer.md R240, R241), and VSYNC run to its end (R249). -/

namespace Sys2Proof.Machine

/-! ### The step of the agent in turn -/

section Step

variable {s : State}

theorem step_of_producer (hf : s.fault = none) (hturn : s.turn = .p) : step s = onNext reschedule (stepP s) := by
  rw [step, alive_of_live hf, agentStep, hturn]

theorem step_of_consumer (hf : s.fault = none) (hturn : s.turn = .c) : step s = onNext reschedule (stepC s) := by
  rw [step, alive_of_live hf, agentStep, hturn]

theorem stepP_of_request {r : HostRequest} {rest : List HostRequest} (hidle : s.producerIdle) (hport : s.port = r :: rest) :
    stepP s = exec (decodeRequest r) s := by
  obtain ⟨-, hp, hs⟩ := hidle
  simp [stepP, hs, hp, hport]

theorem stepC_dispatch {w : Word} (hc : s.cstate = .draining) (hp : s.cphase = .dispatch)
    (hread : Memory.read s.ring s.readPos = some w) : stepC s = exec (decodeHeader w) s := by
  simp [stepC, hc, hp, consumerFetch, hread]

/-- Settles O7: at each of the three places the agent executes what it fetches. -/
theorem stepRunsDecoded : Obligations.StepRunsDecoded := by
  intro s i hf _
  refine ⟨fun w hturn hc hp hread hi => ?header, fun r rest hturn hidle hport hi => ?request,
    fun run w ws hturn hs hat hi => ?gif⟩
  case header => rw [step_of_consumer hf hturn, stepC_dispatch hc hp hread, ← hi, decode]
  case request => rw [step_of_producer hf hturn, stepP_of_request hidle hport, ← hi, decode]
  case gif => rw [step_of_producer hf hturn, stepP_parserAt hat hs, hi]

end Step

/-! ### C's loop -/

theorem isRingCommand_decodeHeader (w : Word) : IsRingCommand (decodeHeader w) := by
  intro s
  unfold decodeHeader
  split <;> exact ⟨_, rfl⟩

/-- In the middle of a command C goes on with it, unless it is inside a call that never returns. -/
theorem stepC_midCommand {s : State} (hc : s.cstate = .draining) (htop : s.cphase ≠ .top) (hleave : s.cphase ≠ .leaving)
    (hdispatch : s.cphase ≠ .dispatch) : stepC s = if s.endlessCall then .next s else consumerContinue s := by
  rw [stepC, hc]
  dsimp only
  split
  case h_1 hp => exact absurd hp htop
  case h_2 hp => exact absurd hp hleave
  case h_3 hp => exact absurd hp hdispatch
  case h_4 => rfl

/-- Settles O15, place by place; a further step of a command is the command's own. -/
theorem consumerLoop : Obligations.ConsumerLoop := by
  intro s
  refine ⟨fun hc hw => ?_, fun hc hw => ?_, fun hc => ?_, fun hc hp hne => ?_, fun hc hp he => ⟨?_, ?_⟩,
    fun h hc hp hread => stepC_dispatch hc hp hread, fun h hf hc htop hleave hdispatch hread => ?_⟩
  · simp [stepC, hc, consumerWait, hw, takeWake]
  · simp [stepC, hc, consumerWait, hw]
  · obtain hoff | hhalt := hc
    · rw [stepC, hoff]
    · rw [stepC, hhalt]
  · simp [stepC, hc, hp, consumerTest, hne, toCPhase]
  · simp [stepC, hc, hp, consumerTest, he, toCPhase]
  · simp [stepC, hc, endDrain]
  · rw [stepC_midCommand hc htop hleave hdispatch,
      (isRingCommand_decodeHeader h).exec_mid ⟨hf, hc, hdispatch⟩]

/-! ### VSYNC -/

section Vsync

variable {s : State}

theorem consumerContinue_vsyncCount (hp : s.cphase = .vsyncCount) :
    consumerContinue s = .next { s with vsyncQueued := s.vsyncQueued - 1, cphase := .vsyncHookA } := by
  rw [consumerContinue, hp]
  rfl

theorem consumerContinue_vsyncHookA (hp : s.cphase = .vsyncHookA) :
    consumerContinue s = .next { s with periphTrace := s.periphTrace ++ [.a], cphase := .vsyncHookB } := by
  rw [consumerContinue, hp]
  rfl

theorem consumerContinue_vsyncHookB (hp : s.cphase = .vsyncHookB) :
    consumerContinue s = .next { s with periphTrace := s.periphTrace ++ [.b], cphase := .advance 1 } := by
  rw [consumerContinue, hp]
  rfl

/-- Settles O9: the call is the dispatch, and the decrement, the two hooks and the advance are C's next four steps. -/
theorem vsyncCompletes : Obligations.VsyncCompletes := by
  intro s fieldflag hd
  have hcmd : IsRingCommand (.vsync fieldflag) := fun _ => ⟨_, rfl⟩
  have hexec : exec (.vsync fieldflag) s = .next { s with
      backendTrace := s.backendTrace ++ [.vsync fieldflag], cphase := .vsyncCount } := ringCommand_dispatch _ hd
  obtain ⟨hf, hc, -⟩ := hd
  refine ⟨hexec, Eq.trans (execTimes_succ hexec) ?_⟩
  refine Eq.trans (hcmd.execTimes_mid ⟨hf, hc, nofun⟩ (consumerContinue_vsyncCount rfl)) ?_
  refine Eq.trans (hcmd.execTimes_mid ⟨hf, hc, nofun⟩ (consumerContinue_vsyncHookA rfl)) ?_
  refine Eq.trans (hcmd.execTimes_mid ⟨hf, hc, nofun⟩ (consumerContinue_vsyncHookB rfl)) ?_
  refine Eq.trans (hcmd.execTimes_mid ⟨hf, hc, nofun⟩ (consumerContinue_advance rfl)) ?_
  simp only [execTimes, List.append_assoc, List.cons_append, List.nil_append]
  rfl

end Vsync

/-! ### The words of the parser -/

/-- Settles O18: each row is the PACKED item of its notification. -/
theorem packedUnits : Obligations.PackedUnits := by
  intro s i notes run w ws hat hn hi
  have hitem : ∃ k w0 w1, exec i s = packedItem k w0 w1 s ∧ notes = unitNotes k w0 w1 := by
    obtain ⟨u, rfl, rfl⟩ | ⟨sel, u, rfl, rfl⟩ | ⟨w0, w1, x, rfl, rfl⟩ | ⟨w0, w1, x, rfl, rfl⟩ | ⟨w0, w1, x, rfl, rfl⟩ := hi
    · exact ⟨none, unitWord0 u, unitWord1 u, rfl, rfl⟩
    · exact ⟨none, unitWord0 u, unitWord1 u, rfl, rfl⟩
    · exact ⟨some .signal, w0, w1, rfl, rfl⟩
    · exact ⟨some .finish, w0, w1, rfl, rfl⟩
    · exact ⟨some .label, w0, w1, rfl, rfl⟩
  obtain ⟨k, w0, w1, hexec, rfl⟩ := hitem
  exact hexec.trans (packedItem_at hat hn k w0 w1)

end Sys2Proof.Machine

namespace Sys2Proof

open Machine

/-- Settles O22: both codes are the IMAGE item. -/
theorem imageWords : Obligations.ImageWords := by
  intro s i x run w ws hat hn hi
  have hexec : exec i s = imageItem s := by obtain rfl | rfl := hi <;> rfl
  exact hexec.trans (imageItem_at hat hn)

end Sys2Proof
end

section
/-! The host operations that end at once or in two steps: the reserved op codes and commands, OPEN, a commit, the
savestate round trip (42_producer.md R200, R201, R206; 40_ring.md R138; 44_savestate.md R284). -/

namespace Sys2Proof.Machine

/-- Settles O29: check 2 refuses the op code. -/
theorem reservedOpsRaise : Obligations.ReservedOpsRaise := by
  intro s i op hidle hi
  have hrefused {op : BitVec 4} (h : IsHostOp op i) (hop : 11 ≤ op.toNat) :=
    h.exec_refused hidle (apiCheck_eq_false (.inl hop))
  obtain ⟨rfl, rfl⟩ | ⟨rfl, rfl⟩ | ⟨rfl, rfl⟩ | ⟨rfl, rfl⟩ | ⟨rfl, rfl⟩ := hi
  · exact hrefused (op := 11) (fun _ => ⟨_, rfl⟩) (by decide)
  · exact hrefused (op := 12) (fun _ => ⟨_, rfl⟩) (by decide)
  · exact hrefused (op := 13) (fun _ => ⟨_, rfl⟩) (by decide)
  · exact hrefused (op := 14) (fun _ => ⟨_, rfl⟩) (by decide)
  · exact hrefused (op := 15) (fun _ => ⟨_, rfl⟩) (by decide)

/-- Settles O30, by the backend's answer. -/
theorem openCompletes : Obligations.OpenCompletes := by
  intro s hidle hclosed hresv
  have hcheck : apiCheck 0 s = true := by simp [apiCheck, hclosed, hresv]
  refine (hostOp_accepted hidle hcheck).trans ?_
  obtain ⟨-, hp, -⟩ := hidle
  cases Config.drawInit s.draws with
  | true => rfl
  | false => exact congrArg _ (eq_of_eq_toPPhase hp rfl)

theorem reservedCommand_iff {command : W32} :
    reservedCommand command = true ↔ command.toNat ≤ 3 ∨ command.toNat = 14 := by
  rw [reservedCommand, Bool.or_eq_true, decide_eq_true_eq, decide_eq_true_eq]
  omega

theorem sendSimple_refused {op : BitVec 4} {command d0 d1 d2 : W32} {s : State} (hf : s.fault = none)
    (h : command.toNat ≤ 3 ∨ command.toNat = 14) :
    sendSimple op command d0 d1 d2 s = .next { s with
      fault := some { code := .errApi, agent := .p, info := command ++ op.setWidth 32 } } := by
  rw [sendSimple, if_pos (reservedCommand_iff.mpr h), raise_live hf, apiInfo, pair64_eq_append]

/-- Settles O33: both operations are `sendSimple` with their own op code. -/
theorem reservedCommandsRefused : Obligations.ReservedCommandsRefused := by
  intro s command d0 d1 d2 ptr hacc
  have hsimple : exec (.hostSendSimple command d0 d1 d2) s = sendSimple 5 command d0 d1 d2 s :=
    hostOp_of_acceptsOps hacc (by decide)
  have hpointer : exec (.hostSendPointer command d0 ptr) s =
      sendSimple 6 command d0 (ptr.extractLsb' 0 32) (ptr.extractLsb' 32 32) s := hostOp_of_acceptsOps hacc (by decide)
  have hf : s.fault = none := hacc.1.1
  refine ⟨fun h => ⟨?_, ?_⟩, fun ⟨hlow, hrestart⟩ => ?_⟩
  · exact hsimple.trans (sendSimple_refused hf h)
  · exact hpointer.trans (sendSimple_refused hf h)
  · exact ⟨_, _, hsimple.trans (sendSimple_accepted hlow hrestart), hf,
      hpointer.trans (sendSimple_accepted hlow hrestart), hf⟩

/-- Settles O45: the publish, and the wake decision on the state it leaves. -/
theorem commitAndWake : Obligations.CommitAndWake := by
  intro s offset size after hs hp u
  refine ⟨(stepP_publish hs hp).trans ?_, (stepP_wakeDecision (s := u) hs rfl).trans ?_⟩
  · rw [publishStep, resvAfterPublish_eq]
    rfl
  · rw [wakeDecisionStep, wakeDecide_eq]

/-- Settles O41: the load's image is the save's, and decodes to the records it was made from. -/
theorem savestateRoundTrip : Obligations.SavestateRoundTrip := by
  rintro s ⟨hidle, hopen, hresv⟩ hd
  let t : State := { s with
    port := s.port.tail, replies := s.replies ++ [.image (Config.snapshotCodec.encode s.paths)] }
  obtain ⟨hsave, -⟩ := savestateSave s hidle hresv
  obtain ⟨hload, -⟩ := savestateLoad t (Config.snapshotCodec.encode s.paths) hidle hresv
  have hpaths := Config.snapshotCodec.roundTrip s.paths
  refine ⟨_, t, _, (hsave hopen hd).2, rfl, (hload hopen hd).2, hpaths, rfl, fun p data => ?_⟩
  dsimp only [State.path]
  rw [hpaths]

end Sys2Proof.Machine
end

section
/-! Hardware reset (70_reset_and_hazards.md R330) and the two invariants there. -/

namespace Sys2Proof.Machine

/-- Settles O50. -/
theorem resetValues : Obligations.ResetValues := by
  intro cfg
  exact ⟨rfl, rfl, rfl, fun p => GifPaths.get_zero p, rfl, rfl, rfl, rfl, rfl, rfl, rfl, rfl, rfl, rfl, rfl, rfl, rfl, rfl,
    fun _ => rfl, fun _ => rfl⟩

theorem inv_resetWith {cfg : Params} (hcfg : cfg.wf = true) : (State.resetWith cfg).Inv := by
  have hpos : 0 < (State.resetWith cfg).capacity := Nat.two_pow_pos _
  exact ⟨hcfg, hpos, hpos, rfl, rfl, rfl, rfl, iff_of_false nofun nofun, iff_of_false nofun nofun,
    iff_of_true rfl rfl, .inl rfl, .inr (.inl rfl)⟩

theorem liveInv_resetWith {cfg : Params} (hcfg : cfg.wf = true) (hlog : cfg.ringLog2 ≤ 32) :
    (State.resetWith cfg).LiveInv :=
  liveInv_of (inv_resetWith hcfg) hlog rfl (liveHeaders_of_drained rfl rfl) trivial nofun rfl (Nat.zero_le _)

/-- Settles O53: nothing is in the ring, and the conventional parameters are in range. -/
theorem invariantsAtReset : Obligations.InvariantsAtReset :=
  ⟨fun _ hcfg => ⟨inv_resetWith hcfg, liveInv_resetWith hcfg⟩, inv_resetWith (by decide),
    liveInv_resetWith (by decide) (by decide)⟩

end Sys2Proof.Machine
end
